-- ==== Sys2Proof/Word.lean ====
section
/-! DEFINITION. The machine's one data word: the byte of 00_scope.md R10. -/

namespace Sys2Proof

/-- A byte: 8 bits, an unsigned value 0..255, bit 0 the least significant (R10). -/
abbrev Byte := BitVec 8

/-- The byte that holds a count below 256 (a frame's length byte, R57). -/
def byteOf (n : Nat) : Byte := BitVec.ofNat 8 n

end Sys2Proof
end

