-- ==== Sys2Proof/Config.lean ====
section
/-! DEFINITION. The build parameters of 00_scope.md R8 and the free values of 93_implementation_defined.md.
The parameters are a plain record that State carries and no operation changes, so that a statement about every
state is a statement about every build. -/

namespace Sys2Proof

/-- The parameters of R8, fixed at construction. `integrated` says whether the block contains the glue `RX.STEP`
(the glossary's "integrated block", R123, D13). -/
structure Config where
  /-- `CAPACITY`: cells of the byte queue. -/
  capacity : Nat
  /-- `MAX_PAYLOAD`: the longest payload, shared by encoder and parser (D9). -/
  maxPayload : Nat
  /-- `N_HANDLERS`. -/
  nHandlers : Nat
  /-- `HANDLER_MAP`: for each of the 256 types the handler, or none for the fallback (R67, R128). -/
  handlerMap : Vector (Option Nat) 256
  /-- `CNT_W`: bits of each fault counter. -/
  cntW : Nat
  /-- Whether the queue's read port is wired to the parser's feed port (R123). -/
  integrated : Bool
  deriving DecidableEq, Repr

/-- The ranges of R8 (U12): the builds the spec speaks of. -/
def Config.wf (c : Config) : Bool :=
  decide (1 ≤ c.capacity) && decide (c.maxPayload ≤ 255) && decide (1 ≤ c.cntW) &&
    c.handlerMap.toList.all fun o => match o with
      | none => true
      | some h => decide (h < c.nHandlers)

/-- The build of `State.reset`. `MAX_PAYLOAD` and `CNT_W` have the values R8 gives; the others are open in the
spec and chosen here. DESIGN CHOICE (log 1): unsafe for a claim that leans on one of them; no statement does. -/
def Config.sample : Config where
  capacity := 16
  maxPayload := 255
  nHandlers := 0
  handlerMap := Vector.replicate 256 none
  cntW := 16
  integrated := false

/-- The three memories of R38. -/
inductive MemId where
  | storage
  | frameBuffer
  | encPayload
  deriving DecidableEq, Repr

/-- FREE VALUE (U1, U2, U10): what a memory cell holds that nothing has written yet. No body, so nothing can be
proved of it: every claim holds whatever it is (log 3). -/
opaque Config.powerOnByte : MemId → Nat → Byte

/-- FREE VALUE (U3, R95): what a cell of `enc_payload` holds that was not staged since the last reset: one draw for
each reset (the first argument counts them) and cell, the same each time it is read until staged (log 4). -/
opaque Config.unstagedByte : Nat → Nat → Byte

end Sys2Proof
end

