-- ==== Sys2Proof/Syntax.lean ====
section
/-! DEFINITION. The operations of the block as syntax: one constructor of Instr for each row of spec/opcode_table.json;
and the raw requests the decoder reads: one command word of one format, or one whole clock edge. -/

namespace Sys2Proof

/-- The control state of the parser (10_state.md R21). -/
inductive ParserState where
  | awaitHeader1
  | awaitHeader2
  | readType
  | readLength
  | readPayload
  | readCrc
  deriving DecidableEq, Repr

/-- The ten rows of the classification table (30_encoding.md R65). -/
inductive FeedRow where
  | h1Hit
  | h1Miss
  | h2Hit
  | h2Ab
  | h2Miss
  | type
  | lenOk
  | lenOver
  | payload
  | crc
  deriving DecidableEq, Repr

/-- The operations (R58), the classification rows (R65), the dispatch rows (R67), reset (R155) and the wire frame
(R56): one constructor for each row of spec/opcode_table.json. -/
inductive Instr where
  /-- `RESET` (R155). -/
  | reset
  /-- `BUF.INIT` (R76). -/
  | bufInit
  /-- `BUF.WRITE b` (R78). -/
  | bufWrite (b : Byte)
  /-- `BUF.READ` (R79). -/
  | bufRead
  /-- `BUF.EMPTY` (R80). -/
  | bufEmpty
  /-- `BUF.STATUS` (R81). -/
  | bufStatus
  /-- `CRC8 s` (R87). -/
  | crc8 (s : List Byte)
  /-- `ENC.PUT i, b` (R95). -/
  | encPut (i b : Byte)
  /-- `ENC.START t, n` (R96); `n` is a 9-bit number. -/
  | encStart (t : Byte) (n : BitVec 9)
  /-- `ENC.EMIT` (R97). -/
  | encEmit
  /-- `PARSER.FEED b` (R105). -/
  | parserFeed (b : Byte)
  /-- `PARSER.ABORT` (R121). -/
  | parserAbort
  /-- `DISPATCH t, p, n` (R126). -/
  | dispatch (t : Byte) (p : List Byte) (n : Nat)
  /-- `FEED.H1_HIT` (R106): the byte is `HDR1`. -/
  | feedH1Hit
  /-- `FEED.H1_MISS` (R107). -/
  | feedH1Miss (b : Byte)
  /-- `FEED.H2_HIT` (R108): the byte is `HDR2`. -/
  | feedH2Hit
  /-- `FEED.H2_AB` (R109): the byte is `HDR1`. -/
  | feedH2Ab
  /-- `FEED.H2_MISS` (R110). -/
  | feedH2Miss (b : Byte)
  /-- `FEED.TYPE` (R111). -/
  | feedType (b : Byte)
  /-- `FEED.LEN_OK` (R112). -/
  | feedLenOk (b : Byte)
  /-- `FEED.LEN_OVER` (R113). -/
  | feedLenOver (b : Byte)
  /-- `FEED.PAYLOAD` (R114). -/
  | feedPayload (b : Byte)
  /-- `FEED.CRC` (R115). -/
  | feedCrc (b : Byte)
  /-- `DISPATCH.HIT` (R67, R126): the type has a handler. -/
  | dispatchHit (t : Byte) (p : List Byte)
  /-- `DISPATCH.DEFAULT` (R67, R127): the type has none. -/
  | dispatchDefault (t : Byte) (p : List Byte)
  /-- `FRAME` (R56): a frame on the wire, with its checksum byte. -/
  | frame (t : Byte) (p : List Byte) (ck : Byte)
  deriving DecidableEq, Repr

/-- One request as its raw bits: the command word of one format (R59 to R65, R67, R56), or one of the four operations
that have no command word (R74). -/
inductive Cmd where
  /-- Format R: `{rst}` (R64). -/
  | r (word : BitVec 1)
  /-- Format P: `{wr_en, wr_data[7:0]}` (R59). -/
  | p (word : BitVec 9)
  /-- Format C: `{rd_en}` (R60). -/
  | c (word : BitVec 1)
  /-- Format F: `{parser_abort, feed_valid, feed_data[7:0]}` (R61). -/
  | f (word : BitVec 10)
  /-- Format E: `{enc_put, enc_start}` with the operand fields beside it (R62). -/
  | e (word : BitVec 2) (putIdx putData typeIn : Byte) (lenIn : BitVec 9)
  /-- Format T: `{tx_ready}` (R63). -/
  | t (word : BitVec 1)
  /-- Format W: `{state[2:0], b[7:0]}` (R65). -/
  | w (word : BitVec 11)
  /-- Format D: the type byte, with the payload beside it (R67, R75); inside the block only (R126). -/
  | d (t : Byte) (p : List Byte)
  /-- The wire: bytes in transmission order (R56). -/
  | wire (bytes : List Byte)
  /-- Reading the status output `empty` (R80, no command word). -/
  | observeEmpty
  /-- Reading the status outputs `full` and `count` (R81, no command word). -/
  | observeStatus
  /-- Applying the function `CRC8` (R87, no command word). -/
  | applyCrc8 (s : List Byte)
  /-- Invoking `DISPATCH` (R126, no command word); inside the block only. -/
  | invokeDispatch (t : Byte) (p : List Byte) (n : Nat)
  deriving DecidableEq, Repr

/-- One rising clock edge: every port's command word at once (10_state.md R34). -/
structure Edge where
  /-- Port R. -/
  r : BitVec 1
  /-- Port P. -/
  p : BitVec 9
  /-- Port C; not an input of the integrated block (R60). -/
  c : BitVec 1
  /-- Port F; in the integrated block only `parser_abort` is an input (R61). -/
  f : BitVec 10
  /-- Port E, `{enc_put, enc_start}`. -/
  e : BitVec 2
  putIdx : Byte
  putData : Byte
  typeIn : Byte
  lenIn : BitVec 9
  /-- Port T. -/
  t : BitVec 1
  /-- `rx_run`; an input of the integrated block only (R123). -/
  rxRun : BitVec 1
  deriving DecidableEq, Repr

/-- The edge on which no port carries a request. -/
def Edge.idle : Edge where
  r := 0
  p := 0
  c := 0
  f := 0
  e := 0
  putIdx := 0
  putData := 0
  typeIn := 0
  lenIn := 0
  t := 0
  rxRun := 0

/-- What one step takes from the environment: one operation alone (the interleaving reading, R47) or one clock edge
(the clocked reading, R48). -/
inductive Input where
  | cmd (w : Cmd)
  | edge (e : Edge)
  deriving DecidableEq, Repr

end Sys2Proof
end

