-- ==== Sys2Proof/WellFormed.lean ====
section
/-! DEFINITION. Which terms of Instr are operations of a given build: the operand ranges and the conditions of the
classification and dispatch rows (30_encoding.md R56, R65, R66, R67; 44_dispatch.md R126). -/

namespace Sys2Proof

/-- A payload that a length byte of this build can announce (R56, R57). -/
def Config.payloadFits (c : Config) (p : List Byte) : Bool :=
  decide (p.length ≤ 255) && decide (p.length ≤ c.maxPayload)

/-- An operation of the build: every operand in its range, every row's own condition met. -/
def Instr.wellFormed (c : Config) : Instr → Bool
  | .reset => true
  | .bufInit => true
  | .bufWrite _ => true
  | .bufRead => true
  | .bufEmpty => true
  | .bufStatus => true
  | .crc8 _ => true
  | .encPut _ _ => true
  | .encStart _ _ => true
  | .encEmit => true
  | .parserFeed _ => true
  | .parserAbort => true
  | .dispatch _ p n => n == p.length && c.payloadFits p
  | .feedH1Hit => true
  | .feedH1Miss b => b != hdr1
  | .feedH2Hit => true
  | .feedH2Ab => true
  | .feedH2Miss b => b != hdr1 && b != hdr2
  | .feedType _ => true
  | .feedLenOk b => decide (b.toNat ≤ c.maxPayload)
  | .feedLenOver b => decide (c.maxPayload < b.toNat)
  | .feedPayload _ => true
  | .feedCrc _ => true
  | .dispatchHit t p => (c.handler t).isSome && c.payloadFits p
  | .dispatchDefault t p => (c.handler t).isNone && c.payloadFits p
  | .frame t p ck => c.payloadFits p && ck == frameChecksum t p

end Sys2Proof
end

