-- ==== Sys2Proof/Decode.lean ====
section
/-! DEFINITION. The decoder of the command words (30_encoding.md R59 to R67, R56), total, rejecting by name; and after it
the encoder, written from the same tables. -/

namespace Sys2Proof

/-- The number of a parser state (R21, D10). -/
def ParserState.number : ParserState → BitVec 3
  | .awaitHeader1 => 0
  | .awaitHeader2 => 1
  | .readType => 2
  | .readLength => 3
  | .readPayload => 4
  | .readCrc => 5

/-- The state of a number; 6 and 7 name none (R66, U5). -/
def ParserState.ofNumber (n : BitVec 3) : Option ParserState :=
  if n = 0 then some .awaitHeader1
  else if n = 1 then some .awaitHeader2
  else if n = 2 then some .readType
  else if n = 3 then some .readLength
  else if n = 4 then some .readPayload
  else if n = 5 then some .readCrc
  else none

/-- The row of the classification table that takes byte `b` in state `st` (R65), rows tried from the top (R66). -/
def classify (c : Config) (st : ParserState) (b : Byte) : FeedRow :=
  match st with
  | .awaitHeader1 => if b = hdr1 then .h1Hit else .h1Miss
  | .awaitHeader2 => if b = hdr2 then .h2Hit else if b = hdr1 then .h2Ab else .h2Miss
  | .readType => .type
  | .readLength => if b.toNat ≤ c.maxPayload then .lenOk else .lenOver
  | .readPayload => .payload
  | .readCrc => .crc

/-- The instruction of a classification row on byte `b`. -/
def FeedRow.instr (b : Byte) : FeedRow → Instr
  | .h1Hit => .feedH1Hit
  | .h1Miss => .feedH1Miss b
  | .h2Hit => .feedH2Hit
  | .h2Ab => .feedH2Ab
  | .h2Miss => .feedH2Miss b
  | .type => .feedType b
  | .lenOk => .feedLenOk b
  | .lenOver => .feedLenOver b
  | .payload => .feedPayload b
  | .crc => .feedCrc b

/-- Why a request selects no operation. -/
inductive Reject where
  /-- The port is idle (R59 to R64): no operation, no state change. -/
  | idle
  /-- `{enc_put, enc_start} == 11` (R62, U6): neither request is accepted, no state change. -/
  | reservedEncRequest
  /-- Parser state number 6 or 7 (R66, U5). -/
  | noParserState
  /-- Fewer than the four bytes of a frame's fixed prefix (R56). -/
  | frameTooShort
  /-- The first two bytes are not the header (R56). -/
  | frameHeader
  /-- The bytes after the prefix are not `L + 1` (R56). -/
  | frameLength
  deriving DecidableEq, Repr

/-- Format R (R64): `1` selects the reset, which contains `BUF.INIT`. -/
def decodeR (word : BitVec 1) : Except Reject Instr :=
  if word = 1 then .ok .reset else .error .idle

/-- Format P (R59). -/
def decodeP (word : BitVec 9) : Except Reject Instr :=
  if word.getLsbD 8 then .ok (.bufWrite (word.setWidth 8)) else .error .idle

/-- Format C (R60). -/
def decodeC (word : BitVec 1) : Except Reject Instr :=
  if word = 1 then .ok .bufRead else .error .idle

/-- Format F (R61): an abort inhibits the feed. -/
def decodeF (word : BitVec 10) : Except Reject Instr :=
  if word.getLsbD 9 then .ok .parserAbort
  else if word.getLsbD 8 then .ok (.parserFeed (word.setWidth 8))
  else .error .idle

/-- Format E (R62). -/
def decodeE (word : BitVec 2) (putIdx putData typeIn : Byte) (lenIn : BitVec 9) : Except Reject Instr :=
  if word = 0b10 then .ok (.encPut putIdx putData)
  else if word = 0b01 then .ok (.encStart typeIn lenIn)
  else if word = 0b11 then .error .reservedEncRequest
  else .error .idle

/-- Format T (R63): whether the request is idle because the encoder is, is judged with the state (R97). -/
def decodeT (word : BitVec 1) : Except Reject Instr :=
  if word = 1 then .ok .encEmit else .error .idle

/-- Format W (R65). -/
def decodeW (c : Config) (word : BitVec 11) : Except Reject Instr :=
  match ParserState.ofNumber (word.extractLsb' 8 3) with
  | some st => .ok ((classify c st (word.setWidth 8)).instr (word.setWidth 8))
  | none => .error .noParserState

/-- Format D (R67): by the type byte alone. -/
def decodeD (c : Config) (t : Byte) (p : List Byte) : Except Reject Instr :=
  match c.handler t with
  | some _ => .ok (.dispatchHit t p)
  | none => .ok (.dispatchDefault t p)

/-- The wire format (R56): prefix, `L` payload bytes, one checksum byte. The checksum is an operand here; whether it
matches is the parser's business (R115). -/
def decodeWire : List Byte → Except Reject Instr
  | h1 :: h2 :: t :: l :: rest =>
    if h1 ≠ hdr1 ∨ h2 ≠ hdr2 then .error .frameHeader
    else match rest.drop l.toNat with
      | [ck] => .ok (.frame t (rest.take l.toNat) ck)
      | _ => .error .frameLength
  | _ => .error .frameTooShort

/-- The decoder. -/
def decode (c : Config) : Cmd → Except Reject Instr
  | .r word => decodeR word
  | .p word => decodeP word
  | .c word => decodeC word
  | .f word => decodeF word
  | .e word i b t n => decodeE word i b t n
  | .t word => decodeT word
  | .w word => decodeW c word
  | .d t p => decodeD c t p
  | .wire bytes => decodeWire bytes
  | .observeEmpty => .ok .bufEmpty
  | .observeStatus => .ok .bufStatus
  | .applyCrc8 s => .ok (.crc8 s)
  | .invokeDispatch t p n => .ok (.dispatch t p n)

/-- The word of a classification row: state number and byte (R65). -/
def wordW (st : ParserState) (b : Byte) : Cmd := .w (st.number ++ b)

/-- The request of an operation, from the patterns of R59 to R67 and R56. -/
def encode : Instr → Cmd
  | .reset => .r 1
  | .bufInit => .r 1
  | .bufWrite b => .p (1#1 ++ b)
  | .bufRead => .c 1
  | .bufEmpty => .observeEmpty
  | .bufStatus => .observeStatus
  | .crc8 s => .applyCrc8 s
  | .encPut i b => .e 0b10 i b 0 0
  | .encStart t n => .e 0b01 0 0 t n
  | .encEmit => .t 1
  | .parserFeed b => .f (0b01#2 ++ b)
  | .parserAbort => .f (0b10#2 ++ 0#8)
  | .dispatch t p n => .invokeDispatch t p n
  | .feedH1Hit => wordW .awaitHeader1 hdr1
  | .feedH1Miss b => wordW .awaitHeader1 b
  | .feedH2Hit => wordW .awaitHeader2 hdr2
  | .feedH2Ab => wordW .awaitHeader2 hdr1
  | .feedH2Miss b => wordW .awaitHeader2 b
  | .feedType b => wordW .readType b
  | .feedLenOk b => wordW .readLength b
  | .feedLenOver b => wordW .readLength b
  | .feedPayload b => wordW .readPayload b
  | .feedCrc b => wordW .readCrc b
  | .dispatchHit t p => .d t p
  | .dispatchDefault t p => .d t p
  | .frame t p ck => .wire (frameBytes t p ck)

/-- The operation that an operation's own word selects: itself, but for `BUF.INIT`, whose word `rst == 1` selects the
reset that contains it (R64, R76; log 15). -/
def Instr.selected : Instr → Instr
  | .bufInit => .reset
  | i => i

/-- The request that a word of spec/opcode_table.json stands for, from the number of its bits in whole bytes: 8 bits are
format R, then E, then D; 16 bits are format W; 32 bits are the wire prefix, first byte in bits 31..24, with a payload
and a checksum of zeros after it. DESIGN CHOICE (log 14): the table's formats share words and the port is not in the
word. -/
def tableCmd (nbits w : Nat) : Option Cmd :=
  if nbits = 8 ∧ w < 2 ^ 8 then
    if w = 1 then some (.r 1)
    else if w = 2 then some (.e 0b10 0 0 0 0)
    else some (.d (byteOf w) [])
  else if nbits = 16 ∧ w < 2 ^ 11 then some (.w (BitVec.ofNat 11 w))
  else if nbits = 32 ∧ w < 2 ^ 32 then
    some (.wire ([byteOf (w / 2 ^ 24), byteOf (w / 2 ^ 16), byteOf (w / 2 ^ 8), byteOf w] ++
      List.replicate (w % 256 + 1) 0))
  else none

/-- The instruction the decoder reads from a word of the opcode table, in the build of `State.reset`. -/
def decodeTableWord (nbits w : Nat) : Option Instr :=
  match tableCmd nbits w with
  | some cmd => match decode Config.sample cmd with
    | .ok i => some i
    | .error _ => none
  | none => none

end Sys2Proof
end

