-- ==== Sys2Proof/Machine/State.lean ====
section
/-! DEFINITION. The state of the block (10_state.md R13): the byte queue, the parser, the encoder, the fault counters,
the output streams, and the model's own records; its reset value (R36); and the reasons a step can stop. -/

namespace Sys2Proof.Machine

/-- A byte memory (R38): the cells that have been written, as (index, byte) pairs with rising indices
(`Memory.wf`). A cell that is not listed has no value here; what is then read of it is a free value (log 3). -/
abbrev Memory := List Host.Cell

/-- The byte queue (R14). `CAPACITY` is in the configuration. -/
structure ByteQueue where
  /-- `storage`: `CAPACITY` bytes. -/
  storage : Memory
  /-- `head`: next read index (R15). -/
  head : Nat
  /-- `tail`: next write index (R16). -/
  tail : Nat
  /-- `full` (R17). -/
  full : Bool
  deriving DecidableEq, Repr

/-- The parser (R20). -/
structure Parser where
  /-- `state` (R21). -/
  state : ParserState
  /-- `frame_buffer`: `2 + MAX_PAYLOAD` bytes (R22). -/
  frameBuffer : Memory
  /-- `type` (R23). -/
  type : Byte
  /-- `declared_length` (R24). -/
  declaredLength : Byte
  /-- `cursor` (R25). -/
  cursor : Nat
  deriving DecidableEq, Repr

/-- The encoder (R27, R28). -/
structure Encoder where
  /-- `enc_busy`. -/
  busy : Bool
  /-- `enc_type`. -/
  type : Byte
  /-- `enc_len`. -/
  len : Byte
  /-- `enc_idx`. -/
  idx : Nat
  /-- `enc_payload`: `MAX_PAYLOAD` bytes. -/
  payload : Memory
  /-- The MODEL's own: which cells of `enc_payload` were staged since the last reset (R95, U3; log 4). -/
  staged : Vector Bool 256
  deriving DecidableEq, Repr

/-- The fault counters (R29). -/
structure Counters where
  /-- `ovf_count`. -/
  ovf : Nat
  /-- `oversize_count`. -/
  oversize : Nat
  deriving DecidableEq, Repr

/-- The handler an event goes to (44_dispatch.md R125). -/
inductive Sel where
  /-- `Handler(h)`. -/
  | handler (h : Nat)
  /-- `Default`: the mandatory fallback (R127). -/
  | fallback
  deriving DecidableEq, Repr

/-- A dispatch event (R125). -/
structure DispEvent where
  sel : Sel
  t : Byte
  n : Nat
  p : List Byte
  deriving DecidableEq, Repr

/-- What `raise F(info)` records (00_scope.md R12, 60_exceptions.md R134, R135). -/
inductive FaultRecord where
  /-- F1 `BufferFull(b)`: the byte dropped. -/
  | bufferFull (b : Byte)
  /-- F2 `OversizeLength(type, b)`: the abandoned frame's type and the length byte. -/
  | oversizeLength (t b : Byte)
  deriving DecidableEq, Repr

/-- The result outputs of the step just taken (R13, R34). The hardware does not store them; an output whose valid is
0 has no value here (U11; log 13). -/
structure Outputs where
  /-- `wr_ok`. -/
  wrOk : Bool
  /-- `rd_valid` with `rd_data`. -/
  rd : Option Byte
  /-- The answer of `BUF.EMPTY`. -/
  isEmpty : Option Bool
  /-- The answer of `BUF.STATUS`: `full` and `count`. -/
  status : Option (Bool × Nat)
  /-- The result of `CRC8 s`. -/
  crc : Option Byte
  /-- `enc_put_ok`. -/
  encPutOk : Bool
  /-- `enc_ok`. -/
  encOk : Bool
  /-- The byte transferred to the sink in this step (R98). -/
  txByte : Option Byte
  /-- `oversize_evt`. -/
  oversizeEvt : Bool
  /-- `disp_valid` with the event (R132). -/
  disp : Option DispEvent
  deriving DecidableEq, Repr

/-- The outputs of a step that requests nothing. -/
def Outputs.idle : Outputs where
  wrOk := false
  rd := none
  isEmpty := none
  status := none
  crc := none
  encPutOk := false
  encOk := false
  txByte := none
  oversizeEvt := false
  disp := none

/-- The state of the block and its surroundings. -/
structure State where
  /-- The build (R8): no operation changes it. -/
  cfg : Config
  queue : ByteQueue
  parser : Parser
  enc : Encoder
  counters : Counters
  /-- The stream `DISP` (R13), oldest first. -/
  disp : List DispEvent
  /-- The stream `TX` (R13), oldest first. -/
  tx : List Byte
  /-- The MODEL's own record of raised faults, oldest first (R12, R140; log 21). -/
  raised : List FaultRecord
  /-- The result outputs of the last step (R34). -/
  out : Outputs
  /-- The MODEL's own count of executed resets: it selects the free draw of U3 (log 4). -/
  resetEra : Nat
  /-- The MODEL's own: what the environment will drive, next first (R11, D30; log 5). -/
  schedule : List Input
  deriving DecidableEq, Repr

/-- Why the model stops (none of these is one of the block's own faults F1 to F5, which stop nothing, R140). -/
inductive Fault where
  /-- An access to a memory cell that does not exist: index `i` of memory `m`. Raised by the operations that read or
  write a memory (Machine/Ops.lean) when the index is outside the array (R12, R38). Safe: the model stops where the
  spec says no such access occurs (R39 to R41), and from a state with the invariant none does. -/
  | noSuchCell (m : MemId) (i : Nat)
  deriving DecidableEq, Repr

/-- Why the model gives a request no meaning. -/
inductive Refusal where
  /-- No meaning yet for the instruction; used by refused arms of exec only, and none is left. Safe. -/
  | notModelled (mnemonic : String)
  /-- A `FEED.*` or `DISPATCH.*` row was asked for in a state, or a build, that does not select it (R65 to R67).
  Raised by the meanings of those rows. Safe: the block never takes such a row, and no run has it (log 8). -/
  | rowNotSelected
  /-- A classification word with parser state number 6 or 7, which name no state (R66, U5). Raised by the step on such
  a word. Safe (log 16). -/
  | noParserState
  deriving DecidableEq, Repr

/-- The state right after reset of the build `c` (R36, R155): the values the spec gives; nothing listed in any memory;
`type`, `declared_length`, `enc_type` and `enc_len`, which the spec leaves unspecified, at 0 (DESIGN CHOICE, log 2). -/
def State.resetOf (c : Config) : State where
  cfg := c
  queue := { storage := [], head := 0, tail := 0, full := false }
  parser := { state := .awaitHeader1, frameBuffer := [], type := 0, declaredLength := 0, cursor := 0 }
  enc := { busy := false, type := 0, len := 0, idx := 0, payload := [], staged := Vector.replicate 256 false }
  counters := { ovf := 0, oversize := 0 }
  disp := []
  tx := []
  raised := []
  out := Outputs.idle
  resetEra := 0
  schedule := []

/-- The state right after reset, in the sample build (log 1). -/
def State.reset : State := State.resetOf Config.sample

end Sys2Proof.Machine
end

