-- ==== Sys2Proof/Machine/Operands.lean ====
section
/-! DEFINITION. The operands: index arithmetic, length checks, widths (45_common_laws.md R175) and the effective-index
computations of the three memories (R178). -/

namespace Sys2Proof.Machine

/-- `IDX_W`: the least `w >= 1` with `2^w >= CAPACITY` (R8). -/
def idxW (c : Config) : Nat := Nat.log2 (c.capacity - 1) + 1

/-- `(i + 1) mod CAPACITY` (R77, R175 (a)). -/
def advance (c : Config) (i : Nat) : Nat := (i + 1) % c.capacity

/-- The largest value of a fault counter: `2^CNT_W - 1` (R29). -/
def counterMax (c : Config) : Nat := 2 ^ c.cntW - 1

/-- `sat_inc(c)` (R12, R29, R175 (g)). -/
def satInc (c : Config) (n : Nat) : Nat := if n = counterMax c then n else n + 1

/-- The number of cells of a memory (R38). -/
def memSize (c : Config) : MemId → Nat
  | .storage => c.capacity
  | .frameBuffer => c.maxPayload + 2
  | .encPayload => c.maxPayload

/-- The length check of `FEED.LEN_OK` (R175 (f)): a byte against `MAX_PAYLOAD`. -/
def lengthFits (c : Config) (b : Byte) : Bool := decide (b.toNat ≤ c.maxPayload)

/-- The length check of `ENC.START` (R175 (f)): a 9-bit number, never truncated to a byte. -/
def startFits (c : Config) (n : BitVec 9) : Bool := decide (n.toNat ≤ c.maxPayload)

/-- The index check of `ENC.PUT` (R175 (f)). -/
def putFits (c : Config) (i : Byte) : Bool := decide (i.toNat < c.maxPayload)

/-- `n[7:0]`, what `ENC.START` latches (R96). -/
def lowByte (n : BitVec 9) : Byte := n.setWidth 8

/-- `declared_length + 2`, in as many bits as it needs (R57, R175 (d)). -/
def frameEnd (declaredLength : Byte) : Nat := declaredLength.toNat + 2

/-- `4 + enc_len`: the index of the checksum byte in the outbound frame (R97, R175 (e)). -/
def checksumIdx (len : Byte) : Nat := 4 + len.toNat

/-- The bytes a range of indices `lo <= i < hi` selects (R12, R178 (c)). -/
def rangeOf (f : Nat → Byte) (lo hi : Nat) : List Byte := (List.range' lo (hi - lo)).map f

end Sys2Proof.Machine
end

