-- ==== Sys2Proof/Machine/Flags.lean ====
section
/-! DEFINITION. Every flag and derived predicate (10_state.md R18, R29, R33), and the abstract contents of the byte
queue. -/

namespace Sys2Proof.Machine

/-- `empty = !full && (head == tail)` (R18, R80). -/
def ByteQueue.isEmpty (q : ByteQueue) : Bool := !q.full && q.head == q.tail

/-- `count` (R18, R175 (b)): `CAPACITY` is added before `head` is taken away, so nothing is negative. -/
def ByteQueue.count (c : Config) (q : ByteQueue) : Nat :=
  if q.full then c.capacity else (q.tail + c.capacity - q.head) % c.capacity

/-- What `full` becomes when a byte has been written and `tail` advanced to `tail'` (R17, R78). -/
def fullAfterWrite (head tail' : Nat) : Bool := tail' == head

/-- What `full` becomes on an edge with a write and a read, judged on the state before it (R48). -/
def fullAfterEdge (canW canR : Bool) (head tail' : Nat) (full : Bool) : Bool :=
  if canW && canR then false
  else if canW then fullAfterWrite head tail'
  else if canR then false
  else full

/-- The fault flag of `ovf_count` (R29, R33). -/
def Counters.ovfFlag (k : Counters) : Bool := k.ovf != 0

/-- The fault flag of `oversize_count` (R29, R33). -/
def Counters.oversizeFlag (k : Counters) : Bool := k.oversize != 0

/-- The block is quiescent (R171): nothing but the environment can move it. -/
def quiescent (s : State) : Bool := s.queue.isEmpty && !s.enc.busy

/-- Whether cell `i` of `enc_payload` was staged since the last reset (R95). -/
def Encoder.isStaged (e : Encoder) (i : Nat) : Bool := (e.staged[i]?).getD false

end Sys2Proof.Machine
end

