-- ==== Sys2Proof/Machine/Ops.lean ====
section
/-! DEFINITION. The operations every meaning is written over: byte memories, one update for each part of the state, the
output streams, and raising a fault (00_scope.md R12, 60_exceptions.md R140), which is what taking an exception is on
this hardware: it records and goes on, saves nothing, and there is no return from it (R145, R146). -/

namespace Sys2Proof.Machine

/-- The outcome of one operation. -/
abbrev Result := Host.Outcome State Fault Refusal

/-- One operation after another: the second runs on the state the first leaves; a stop stays a stop. -/
def andThen (r : Result) (f : State → Result) : Result :=
  match r with
  | .next s => f s
  | .fault x => .fault x
  | .refused x => .refused x

/-! ### Byte memories -/

/-- The canonical form: indices strictly rising. An unlisted cell has no value, so no entry can equal one. -/
abbrev Memory.wf (m : Memory) : Prop := m.Pairwise fun x y => x.1 < y.1

/-- What the memory lists for cell `i`: nothing where the cell was never written. -/
def Memory.lookup : Memory → Nat → Option Byte
  | [], _ => none
  | (a, v) :: m, i => if a = i then some v else Memory.lookup m i

/-- `MemWrite(M, i, v)` (R12), keeping the canonical form. -/
def Memory.write : Memory → Nat → Byte → Memory
  | [], i, v => [(i, v)]
  | (a, w) :: m, i, v =>
    if i < a then (i, v) :: (a, w) :: m
    else if i = a then (i, v) :: m
    else (a, w) :: Memory.write m i v

/-- `MemRead(M, i)` (R12): the byte written last, or for a cell never written the free value (U1, U2). -/
def heldByte (id : MemId) (m : Memory) (i : Nat) : Byte := (m.lookup i).getD (Config.powerOnByte id i)

/-- The byte at index `i` of `storage`. -/
def State.storageAt (s : State) (i : Nat) : Byte := heldByte .storage s.queue.storage i

/-- The byte at index `i` of `frame_buffer`. -/
def State.frameAt (s : State) (i : Nat) : Byte := heldByte .frameBuffer s.parser.frameBuffer i

/-- What cell `i` of `enc_payload` holds in the hardware, which a reset does not write (R155, R157). -/
def State.payloadAt (s : State) (i : Nat) : Byte := heldByte .encPayload s.enc.payload i

/-- The byte the encoder takes from cell `i` of `enc_payload` (R95, U3): the cell's, if it was staged since the last
reset, else that reset's free draw, because a model must treat such a cell as unspecified (log 4). -/
def State.stagedAt (s : State) (i : Nat) : Byte :=
  if s.enc.isStaged i then s.payloadAt i else Config.unstagedByte s.resetEra i

/-- `frame_buffer[lo..hi)` (R117, R178 (c)). -/
def State.frameRange (s : State) (lo hi : Nat) : List Byte := rangeOf s.frameAt lo hi

/-- `enc_payload[0..n)` (R97). -/
def State.stagedRange (s : State) (n : Nat) : List Byte := rangeOf s.stagedAt 0 n

/-- An operation that touches the cells `lo <= i < hi` of memory `id`: it runs where they exist and faults at the
first that does not (R12, R38; log 11). With `hi = 0` it touches none. -/
def withCells (id : MemId) (lo hi : Nat) (s : State) (r : Result) : Result :=
  if hi ≤ memSize s.cfg id then r else .fault (.noSuchCell id (max lo (memSize s.cfg id)))

/-! ### One update for each part of the state -/

def State.withQueue (s : State) (q : ByteQueue) : State := { s with queue := q }
def State.withParser (s : State) (p : Parser) : State := { s with parser := p }
def State.withEnc (s : State) (e : Encoder) : State := { s with enc := e }
def State.withCounters (s : State) (k : Counters) : State := { s with counters := k }
def State.withOut (s : State) (o : Outputs) : State := { s with out := o }
def State.withEra (s : State) (n : Nat) : State := { s with resetEra := n }
def State.withSchedule (s : State) (l : List Input) : State := { s with schedule := l }

/-- `state <- S` (R12). -/
def State.goto (s : State) (st : ParserState) : State := s.withParser { s.parser with state := st }

/-! ### Streams and faults -/

/-- `emit DISPATCH(sel, t, n, p)` (R12): the event joins `DISP` and is presented on the handler port. -/
def State.emitDisp (s : State) (e : DispEvent) : State :=
  { s with disp := s.disp ++ [e], out := { s.out with disp := some e } }

/-- `emit TX(b)` (R12, R98): one `send_byte(b)`. -/
def State.emitTx (s : State) (b : Byte) : State :=
  { s with tx := s.tx ++ [b], out := { s.out with txByte := some b } }

/-- `raise F(info)` (R12, R134, R135, R140): the counter of the fault is incremented with saturation, an oversize fault
shows on `oversize_evt`, and the record grows; control goes nowhere. -/
def State.raise (s : State) (f : FaultRecord) : State :=
  match f with
  | .bufferFull _ =>
    { s with counters := { s.counters with ovf := satInc s.cfg s.counters.ovf }, raised := s.raised ++ [f] }
  | .oversizeLength _ _ =>
    { s with
      counters := { s.counters with oversize := satInc s.cfg s.counters.oversize }
      raised := s.raised ++ [f]
      out := { s.out with oversizeEvt := true } }

end Sys2Proof.Machine
end

