-- ==== Sys2Proof/Machine/Buffer.lean ====
section
/-! DEFINITION. The byte queue (40_buffer.md): BUF.INIT, BUF.WRITE, BUF.READ, BUF.EMPTY, BUF.STATUS, and a write and a
read on one edge (20_memory.md R48). -/

namespace Sys2Proof.Machine

/-- The queue's own part of `BUF.INIT` (R76): `storage` is not written. -/
def ByteQueue.init (q : ByteQueue) : ByteQueue := { q with head := 0, tail := 0, full := false }

/-- The queue after a byte is appended (R78, the accepted case). -/
def ByteQueue.push (c : Config) (q : ByteQueue) (b : Byte) : ByteQueue :=
  { q with
    storage := q.storage.write q.tail b
    tail := advance c q.tail
    full := fullAfterWrite q.head (advance c q.tail) }

/-- The queue after the oldest byte is removed (R79, the successful case): `storage` is not written. -/
def ByteQueue.pop (c : Config) (q : ByteQueue) : ByteQueue :=
  { q with head := advance c q.head, full := false }

/-- `queued` (R18): the bytes in the queue, oldest first. -/
def ByteQueue.queued (c : Config) (q : ByteQueue) : List Byte :=
  (List.range (q.count c)).map fun k => heldByte .storage q.storage ((q.head + k) % c.capacity)

/-- `BUF.INIT` (R76). -/
def execBufInit (s : State) : Result := .next (s.withQueue s.queue.init)

/-- `BUF.WRITE b` (R78): on a full queue the byte is dropped and counted, and nothing of the queue moves. -/
def execBufWrite (b : Byte) (s : State) : Result :=
  if s.queue.full then
    .next ((s.raise (.bufferFull b)).withOut { s.out with wrOk := false })
  else
    withCells .storage s.queue.tail (s.queue.tail + 1) s
      (.next ((s.withQueue (s.queue.push s.cfg b)).withOut { s.out with wrOk := true }))

/-- `BUF.READ` (R79): the emptiness test uses `full`. -/
def execBufRead (s : State) : Result :=
  if s.queue.isEmpty then
    .next (s.withOut { s.out with rd := none })
  else
    withCells .storage s.queue.head (s.queue.head + 1) s
      (.next ((s.withQueue (s.queue.pop s.cfg)).withOut { s.out with rd := some (s.storageAt s.queue.head) }))

/-- `BUF.EMPTY` (R80): a pure read of the status output. -/
def execBufEmpty (s : State) : Result :=
  .next (s.withOut { s.out with isEmpty := some s.queue.isEmpty })

/-- `BUF.STATUS` (R81): a pure read of `full` and `count`. -/
def execBufStatus (s : State) : Result :=
  .next (s.withOut { s.out with status := some (s.queue.full, s.queue.count s.cfg) })

/-- The queue after an edge on which the write (`canW`) and the read (`canR`) take effect, both judged on the queue
before it (R48). -/
def ByteQueue.edge (c : Config) (q : ByteQueue) (b : Byte) (canW canR : Bool) : ByteQueue where
  storage := if canW then q.storage.write q.tail b else q.storage
  tail := if canW then advance c q.tail else q.tail
  head := if canR then advance c q.head else q.head
  full := fullAfterEdge canW canR q.head (advance c q.tail) q.full

/-- `BUF.WRITE b` and `BUF.READ` on one edge (R48). -/
def bufWriteRead (b : Byte) (s : State) : Result :=
  let canW := !s.queue.full
  let canR := !s.queue.isEmpty
  let counted := if canW then s else s.raise (.bufferFull b)
  withCells .storage s.queue.tail (if canW then s.queue.tail + 1 else 0) s
    (withCells .storage s.queue.head (if canR then s.queue.head + 1 else 0) s
      (.next ((counted.withQueue (s.queue.edge s.cfg b canW canR)).withOut
        { s.out with wrOk := canW, rd := if canR then some (s.storageAt s.queue.head) else none })))

end Sys2Proof.Machine
end

