-- ==== Sys2Proof/Machine/Checksum.lean ====
section
/-! DEFINITION. The operation CRC8 (41_checksum.md R87). The function itself is in Machine/Wire.lean, where the decoder
and the well-formedness check can use it. -/

namespace Sys2Proof.Machine

/-- `CRC8 s` (R87): it reads and writes no state; its result is presented. -/
def execCrc8 (l : List Byte) (s : State) : Result :=
  .next (s.withOut { s.out with crc := some (crc8 l) })

end Sys2Proof.Machine
end

