-- ==== Sys2Proof/Machine/Encoder.lean ====
section
/-! DEFINITION. The frame encoder (42_encoder.md): ENC.PUT, ENC.START, ENC.EMIT. -/

namespace Sys2Proof.Machine

/-- The encoder after a byte is staged (R95, the accepted case). -/
def Encoder.stage (e : Encoder) (i b : Byte) : Encoder :=
  { e with payload := e.payload.write i.toNat b, staged := e.staged.set i.toNat true i.isLt }

/-- The encoder after a frame is started (R96, the accepted case). -/
def Encoder.start (e : Encoder) (t : Byte) (n : BitVec 9) : Encoder :=
  { e with type := t, len := lowByte n, idx := 0, busy := true }

/-- The encoder after the byte at `enc_idx` is sent (R97). -/
def Encoder.sent (e : Encoder) : Encoder :=
  if e.idx = checksumIdx e.len then { e with busy := false } else { e with idx := e.idx + 1 }

/-- `byte_k` (R97): byte `k` of the frame in flight. -/
def State.encByte (s : State) (k : Nat) : Byte :=
  if k = 0 then hdr1
  else if k = 1 then hdr2
  else if k = 2 then s.enc.type
  else if k = 3 then s.enc.len
  else if k < checksumIdx s.enc.len then s.stagedAt (k - 4)
  else crc8 ([s.enc.type, s.enc.len] ++ s.stagedRange s.enc.len.toNat)

/-- The first cell of `enc_payload` that sending byte `k` reads (R41, R178 (e)): `k - 4` for a payload byte, 0 for the
checksum. -/
def Encoder.firstRead (e : Encoder) (k : Nat) : Nat := if k < checksumIdx e.len then k - 4 else 0

/-- One past the last cell of `enc_payload` that sending byte `k` reads; 0 when it reads none (R41). -/
def Encoder.endRead (e : Encoder) (k : Nat) : Nat :=
  if k < 4 then 0 else if k < checksumIdx e.len then k - 3 else e.len.toNat

/-- `ENC.PUT i, b` (R95). -/
def execEncPut (i b : Byte) (s : State) : Result :=
  if !s.enc.busy && putFits s.cfg i then
    .next ((s.withEnc (s.enc.stage i b)).withOut { s.out with encPutOk := true })
  else
    .next (s.withOut { s.out with encPutOk := false })

/-- `ENC.START t, n` (R96). -/
def execEncStart (t : Byte) (n : BitVec 9) (s : State) : Result :=
  if s.enc.busy then
    .next (s.withOut { s.out with encOk := false })
  else if startFits s.cfg n then
    .next ((s.withEnc (s.enc.start t n)).withOut { s.out with encOk := true })
  else
    .next (s.withOut { s.out with encOk := false })

/-- `ENC.EMIT` (R97): enabled only while `enc_busy`; `tx_ready` on an idle encoder is idle (R63). -/
def execEncEmit (s : State) : Result :=
  if s.enc.busy then
    withCells .encPayload (s.enc.firstRead s.enc.idx) (s.enc.endRead s.enc.idx) s
      (.next ((s.emitTx (s.encByte s.enc.idx)).withEnc s.enc.sent))
  else
    .next s

end Sys2Proof.Machine
end

