-- ==== Sys2Proof/Machine/Registry.lean ====
section
/-! DEFINITION. The dispatch multiplexer (44_dispatch.md): DISPATCH and its two cases DISPATCH.HIT, DISPATCH.DEFAULT. -/

namespace Sys2Proof.Machine

/-- The handler `HANDLER_MAP` selects for a type, or the mandatory fallback (R67, R126, R127). -/
def selOf (c : Config) (t : Byte) : Sel :=
  match c.handler t with
  | some h => .handler h
  | none => .fallback

/-- The routing of one validated frame (R126): one event, the payload copied into it (R125). -/
def State.dispatchTo (s : State) (t : Byte) (p : List Byte) (n : Nat) : State :=
  s.emitDisp { sel := selOf s.cfg t, t := t, n := n, p := p }

/-- `DISPATCH t, p, n` (R126). -/
def execDispatch (t : Byte) (p : List Byte) (n : Nat) (s : State) : Result :=
  .next (s.dispatchTo t p n)

/-- `DISPATCH.HIT` (R67, R126): the case `HANDLER_MAP(t) == Some(h)` of `DISPATCH`; in the other case this row is not
selected. -/
def execDispatchHit (t : Byte) (p : List Byte) (s : State) : Result :=
  if (s.cfg.handler t).isSome then .next (s.dispatchTo t p p.length) else .refused .rowNotSelected

/-- `DISPATCH.DEFAULT` (R67, R127): the case `HANDLER_MAP(t) == None` of `DISPATCH`. -/
def execDispatchDefault (t : Byte) (p : List Byte) (s : State) : Result :=
  if (s.cfg.handler t).isNone then .next (s.dispatchTo t p p.length) else .refused .rowNotSelected

end Sys2Proof.Machine
end

