-- ==== Sys2Proof/Machine/Parser.lean ====
section
/-! DEFINITION. The frame parser (43_parser.md): PARSER.FEED, its ten rows, PARSER.ABORT, and a whole frame fed byte by
byte. -/

namespace Sys2Proof.Machine

/-- `frame_buffer[cursor] <- b ; cursor <- cursor + 1` (R40, R178 (b)). -/
def Parser.put (p : Parser) (b : Byte) : Parser :=
  { p with frameBuffer := p.frameBuffer.write p.cursor b, cursor := p.cursor + 1 }

/-- The effect of `FEED.H1_HIT` (R106). -/
def feedH1HitEffect (s : State) : Result := .next (s.goto .awaitHeader2)

/-- The effect of `FEED.H1_MISS` (R107): the byte is discarded. -/
def feedH1MissEffect (s : State) : Result := .next (s.goto .awaitHeader1)

/-- The effect of `FEED.H2_HIT` (R108). -/
def feedH2HitEffect (s : State) : Result :=
  .next (s.withParser { s.parser with cursor := 0, state := .readType })

/-- The effect of `FEED.H2_AB` (R109): this byte is the new candidate header 1. -/
def feedH2AbEffect (s : State) : Result := .next (s.goto .awaitHeader2)

/-- The effect of `FEED.H2_MISS` (R110). -/
def feedH2MissEffect (s : State) : Result := .next (s.goto .awaitHeader1)

/-- The effect of `FEED.TYPE` (R111). -/
def feedTypeEffect (b : Byte) (s : State) : Result :=
  withCells .frameBuffer s.parser.cursor (s.parser.cursor + 1) s
    (.next (s.withParser { s.parser.put b with type := b, state := .readLength }))

/-- The effect of `FEED.LEN_OK` (R112). -/
def feedLenOkEffect (b : Byte) (s : State) : Result :=
  withCells .frameBuffer s.parser.cursor (s.parser.cursor + 1) s
    (.next (s.withParser
      { s.parser.put b with declaredLength := b, state := if 0 < b.toNat then .readPayload else .readCrc }))

/-- The effect of `FEED.LEN_OVER` (R113): the oversize fault; nothing is stored. -/
def feedLenOverEffect (b : Byte) (s : State) : Result :=
  .next ((s.raise (.oversizeLength s.parser.type b)).goto .awaitHeader1)

/-- The effect of `FEED.PAYLOAD` (R114): the comparison uses the incremented cursor. -/
def feedPayloadEffect (b : Byte) (s : State) : Result :=
  withCells .frameBuffer s.parser.cursor (s.parser.cursor + 1) s
    (.next (s.withParser
      { s.parser.put b with
        state := if s.parser.cursor + 1 = frameEnd s.parser.declaredLength then .readCrc else .readPayload }))

/-- The effect of `FEED.CRC` (R115): dispatch on a match, silence on a mismatch, `AwaitHeader1` always. -/
def feedCrcEffect (b : Byte) (s : State) : Result :=
  withCells .frameBuffer 0 s.parser.cursor s
    (.next ((if crc8 (s.frameRange 0 s.parser.cursor) = b then
      s.dispatchTo s.parser.type (s.frameRange 2 s.parser.cursor) s.parser.declaredLength.toNat
    else s).goto .awaitHeader1))

/-- The effect of the row that classification takes. -/
def feedEffect (r : FeedRow) (b : Byte) (s : State) : Result :=
  match r with
  | .h1Hit => feedH1HitEffect s
  | .h1Miss => feedH1MissEffect s
  | .h2Hit => feedH2HitEffect s
  | .h2Ab => feedH2AbEffect s
  | .h2Miss => feedH2MissEffect s
  | .type => feedTypeEffect b s
  | .lenOk => feedLenOkEffect b s
  | .lenOver => feedLenOverEffect b s
  | .payload => feedPayloadEffect b s
  | .crc => feedCrcEffect b s

/-- The row that byte `b` takes now (R65, R66). -/
def State.rowOf (s : State) (b : Byte) : FeedRow := classify s.cfg s.parser.state b

/-- A row asked for by name: it is taken where the state and the byte select it, and nowhere else (log 8). -/
def takeRow (r : FeedRow) (b : Byte) (s : State) : Result :=
  if s.rowOf b = r then feedEffect r b s else .refused .rowNotSelected

/-- `PARSER.FEED b` (R105): the one matching row. -/
def execParserFeed (b : Byte) (s : State) : Result := feedEffect (s.rowOf b) b s

/-- `PARSER.ABORT` (R121): only `state` changes. -/
def execParserAbort (s : State) : Result := .next (s.goto .awaitHeader1)

/-- `FEED.H1_HIT` (R106). -/
def execFeedH1Hit (s : State) : Result := takeRow .h1Hit hdr1 s

/-- `FEED.H1_MISS` (R107). -/
def execFeedH1Miss (b : Byte) (s : State) : Result := takeRow .h1Miss b s

/-- `FEED.H2_HIT` (R108). -/
def execFeedH2Hit (s : State) : Result := takeRow .h2Hit hdr2 s

/-- `FEED.H2_AB` (R109). -/
def execFeedH2Ab (s : State) : Result := takeRow .h2Ab hdr1 s

/-- `FEED.H2_MISS` (R110). -/
def execFeedH2Miss (b : Byte) (s : State) : Result := takeRow .h2Miss b s

/-- `FEED.TYPE` (R111). -/
def execFeedType (b : Byte) (s : State) : Result := takeRow .type b s

/-- `FEED.LEN_OK` (R112). -/
def execFeedLenOk (b : Byte) (s : State) : Result := takeRow .lenOk b s

/-- `FEED.LEN_OVER` (R113). -/
def execFeedLenOver (b : Byte) (s : State) : Result := takeRow .lenOver b s

/-- `FEED.PAYLOAD` (R114). -/
def execFeedPayload (b : Byte) (s : State) : Result := takeRow .payload b s

/-- `FEED.CRC` (R115). -/
def execFeedCrc (b : Byte) (s : State) : Result := takeRow .crc b s

/-- `FEED s` (R72, R73): one `PARSER.FEED` per byte, in order. DESIGN CHOICE (log 9): where the bytes complete more than one
frame in one step of the model, `disp` gets every event, and the handler port, which shows one event a step (R132), shows
the last. Where bytes follow a completed frame in the same step, the port still shows its event at the end of the step,
with the payload copied into it, although those bytes may have overwritten the cells that the payload read port reads. -/
def feedAll : List Byte → State → Result
  | [], s => .next s
  | b :: l, s => andThen (execParserFeed b s) (feedAll l)

/-- `FRAME` (R56): the frame's bytes, in wire order, consumed by the parser, rules R106 to R115 (log 9). -/
def execFrame (t : Byte) (p : List Byte) (ck : Byte) (s : State) : Result := feedAll (frameBytes t p ck) s

end Sys2Proof.Machine
end

