-- ==== Sys2Proof/Machine/System.lean ====
section
/-! DEFINITION. RESET (70_reset_and_hazards.md R155). -/

namespace Sys2Proof.Machine

/-- The parser's part of the reset (R155): `frame_buffer`, `type`, `declared_length` are not written. -/
def Parser.init (p : Parser) : Parser := { p with state := .awaitHeader1, cursor := 0 }

/-- The encoder's part of the reset (R155): `enc_payload`, `enc_type`, `enc_len` are not written; from here on no cell
counts as staged since the last reset (R95, U3). -/
def Encoder.init (e : Encoder) : Encoder :=
  { e with busy := false, idx := 0, staged := Vector.replicate 256 false }

/-- `RESET` (R155): contains `BUF.INIT`; every result output is 0 on its edge (R156); the histories are kept (R157,
log 12). -/
def execReset (s : State) : Result :=
  .next (((((s.withQueue s.queue.init).withParser s.parser.init).withEnc s.enc.init).withCounters
    { ovf := 0, oversize := 0 }).withOut Outputs.idle |>.withEra (s.resetEra + 1))

end Sys2Proof.Machine
end

