-- ==== Sys2Proof/Machine/Dispatch.lean ====
section
/-! DEFINITION. The meaning of each instruction: one arm per constructor. -/

namespace Sys2Proof.Machine

def exec (i : Instr) (s : State) : Host.Outcome State Fault Refusal :=
  match i with
  | .reset => Sys2Proof.Machine.execReset s
  | .bufInit => Sys2Proof.Machine.execBufInit s
  | .bufWrite b => Sys2Proof.Machine.execBufWrite b s
  | .bufRead => Sys2Proof.Machine.execBufRead s
  | .bufEmpty => Sys2Proof.Machine.execBufEmpty s
  | .bufStatus => Sys2Proof.Machine.execBufStatus s
  | .crc8 l => Sys2Proof.Machine.execCrc8 l s
  | .encPut k b => Sys2Proof.Machine.execEncPut k b s
  | .encStart t n => Sys2Proof.Machine.execEncStart t n s
  | .encEmit => Sys2Proof.Machine.execEncEmit s
  | .parserFeed b => Sys2Proof.Machine.execParserFeed b s
  | .parserAbort => Sys2Proof.Machine.execParserAbort s
  | .dispatch t p n => Sys2Proof.Machine.execDispatch t p n s
  | .feedH1Hit => Sys2Proof.Machine.execFeedH1Hit s
  | .feedH1Miss b => Sys2Proof.Machine.execFeedH1Miss b s
  | .feedH2Hit => Sys2Proof.Machine.execFeedH2Hit s
  | .feedH2Ab => Sys2Proof.Machine.execFeedH2Ab s
  | .feedH2Miss b => Sys2Proof.Machine.execFeedH2Miss b s
  | .feedType b => Sys2Proof.Machine.execFeedType b s
  | .feedLenOk b => Sys2Proof.Machine.execFeedLenOk b s
  | .feedLenOver b => Sys2Proof.Machine.execFeedLenOver b s
  | .feedPayload b => Sys2Proof.Machine.execFeedPayload b s
  | .feedCrc b => Sys2Proof.Machine.execFeedCrc b s
  | .dispatchHit t p => Sys2Proof.Machine.execDispatchHit t p s
  | .dispatchDefault t p => Sys2Proof.Machine.execDispatchDefault t p s
  | .frame t p ck => Sys2Proof.Machine.execFrame t p ck s

end Sys2Proof.Machine
end

