-- ==== Sys2Proof/Machine/Pseudo.lean ====
section
/-! DEFINITION. The pseudo-operations of 30_encoding.md R73: expansions, with no semantics of their own. `FEED s` is
`feedAll` in Machine/Parser.lean. -/

namespace Sys2Proof.Machine

/-- The feed half of `RX.STEP` (R123): the byte the read returned, if it returned one. -/
def feedRead (s : State) : Result :=
  match s.out.rd with
  | some b => execParserFeed b s
  | none => .next s

/-- `RX.STEP` (R73, R123): one `BUF.READ`, and `PARSER.FEED` of the byte it returns, in the same step; nothing when the
queue is empty. -/
def rxStep (s : State) : Result :=
  if s.queue.isEmpty then .next s else andThen (execBufRead s) feedRead

/-- `n` times `RX.STEP`. -/
def rxSteps : Nat → State → Result
  | 0, s => .next s
  | n + 1, s => andThen (rxStep s) (rxSteps n)

/-- `DRAIN` (R73): `RX.STEP` until the queue is empty, which takes as many as bytes are queued. -/
def drain (s : State) : Result := rxSteps (s.queue.count s.cfg) s

/-- `WRITE s` (R73): one `BUF.WRITE` per byte, in order. -/
def writeAll : List Byte → State → Result
  | [], s => .next s
  | b :: l, s => andThen (execBufWrite b s) (writeAll l)

/-- `n` times `BUF.READ`, and the bytes returned, in order. -/
def readAll : Nat → State → List Byte → Result × List Byte
  | 0, s, got => (.next s, got)
  | n + 1, s, got =>
    match execBufRead s with
    | .next t => readAll n t (got ++ t.out.rd.toList)
    | .fault x => (.fault x, got)
    | .refused x => (.refused x, got)

/-- The `ENC.PUT`s of `ENCODE t, p` (R73): payload byte `k` at index `i + k`. -/
def stageAll : Nat → List Byte → State → Result
  | _, [], s => .next s
  | i, b :: l, s => andThen (execEncPut (byteOf i) b s) (stageAll (i + 1) l)

/-- `n` times `ENC.EMIT`. -/
def emitAll : Nat → State → Result
  | 0, s => .next s
  | n + 1, s => andThen (execEncEmit s) (emitAll n)

/-- `ENCODE t, p` (R73): stage, start, and if accepted emit the whole frame; for a payload longer than `MAX_PAYLOAD`
the puts are skipped and the start fails. -/
def encodeOp (t : Byte) (p : List Byte) (s : State) : Result :=
  andThen (if p.length ≤ s.cfg.maxPayload then stageAll 0 p s else .next s) fun s1 =>
    andThen (execEncStart t (BitVec.ofNat 9 (min p.length 511)) s1) fun s2 =>
      if s2.out.encOk then emitAll (p.length + 5) s2 else .next s2

end Sys2Proof.Machine
end

