-- ==== Sys2Proof/Machine/Edge.lean ====
section
/-! DEFINITION. What one input of the environment does: one request alone (20_memory.md R47), or one clock edge with every
port's word on it (R48; 70_reset_and_hazards.md R156; 43_parser.md R121, R123). -/

namespace Sys2Proof.Machine

/-- The byte an edge offers to `BUF.WRITE` (R59). -/
def edgeWrites (e : Edge) : Option Byte :=
  if e.p.getLsbD 8 then some (e.p.setWidth 8) else none

/-- `parser_abort` (R61). -/
def edgeAborts (e : Edge) : Bool := e.f.getLsbD 9

/-- Whether the edge requests `BUF.READ`: at port C in the separate block (R60); by the glue in the integrated block,
when `rx_run` is high, no abort is requested and the queue is not empty (R123). -/
def readRequested (e : Edge) (s : State) : Bool :=
  if s.cfg.integrated then e.rxRun == 1 && !edgeAborts e && !s.queue.isEmpty else e.c == 1

/-- Operations one after another. -/
def execAll : List Instr → State → Result
  | [], s => .next s
  | i :: l, s => andThen (exec i s) (execAll l)

/-- The byte queue's part of an edge: a write, a read, both (R48) or neither. -/
def queueEdge (wr : Option Byte) (rd : Bool) (s : State) : Result :=
  match wr, rd with
  | none, false => .next s
  | some b, false => execBufWrite b s
  | none, true => execBufRead s
  | some b, true => bufWriteRead b s

/-- The parser's part of an edge: an abort inhibits the feed (R121); in the integrated block the fed byte is the one the
read of this edge (`rd`) returned (R123). -/
def parserEdge (e : Edge) (rd : Bool) (s : State) : Result :=
  if edgeAborts e then execParserAbort s
  else if s.cfg.integrated then (if rd then feedRead s else .next s)
  else if e.f.getLsbD 8 then execParserFeed (e.f.setWidth 8) s
  else .next s

/-- The sender's part of an edge (R62): `11` is accepted as neither request and changes nothing (log 10). -/
def senderEdge (e : Edge) (s : State) : Result :=
  if e.e = 0b10 then execEncPut e.putIdx e.putData s
  else if e.e = 0b01 then execEncStart e.typeIn e.lenIn s
  else .next s

/-- The encoder's part of an edge: sender and sink are both judged on `enc_busy` before the edge (R48, log 7), so a
frame's last byte does not let a start in, and a start sends no byte on its own edge (R96). -/
def encoderEdge (e : Edge) (s : State) : Result :=
  if s.enc.busy && e.t == 1 then andThen (senderEdge e s) execEncEmit else senderEdge e s

/-- One clock edge: reset overrides everything (R156); otherwise the three parts, which share no state (R3). DESIGN
CHOICE (log 21): where the write and the feed of one edge both raise a fault, R144 gives no order between them, and the
record `raised` lists the write's first because the queue part runs first. Safe: the record is the model's own. -/
def runEdge (e : Edge) (s : State) : Result :=
  if e.r = 1 then execReset s
  else andThen (queueEdge (edgeWrites e) (readRequested e s) s) fun s1 =>
    andThen (parserEdge e (readRequested e s) s1) (encoderEdge e)

/-- What a request that selects no operation does: an idle port, and the reserved request of R62, change nothing; bytes
on the wire that are no frame are fed to the parser all the same (R68); a classification word without a state is
refused (U5, log 16). -/
def runRejected (w : Cmd) (x : Reject) (s : State) : Result :=
  match x with
  | .idle => .next s
  | .reservedEncRequest => .next s
  | .noParserState => .refused .noParserState
  | .frameTooShort => runWire w s
  | .frameHeader => runWire w s
  | .frameLength => runWire w s
where
  /-- The bytes of a wire request, fed one by one. -/
  runWire (w : Cmd) (s : State) : Result :=
    match w with
    | .wire bytes => feedAll bytes s
    | _ => .next s

/-- Whether a request is an input of the build. In the integrated block the glue drives `rd_en`, `feed_valid` and
`feed_data` (R60, R61, R123), so from outside nothing reads the queue and nothing feeds the parser, by a port word, a row
or the bytes of a frame; `parser_abort` stays an input. `DISPATCH` is no request in any build: `FEED.CRC` alone invokes it
(R126). -/
def isInput (c : Config) (w : Cmd) : Bool :=
  match w with
  | .r _ => true
  | .p _ => true
  | .c _ => !c.integrated
  | .f word => !c.integrated || word.getLsbD 9
  | .e _ _ _ _ _ => true
  | .t _ => true
  | .w _ => !c.integrated
  | .d _ _ => false
  | .wire _ => !c.integrated
  | .observeEmpty => true
  | .observeStatus => true
  | .applyCrc8 _ => true
  | .invokeDispatch _ _ _ => false

/-- One request alone: the operation it decodes to; a request that is no input of the build reaches nothing, as on an edge
(log 22). -/
def runCmd (w : Cmd) (s : State) : Result :=
  if isInput s.cfg w then
    match decode s.cfg w with
    | .ok i => exec i s
    | .error x => runRejected w x s
  else .next s

/-- One input of the environment. -/
def runInput (x : Input) (s : State) : Result :=
  match x with
  | .cmd w => runCmd w s
  | .edge e => runEdge e s

/-- The state a step works on: the input taken from the schedule, and the result outputs of the step before gone (they
are presented in one step only, R13). -/
def State.fetched (s : State) (rest : List Input) : State := (s.withSchedule rest).withOut Outputs.idle

/-- The parser control state that a classification word names, where it names one (R65). -/
def classWordState (w : Cmd) : Option ParserState :=
  match w with
  | .w word => ParserState.ofNumber (word.extractLsb' 8 3)
  | _ => none

/-- A parser that holds a whole frame with type `t` and payload `p` and waits for its checksum byte. -/
def Parser.beforeChecksum (q : Parser) (t : Byte) (p : List Byte) : Parser where
  state := .readCrc
  frameBuffer := ([t, byteOf p.length] ++ p).zipIdx.foldl (fun m x => m.write x.2 x.1) q.frameBuffer
  type := t
  declaredLength := byteOf p.length
  cursor := p.length + 2

/-- `s` with a request placed where the next step takes its input from (log 5). A classification word's upper bits ARE the
parser's control state, so they are placed there. A dispatch row is no request: `FEED.CRC` invokes it, so the parser is
placed before the checksum of that frame and the request is the feed of the matching checksum byte, whose step runs the
row (R115, R126). -/
def State.placeCmd (s : State) (w : Cmd) : State :=
  match w with
  | .d t p =>
    (s.withParser (s.parser.beforeChecksum t p)).withSchedule
      (.cmd (.f (0b01#2 ++ frameChecksum t p)) :: s.schedule)
  | _ =>
    let s1 := s.withSchedule (.cmd w :: s.schedule)
    match classWordState w with
    | some st => s1.goto st
    | none => s1

end Sys2Proof.Machine
end

