-- ==== Sys2Proof/Machine/Step.lean ====
section
/-! DEFINITION. One step of the machine, and the placing of a word where the step takes its input from. -/

namespace Sys2Proof.Machine

/-- One step: the next input of the schedule; with none left the block is idle, and being idle changes no state of it
(60_exceptions.md R153). -/
def step (s : State) : Host.Outcome State Fault Refusal :=
  match s.schedule with
  | [] => .next (s.fetched [])
  | x :: rest => runInput x (s.fetched rest)

/-- `s` with the instruction of a word of spec/opcode_table.json placed where `step` takes its next input (log 5); `s`
itself where the word is none of the table's. -/
def State.withFetchWord (s : State) (nbits w : Nat) : State :=
  match tableCmd nbits w with
  | some cmd => s.placeCmd cmd
  | none => s

end Sys2Proof.Machine
end

