-- ==== Sys2Proof/Machine/Ports.lean ====
section
/-! DEFINITION. The outputs of 10_state.md R34 that are driven continuously, and the handler port of 44_dispatch.md R132:
functions of State, all pure (R44). -/

namespace Sys2Proof.Machine

/-- `empty` (R80). -/
def portEmpty (s : State) : Bool := s.queue.isEmpty
/-- `full` (R81). -/
def portFull (s : State) : Bool := s.queue.full
/-- `count`, of `IDX_W + 1` bits (R81). -/
def portCount (s : State) : BitVec (idxW s.cfg + 1) := BitVec.ofNat _ (s.queue.count s.cfg)
/-- `ovf_count`, of `CNT_W` bits (R29). -/
def portOvfCount (s : State) : BitVec s.cfg.cntW := BitVec.ofNat _ s.counters.ovf
/-- `oversize_count`, of `CNT_W` bits (R29). -/
def portOversizeCount (s : State) : BitVec s.cfg.cntW := BitVec.ofNat _ s.counters.oversize
/-- `parser_state` (R21). -/
def portParserState (s : State) : BitVec 3 := s.parser.state.number
/-- `enc_busy` (R28). -/
def portEncBusy (s : State) : Bool := s.enc.busy
/-- `tx_valid` (R98). -/
def portTxValid (s : State) : Bool := s.enc.busy
/-- `tx_data` (R98): the current byte while `tx_valid`; no value otherwise (U11). -/
def portTxData (s : State) : Option Byte := if s.enc.busy then some (s.encByte s.enc.idx) else none
/-- `disp_pl_data` at `disp_pl_idx` (R132): whatever the cell holds; beyond the array a free byte (U10). DESIGN CHOICE (log
9): after a step whose bytes go on past a completed frame the event still shown may no longer have its payload here. -/
def portPayload (s : State) (i : Byte) : Byte := s.frameAt (2 + i.toNat)

/-- `disp_default` of a presented event (R132). -/
def DispEvent.isDefault (e : DispEvent) : Bool := e.sel == .fallback

/-- `disp_sel` of a presented event (R132): 0 for the fallback. -/
def DispEvent.port (e : DispEvent) : Nat :=
  match e.sel with
  | .handler h => h
  | .fallback => 0

/-- The five fault causes of the document's taxonomy (60_exceptions.md R133, R141). -/
inductive Cause where
  | bufferFull
  | oversizeLength
  | checksumMismatch
  | unknownType
  | payloadLengthMismatch
  deriving DecidableEq, Repr

/-- The code of a cause (R141, D19); no register holds it. -/
def Cause.code : Cause → Nat
  | .bufferFull => 1
  | .oversizeLength => 2
  | .checksumMismatch => 3
  | .unknownType => 4
  | .payloadLengthMismatch => 5

/-- The cause of a recorded fault (R134, R135). -/
def FaultRecord.cause : FaultRecord → Cause
  | .bufferFull _ => .bufferFull
  | .oversizeLength _ _ => .oversizeLength

/-- The condition an operation meets in a state (R134 to R137): the fault it raises, if any. F5 is raised by a handler,
outside the block (R138). -/
def causeOf (i : Instr) (s : State) : Option Cause :=
  match i with
  | .bufWrite _ => if s.queue.full then some .bufferFull else none
  | .parserFeed b =>
    match s.rowOf b with
    | .lenOver => some .oversizeLength
    | .crc =>
      if crc8 (s.frameRange 0 s.parser.cursor) = b then
        if (s.cfg.handler s.parser.type).isNone then some .unknownType else none
      else some .checksumMismatch
    | _ => none
  | _ => none

end Sys2Proof.Machine
end

