-- ==== Sys2Proof/Safety.lean ====
section
/-! DEFINITION. What holds of every reachable state: the invariants of 10_state.md R18, R26, R28, R29 and of the three
memories (20_memory.md R39 to R41), in the terms the statements use; and what an input asks of each part of the block. -/

namespace Sys2Proof.Machine

/-- A memory in canonical form that lists no cell outside its array (R38). -/
abbrev MemoryInv (c : Config) (id : MemId) (m : Memory) : Prop :=
  m.wf ∧ ∀ x ∈ m, x.1 < memSize c id

/-- Every cell below `n` has been written. -/
abbrev writtenBelow (m : Memory) (n : Nat) : Prop := ∀ k < n, (m.lookup k).isSome = true

/-- The queue (R18, R39, R85): indices in range, `full` only with equal indices, every queued cell written. -/
abbrev QueueInv (c : Config) (q : ByteQueue) : Prop :=
  q.head < c.capacity ∧ q.tail < c.capacity ∧ (q.full = true → q.head = q.tail) ∧
  MemoryInv c .storage q.storage ∧
  ∀ k < q.count c, (q.storage.lookup ((q.head + k) % c.capacity)).isSome = true

/-- The parser (R25, R26, R122): the row of R26's table for the parser's state. -/
abbrev ParserInv (c : Config) (p : Parser) : Prop :=
  MemoryInv c .frameBuffer p.frameBuffer ∧ p.cursor ≤ c.maxPayload + 2 ∧
  (p.state = .readType → p.cursor = 0) ∧
  (p.state = .readLength → p.cursor = 1 ∧ p.frameBuffer.lookup 0 = some p.type) ∧
  (p.state = .readPayload → 1 ≤ p.declaredLength.toNat ∧ p.declaredLength.toNat ≤ c.maxPayload ∧
    2 ≤ p.cursor ∧ p.cursor < p.declaredLength.toNat + 2 ∧
    p.frameBuffer.lookup 0 = some p.type ∧ p.frameBuffer.lookup 1 = some p.declaredLength ∧
    writtenBelow p.frameBuffer p.cursor) ∧
  (p.state = .readCrc → p.cursor = p.declaredLength.toNat + 2 ∧ p.declaredLength.toNat ≤ c.maxPayload ∧
    p.frameBuffer.lookup 0 = some p.type ∧ p.frameBuffer.lookup 1 = some p.declaredLength ∧
    writtenBelow p.frameBuffer p.cursor)

/-- The encoder (R28, R41, R97): the index in range, the frame in flight within `MAX_PAYLOAD`, every staged cell
written. -/
abbrev EncoderInv (c : Config) (e : Encoder) : Prop :=
  MemoryInv c .encPayload e.payload ∧ e.idx ≤ c.maxPayload + 4 ∧
  (e.busy = true → e.len.toNat ≤ c.maxPayload ∧ e.idx ≤ e.len.toNat + 4) ∧
  ∀ i < 256, e.isStaged i = true → (e.payload.lookup i).isSome = true

/-- The counters (R29): within their `CNT_W` bits. -/
abbrev CountersInv (c : Config) (k : Counters) : Prop :=
  k.ovf ≤ counterMax c ∧ k.oversize ≤ counterMax c

/-- The invariant of the block, in a build of R8. -/
abbrev BlockInv (s : State) : Prop :=
  s.cfg.wf = true ∧ QueueInv s.cfg s.queue ∧ ParserInv s.cfg s.parser ∧ EncoderInv s.cfg s.enc ∧
    CountersInv s.cfg s.counters

/-- The bytes that an input makes the parser consume (R50, R61, R123): none by an abort, a reset, or a request that is no
input of the build; in the integrated block the byte the glue reads. -/
def fedBytes (s : State) (x : Input) : List Byte :=
  match x with
  | .cmd w =>
    if isInput s.cfg w then
      match w with
      | .f word => if !word.getLsbD 9 && word.getLsbD 8 then [word.setWidth 8] else []
      | .w word => [word.setWidth 8]
      | .wire bytes => bytes
      | _ => []
    else []
  | .edge e =>
    if e.r = 1 || edgeAborts e then []
    else if s.cfg.integrated then (if readRequested e s then [s.storageAt s.queue.head] else [])
    else if e.f.getLsbD 8 then [e.f.setWidth 8]
    else []

/-- The operations an edge requests of the byte queue, in the serial order of R48: the write first on a full queue, else the
read first. -/
def queueOps (e : Edge) (s : State) : List Instr :=
  let w := (edgeWrites e).toList.map Instr.bufWrite
  let r := if readRequested e s then [Instr.bufRead] else []
  if s.queue.full then w ++ r else r ++ w

/-- The operation an edge makes the parser run: an abort inhibits the feed (R121). -/
def parserOps (e : Edge) (s : State) : List Instr :=
  if edgeAborts e then [.parserAbort] else (fedBytes s (.edge e)).map Instr.parserFeed

/-- The operations an edge requests of the encoder. At most one of the two kinds has an effect, as `enc_busy` before the edge
says (R48, log 7). -/
def encoderOps (e : Edge) (s : State) : List Instr :=
  let sender := if e.e = 0b10 then [Instr.encPut e.putIdx e.putData]
    else if e.e = 0b01 then [Instr.encStart e.typeIn e.lenIn] else []
  let sink := if e.t = 1 then [Instr.encEmit] else []
  if s.enc.busy then sender ++ sink else sink ++ sender

/-- The families of operations, in the document's order (40_buffer.md to 44_dispatch.md), and the reset. -/
inductive Family where
  | system
  | queue
  | checksum
  | encoder
  | parser
  | registry
  deriving DecidableEq, Repr

/-- The family of an operation. -/
def family : Instr → Family
  | .reset => .system
  | .bufInit => .queue
  | .bufWrite _ => .queue
  | .bufRead => .queue
  | .bufEmpty => .queue
  | .bufStatus => .queue
  | .crc8 _ => .checksum
  | .encPut _ _ => .encoder
  | .encStart _ _ => .encoder
  | .encEmit => .encoder
  | .parserFeed _ => .parser
  | .parserAbort => .parser
  | .dispatch _ _ _ => .registry
  | .feedH1Hit => .parser
  | .feedH1Miss _ => .parser
  | .feedH2Hit => .parser
  | .feedH2Ab => .parser
  | .feedH2Miss _ => .parser
  | .feedType _ => .parser
  | .feedLenOk _ => .parser
  | .feedLenOver _ => .parser
  | .feedPayload _ => .parser
  | .feedCrc _ => .parser
  | .dispatchHit _ _ => .registry
  | .dispatchDefault _ _ => .registry
  | .frame _ _ _ => .parser

end Sys2Proof.Machine
end

