-- ==== Sys2Proof/Certificates/Slice0/Obligations.lean ====
section
/-! DEFINITION. The statements about the block, from the numbered rules of spec/. A statement is about every state, and so
about every build (the parameters are in State). Where it needs a premise, the premise is on the state and operands
alone. -/

open Sys2Proof Sys2Proof.Machine

/-! ### Reset -/

/-- R155: the reset's writes, what it does not write, and what the outputs show after it. That the histories `DISP`, `TX`
and `raised` are kept is the model's choice (log 12), and so is which free draw an unstaged cell of `enc_payload` then
gives (log 4). -/
def Obligations.ResetWritesAndLeavesAlone : Prop :=
  ∀ s : State, ∃ t, exec .reset s = .next t ∧
    (t.queue.head = 0 ∧ t.queue.tail = 0 ∧ t.queue.full = false) ∧
    (t.parser.state = .awaitHeader1 ∧ t.parser.cursor = 0) ∧
    (t.enc.busy = false ∧ t.enc.idx = 0) ∧
    (t.counters.ovf = 0 ∧ t.counters.oversize = 0) ∧
    (∀ i, t.storageAt i = s.storageAt i ∧ t.frameAt i = s.frameAt i ∧ t.payloadAt i = s.payloadAt i) ∧
    (t.parser.type = s.parser.type ∧ t.parser.declaredLength = s.parser.declaredLength ∧
      t.enc.type = s.enc.type ∧ t.enc.len = s.enc.len) ∧
    (portEmpty t = true ∧ t.queue.count t.cfg = 0 ∧ portFull t = false ∧ portParserState t = 0 ∧
      portEncBusy t = false ∧ portTxValid t = false) ∧
    t.cfg = s.cfg ∧ t.disp = s.disp ∧ t.tx = s.tx ∧ t.raised = s.raised ∧ t.schedule = s.schedule

/-- R156: whatever the other ports carry, an edge with `rst` is the reset and nothing else. That `DISP`, `TX` and `raised` are
kept through it is the model's choice (log 12), which R157 leaves open. -/
def Obligations.ResetOverridesEveryPort : Prop :=
  ∀ (s : State) (e : Edge) (rest : List Input), s.schedule = .edge e :: rest → e.r = 1 →
    ∃ t, step s = .next t ∧ exec .reset (s.fetched rest) = .next t ∧
      t.disp = s.disp ∧ t.tx = s.tx ∧ t.raised = s.raised ∧ t.counters.ovf = 0 ∧ t.counters.oversize = 0 ∧
      t.out.wrOk = false ∧ t.out.rd = none ∧ t.out.encOk = false ∧ t.out.encPutOk = false ∧
      t.out.disp = none ∧ t.out.txByte = none ∧ t.out.oversizeEvt = false

/-- R36: in every build the state after reset has the values the table gives (`type`, `declared_length`, `enc_type`,
`enc_len`, which the table leaves unspecified, are not mentioned), and the streams are empty. That no memory lists a cell
is the model's choice for the contents the table calls unspecified (log 3). -/
def Obligations.ResetStateHasTheTableValues : Prop :=
  ∀ c : Config, let s := State.resetOf c
    s.queue.head = 0 ∧ s.queue.tail = 0 ∧ s.queue.full = false ∧ s.parser.state = .awaitHeader1 ∧
    s.parser.cursor = 0 ∧ s.enc.busy = false ∧ s.enc.idx = 0 ∧ s.counters.ovf = 0 ∧ s.counters.oversize = 0 ∧
    s.disp = [] ∧ s.tx = [] ∧ s.cfg = c ∧
    ∀ i, s.queue.storage.lookup i = none ∧ s.parser.frameBuffer.lookup i = none ∧ s.enc.payload.lookup i = none

/-- The invariant holds after reset, in every build of R8. -/
def Obligations.ResetStateMeetsInvariant : Prop :=
  ∀ c : Config, c.wf = true → BlockInv (State.resetOf c)

/-! ### The byte queue -/

/-- R76: `BUF.INIT`; `storage` is not written, nothing outside the queue changes. -/
def Obligations.BufInitEmptiesTheQueue : Prop :=
  ∀ s : State, ∃ t, exec .bufInit s = .next t ∧
    t.queue.head = 0 ∧ t.queue.tail = 0 ∧ t.queue.full = false ∧
    (∀ i, t.storageAt i = s.storageAt i) ∧ t.queue.isEmpty = true ∧ t.queue.count t.cfg = 0 ∧
    t.cfg = s.cfg ∧ t.parser = s.parser ∧ t.enc = s.enc ∧ t.counters = s.counters ∧
    t.disp = s.disp ∧ t.tx = s.tx ∧ t.raised = s.raised ∧ t.resetEra = s.resetEra ∧
    t.schedule = s.schedule ∧ t.out = s.out

/-- R78: `BUF.WRITE b` on a queue that is not full: stores at `tail`, advances it, sets `full` exactly when it meets
`head`, returns true; every other cell and everything else is unchanged. -/
def Obligations.BufWriteAppends : Prop :=
  ∀ (s : State) (b : Byte), s.queue.full = false → s.queue.tail < s.cfg.capacity → s.queue.storage.wf →
    ∃ t, exec (.bufWrite b) s = .next t ∧ t.out.wrOk = true ∧
      t.storageAt s.queue.tail = b ∧ (∀ i, i ≠ s.queue.tail → t.storageAt i = s.storageAt i) ∧
      t.queue.tail = (s.queue.tail + 1) % s.cfg.capacity ∧ t.queue.head = s.queue.head ∧
      t.queue.full = decide (t.queue.tail = s.queue.head) ∧
      t.cfg = s.cfg ∧ t.parser = s.parser ∧ t.enc = s.enc ∧ t.counters = s.counters ∧
      t.disp = s.disp ∧ t.tx = s.tx ∧ t.raised = s.raised ∧ t.resetEra = s.resetEra ∧
      t.schedule = s.schedule ∧ t.out = { s.out with wrOk := true }

/-- R78, R134 (F1): `BUF.WRITE b` on a full queue: false, the byte dropped, the queue untouched, the counter up by one
unless at its maximum; the step completes, so nothing halts (R86). -/
def Obligations.BufWriteOnFullQueueIsCounted : Prop :=
  ∀ (s : State) (b : Byte), s.queue.full = true →
    ∃ t, exec (.bufWrite b) s = .next t ∧ t.out.wrOk = false ∧ t.queue = s.queue ∧
      t.counters.ovf = (if s.counters.ovf = 2 ^ s.cfg.cntW - 1 then s.counters.ovf else s.counters.ovf + 1) ∧
      t.counters.oversize = s.counters.oversize ∧ t.raised = s.raised ++ [.bufferFull b] ∧
      t.cfg = s.cfg ∧ t.parser = s.parser ∧ t.enc = s.enc ∧ t.disp = s.disp ∧ t.tx = s.tx ∧
      t.resetEra = s.resetEra ∧ t.schedule = s.schedule ∧ t.out = { s.out with wrOk := false }

/-- R79: `BUF.READ`, the word `1` of format C: the empty queue returns nothing and changes nothing; otherwise the byte at
`head`, which advances, and `full` is cleared; `storage` is not written. -/
def Obligations.BufReadTakesTheOldest : Prop :=
  ∀ s : State, decode s.cfg (.c 1) = .ok .bufRead ∧
    ((s.queue.full = false ∧ s.queue.head = s.queue.tail) →
      exec .bufRead s = .next (s.withOut { s.out with rd := none })) ∧
    (¬ (s.queue.full = false ∧ s.queue.head = s.queue.tail) → s.queue.head < s.cfg.capacity →
      ∃ t, exec .bufRead s = .next t ∧ t.out.rd = some (s.storageAt s.queue.head) ∧
        t.queue.head = (s.queue.head + 1) % s.cfg.capacity ∧ t.queue.full = false ∧
        t.queue.tail = s.queue.tail ∧ (∀ i, t.storageAt i = s.storageAt i) ∧
        t.cfg = s.cfg ∧ t.parser = s.parser ∧ t.enc = s.enc ∧ t.counters = s.counters ∧
        t.disp = s.disp ∧ t.tx = s.tx ∧ t.raised = s.raised ∧ t.resetEra = s.resetEra ∧
        t.schedule = s.schedule ∧ t.out = { s.out with rd := some (s.storageAt s.queue.head) })

/-- R80, R81: `BUF.EMPTY` and `BUF.STATUS` answer from `head`, `tail`, `full` and change no state. -/
def Obligations.StatusReadsArePure : Prop :=
  ∀ s : State,
    exec .bufEmpty s =
      .next (s.withOut { s.out with isEmpty := some (!s.queue.full && decide (s.queue.head = s.queue.tail)) }) ∧
    exec .bufStatus s =
      .next (s.withOut { s.out with status := some (s.queue.full,
        if s.queue.full then s.cfg.capacity
        else (s.queue.tail + s.cfg.capacity - s.queue.head) % s.cfg.capacity) })

/-- R18, R81: in a state of the invariant the count is the number of queued bytes, at most `CAPACITY`, and fits the
`IDX_W + 1` bits of the output; the queue is empty exactly when it is 0. -/
def Obligations.CountIsTheNumberOfQueuedBytes : Prop :=
  ∀ s : State, BlockInv s →
    (s.queue.queued s.cfg).length = s.queue.count s.cfg ∧ s.queue.count s.cfg ≤ s.cfg.capacity ∧
    (portCount s).toNat = s.queue.count s.cfg ∧
    (s.queue.isEmpty = true ↔ s.queue.count s.cfg = 0) ∧
    (s.queue.full = true ↔ s.queue.count s.cfg = s.cfg.capacity)

/-- R82: the FIFO law. The index implementation refines a list of at most `CAPACITY` bytes; and so bytes written within
the capacity are read back in write order. -/
def Obligations.QueueRefinesAList : Prop :=
  ∀ s : State, QueueInv s.cfg s.queue →
    (∃ t, exec .bufInit s = .next t ∧ t.queue.queued t.cfg = []) ∧
    (∀ b : Byte, ∃ t, exec (.bufWrite b) s = .next t ∧ QueueInv t.cfg t.queue ∧
      (if (s.queue.queued s.cfg).length < s.cfg.capacity then
        t.out.wrOk = true ∧ t.queue.queued t.cfg = s.queue.queued s.cfg ++ [b]
      else t.out.wrOk = false ∧ t.queue.queued t.cfg = s.queue.queued s.cfg)) ∧
    (∃ t, exec .bufRead s = .next t ∧ QueueInv t.cfg t.queue ∧
      (match s.queue.queued s.cfg with
        | [] => t.out.rd = none ∧ t.queue.queued t.cfg = []
        | b :: l => t.out.rd = some b ∧ t.queue.queued t.cfg = l)) ∧
    ∀ l : List Byte, (s.queue.queued s.cfg).length + l.length ≤ s.cfg.capacity →
      ∃ t u, writeAll l s = .next t ∧
        readAll ((s.queue.queued s.cfg).length + l.length) t [] = (.next u, s.queue.queued s.cfg ++ l) ∧
        u.queue.queued u.cfg = []

/-- R83: the full-capacity law: from an initialised queue `CAPACITY` writes all succeed, the last and no earlier one sets
`full`, and the next is refused and leaves the queue as it is. -/
def Obligations.ExactlyCapacityWritesSucceed : Prop :=
  ∀ (s s0 : State) (l : List Byte) (b : Byte),
    1 ≤ s.cfg.capacity → s.queue.storage.wf → exec .bufInit s = .next s0 → l.length = s.cfg.capacity →
    ∃ t, writeAll l s0 = .next t ∧ t.counters = s.counters ∧ t.out.wrOk = true ∧ t.queue.full = true ∧
      t.queue.head = t.queue.tail ∧ t.queue.queued t.cfg = l ∧
      (∀ l' : List Byte, l' <+: l → l' ≠ l → ∃ u, writeAll l' s0 = .next u ∧ u.queue.full = false ∧
        (l' ≠ [] → u.out.wrOk = true)) ∧
      ∃ u, exec (.bufWrite b) t = .next u ∧ u.out.wrOk = false ∧ u.queue = t.queue

/-- R84: after `CAPACITY` writes and as many reads the queue reports empty and the bytes read are those written, in order;
the indices are equal then, as they were when it was full. -/
def Obligations.FullAndEmptyHaveEqualIndices : Prop :=
  ∀ (s s0 : State) (l : List Byte),
    1 ≤ s.cfg.capacity → s.queue.storage.wf → exec .bufInit s = .next s0 → l.length = s.cfg.capacity →
    ∃ t u, writeAll l s0 = .next t ∧ t.queue.head = t.queue.tail ∧ t.queue.isEmpty = false ∧ t.queue.full = true ∧
      readAll l.length t [] = (.next u, l) ∧
      u.queue.head = u.queue.tail ∧ u.queue.isEmpty = true ∧ u.queue.full = false

/-- R48: a write and a read on one edge (`bufWriteRead`) equal a serial order: read then write on an empty queue, write
then read on a full one, either otherwise. -/
def Obligations.SameEdgeWriteAndReadIsSerial : Prop :=
  ∀ (s : State) (b : Byte), QueueInv s.cfg s.queue →
    let readThenWrite := andThen (exec .bufRead s) (exec (.bufWrite b))
    let writeThenRead := andThen (exec (.bufWrite b) s) (exec .bufRead)
    (s.cfg.integrated = false → runEdge { Edge.idle with p := 1#1 ++ b, c := 1 } s = bufWriteRead b s) ∧
    (s.queue.count s.cfg < s.cfg.capacity → bufWriteRead b s = readThenWrite) ∧
    (0 < s.queue.count s.cfg → bufWriteRead b s = writeThenRead) ∧
    ∃ t, bufWriteRead b s = .next t ∧ t.out.wrOk = !s.queue.full ∧
      t.out.rd = (if s.queue.isEmpty then none else some (s.storageAt s.queue.head)) ∧
      t.queue.full = (if !s.queue.full && !s.queue.isEmpty then false
        else if !s.queue.full then decide ((s.queue.tail + 1) % s.cfg.capacity = s.queue.head)
        else if !s.queue.isEmpty then false else s.queue.full)

/-! ### The checksum -/

/-- R87: `CRC8 s` presents the checksum and changes nothing else; an all-zero sequence gives 0, leading zero bytes change
nothing, and the bytes of "123456789" give 0xA1. -/
def Obligations.Crc8PresentsTheChecksum : Prop :=
  (∀ (s : State) (l : List Byte), exec (.crc8 l) s = .next (s.withOut { s.out with crc := some (crc8 l) })) ∧
  (∀ (n : Nat) (l : List Byte), crc8 (List.replicate n 0) = 0 ∧ crc8 (List.replicate n 0 ++ l) = crc8 l) ∧
  crc8 [0x31, 0x32, 0x33, 0x34, 0x35, 0x36, 0x37, 0x38, 0x39] = 0xA1

/-- R88: the incremental form, and the running register. -/
def Obligations.Crc8IsIncremental : Prop :=
  crc8 [] = 0x00 ∧ (∀ (s : List Byte) (b : Byte), crc8 (s ++ [b]) = crc8Step (crc8 s) b) ∧
  ∀ s : List Byte, s.foldl crc8Step 0x00 = crc8 s

/-- R89: the unreflected form, with the polynomial as the document writes it, is the same function. -/
def Obligations.Crc8EqualsUnreflectedForm : Prop :=
  ∀ s : List Byte, crc8 s = crc8Unreflected s

/-- R90: the printed table computes a step. -/
def Obligations.CrcStepIsTableLookup : Prop :=
  crcTable.length = 256 ∧ ∀ c b : Byte, crcTable[(c ^^^ b).toNat]? = some (crc8Step c b)

/-- R92 (a) to (e): linearity, bijectivity of a step, detection of every single-bit error (in a sequence, and in the
checksum byte alone), zero residue, and the checksum of an empty-payload frame by the table. -/
def Obligations.Crc8Algebra : Prop :=
  (∀ c1 c2 b1 b2 : Byte, crc8Step (c1 ^^^ c2) (b1 ^^^ b2) = crc8Step c1 b1 ^^^ crc8Step c2 b2) ∧
  (∀ s e : List Byte, s.length = e.length → crc8 (List.zipWith (· ^^^ ·) s e) = crc8 s ^^^ crc8 e) ∧
  (∀ b : Byte, Function.Bijective fun c => crc8Step c b) ∧
  (∀ c : Byte, Function.Bijective fun b => crc8Step c b) ∧
  (∀ m n k : Nat, k < 8 → crc8 (List.replicate m 0 ++ [(1 : Byte) <<< k] ++ List.replicate n 0) ≠ 0) ∧
  (∀ (s : List Byte) (j k : Nat), j < s.length → k < 8 →
    crc8 (s.modify j (· ^^^ (1 : Byte) <<< k)) ≠ crc8 s ∧ crc8 s ^^^ (1 : Byte) <<< k ≠ crc8 s) ∧
  (∀ s : List Byte, crc8 (s ++ [crc8 s]) = 0) ∧
  (∀ t u : Byte, crcTable[t.toNat]? = some u → crcTable[u.toNat]? = some (crc8 [t, 0]))

/-! ### The encoder -/

/-- R94: the function `encode`: no result for a payload longer than `MAX_PAYLOAD`, else header, type, length, payload and
the checksum of type, length and payload: `len(p) + 5` bytes, with the length in one byte. -/
def Obligations.EncodeBuildsTheFrame : Prop :=
  ∀ (m : Nat) (t : Byte) (p : List Byte), m ≤ 255 →
    (m < p.length → encodeFrame m t p = none) ∧
    (p.length ≤ m → ∃ L : Byte, L.toNat = p.length ∧
      encodeFrame m t p = some ([0xAB, 0xCD, t, L] ++ p ++ [crc8 ([t, L] ++ p)]) ∧
      ([0xAB, 0xCD, t, L] ++ p ++ [crc8 ([t, L] ++ p)]).length = p.length + 5)

/-- R95: `ENC.PUT i, b`: staged while idle and below `MAX_PAYLOAD`, else refused with no state change. -/
def Obligations.EncPutStagesOrRefuses : Prop :=
  ∀ (s : State) (i b : Byte),
    ((s.enc.busy = false ∧ i.toNat < s.cfg.maxPayload) → s.enc.payload.wf →
      ∃ t, exec (.encPut i b) s = .next t ∧ t.out = { s.out with encPutOk := true } ∧
        t.payloadAt i.toNat = b ∧ t.stagedAt i.toNat = b ∧
        (∀ j, j ≠ i.toNat → t.payloadAt j = s.payloadAt j ∧ t.stagedAt j = s.stagedAt j) ∧
        t.enc.busy = s.enc.busy ∧ t.enc.type = s.enc.type ∧ t.enc.len = s.enc.len ∧ t.enc.idx = s.enc.idx ∧
        t.cfg = s.cfg ∧ t.queue = s.queue ∧ t.parser = s.parser ∧ t.counters = s.counters ∧
        t.disp = s.disp ∧ t.tx = s.tx ∧ t.raised = s.raised ∧ t.resetEra = s.resetEra ∧
        t.schedule = s.schedule) ∧
    (¬ (s.enc.busy = false ∧ i.toNat < s.cfg.maxPayload) →
      exec (.encPut i b) s = .next (s.withOut { s.out with encPutOk := false }))

/-- R96: `ENC.START t, n`: refused while busy or when the 9-bit `n` exceeds `MAX_PAYLOAD`, with no state change; else the
frame is latched and no byte is sent in this step. -/
def Obligations.EncStartLatchesOrRefuses : Prop :=
  ∀ (s : State) (t : Byte) (n : BitVec 9),
    (s.enc.busy = true → exec (.encStart t n) s = .next (s.withOut { s.out with encOk := false })) ∧
    (s.cfg.maxPayload < n.toNat →
      exec (.encStart t n) s = .next (s.withOut { s.out with encOk := false })) ∧
    (s.enc.busy = false → n.toNat ≤ s.cfg.maxPayload →
      ∃ u, exec (.encStart t n) s = .next u ∧ u.out = { s.out with encOk := true } ∧
        u.enc.type = t ∧ u.enc.len = n.extractLsb' 0 8 ∧ u.enc.idx = 0 ∧ u.enc.busy = true ∧
        (∀ j, u.payloadAt j = s.payloadAt j ∧ u.stagedAt j = s.stagedAt j) ∧ u.tx = s.tx ∧
        u.cfg = s.cfg ∧ u.queue = s.queue ∧ u.parser = s.parser ∧ u.counters = s.counters ∧
        u.disp = s.disp ∧ u.raised = s.raised ∧ u.resetEra = s.resetEra ∧ u.schedule = s.schedule)

/-- R97: `ENC.EMIT` while busy, for an index and a length within the invariant: the byte the rule gives goes to `TX`, the
last one clears `enc_busy`, any other advances `enc_idx`; nothing else changes. A byte never staged since the last
reset is whatever the free draw of log 4 is. -/
def Obligations.EncEmitSendsTheNextByte : Prop :=
  ∀ s : State, s.enc.busy = true → s.enc.len.toNat ≤ s.cfg.maxPayload →
    ∃ t b, exec .encEmit s = .next t ∧ t.tx = s.tx ++ [b] ∧ t.out = { s.out with txByte := some b } ∧
      (s.enc.idx = 0 → b = 0xAB) ∧ (s.enc.idx = 1 → b = 0xCD) ∧ (s.enc.idx = 2 → b = s.enc.type) ∧
      (s.enc.idx = 3 → b = s.enc.len) ∧
      (4 ≤ s.enc.idx → s.enc.idx < 4 + s.enc.len.toNat → b = s.stagedAt (s.enc.idx - 4)) ∧
      (s.enc.idx = 4 + s.enc.len.toNat →
        b = crc8 ([s.enc.type, s.enc.len] ++ s.stagedRange s.enc.len.toNat)) ∧
      t.enc.busy = decide (s.enc.idx ≠ 4 + s.enc.len.toNat) ∧
      t.enc.idx = (if s.enc.idx = 4 + s.enc.len.toNat then s.enc.idx else s.enc.idx + 1) ∧
      t.enc.type = s.enc.type ∧ t.enc.len = s.enc.len ∧
      (∀ j, t.payloadAt j = s.payloadAt j ∧ t.stagedAt j = s.stagedAt j) ∧
      t.cfg = s.cfg ∧ t.queue = s.queue ∧ t.parser = s.parser ∧ t.counters = s.counters ∧
      t.disp = s.disp ∧ t.raised = s.raised ∧ t.resetEra = s.resetEra ∧ t.schedule = s.schedule

/-- R63, R98: the sink handshake. A ready sink takes the byte on `tx_data` exactly when `tx_valid`, which is `enc_busy`;
on an idle encoder, whatever its registers hold, it takes nothing and nothing changes. -/
def Obligations.SinkTakesTxDataWhenValid : Prop :=
  ∀ s : State, portTxValid s = s.enc.busy ∧
    (portTxValid s = false → exec .encEmit s = .next s) ∧
    (portTxValid s = true → s.enc.len.toNat ≤ s.cfg.maxPayload → ∃ t b, exec .encEmit s = .next t ∧ portTxData s = some b ∧ t.tx = s.tx ++ [b])

/-- R99: an accepted `ENC.START t, n` and `n + 5` `ENC.EMIT`s append exactly `encode(t, p)` to `TX` for the staged `p`, the
last clears `enc_busy`, and before it the encoder is busy. For a byte of `p` that was never staged since the last reset
this rests on the free draw of log 4, the same in every read of the cell. -/
def Obligations.StartedFrameIsEmittedWhole : Prop :=
  ∀ (s : State) (t : Byte) (n : BitVec 9), s.enc.busy = false → n.toNat ≤ s.cfg.maxPayload →
    s.cfg.maxPayload ≤ 255 →
    ∃ s1 s2 f, exec (.encStart t n) s = .next s1 ∧ s1.out.encOk = true ∧
      encodeFrame s.cfg.maxPayload t (s.stagedRange n.toNat) = some f ∧
      emitAll (n.toNat + 5) s1 = .next s2 ∧ s2.tx = s.tx ++ f ∧ s2.enc.busy = false ∧
      ∀ k < n.toNat + 5, ∃ u, emitAll k s1 = .next u ∧ u.enc.busy = true ∧ u.tx = s.tx ++ f.take k

/-- R73, R99: the pseudo-operation `ENCODE t, p` on an idle encoder appends `encode(t, p)` to `TX`, or nothing when the
payload is too long. -/
def Obligations.EncodeDeliversTheFunction : Prop :=
  ∀ (s : State) (t : Byte) (p : List Byte), s.enc.busy = false → s.cfg.maxPayload ≤ 255 → s.enc.payload.wf →
    ∃ u, encodeOp t p s = .next u ∧ u.enc.busy = false ∧
      u.tx = s.tx ++ (encodeFrame s.cfg.maxPayload t p).getD []

/-- R41, R102: while a frame is in flight no operation but `ENC.EMIT` and reset changes anything of the encoder or of `TX`,
`ENC.PUT` and `ENC.START` are refused, and `ENC.EMIT` changes only `enc_busy` and `enc_idx`. -/
def Obligations.FrameInFlightCannotBeChanged : Prop :=
  ∀ (s t : State) (i : Instr), s.enc.busy = true → exec i s = .next t → i ≠ .reset →
    t.enc.type = s.enc.type ∧ t.enc.len = s.enc.len ∧ t.enc.payload = s.enc.payload ∧ t.enc.staged = s.enc.staged ∧
    (i ≠ .encEmit → t.enc = s.enc ∧ t.tx = s.tx) ∧
    (∀ k b, i = .encPut k b → t.out.encPutOk = false) ∧ (∀ y n, i = .encStart y n → t.out.encOk = false)

/-! ### The parser -/

/-- R106, R107: the two rows of AwaitHeader1, their words and their effects. -/
def Obligations.RowsOfAwaitHeader1 : Prop :=
  ∀ s : State, s.parser.state = .awaitHeader1 →
    decode s.cfg (.w 0b00010101011) = .ok .feedH1Hit ∧
    exec .feedH1Hit s = .next (s.withParser { s.parser with state := .awaitHeader2 }) ∧
    ∀ b : Byte, b ≠ 0xAB → decode s.cfg (.w (0b000#3 ++ b)) = .ok (.feedH1Miss b) ∧
      exec (.feedH1Miss b) s = .next s

/-- R108, R109, R110: the three rows of AwaitHeader2, their words and their effects. -/
def Obligations.RowsOfAwaitHeader2 : Prop :=
  ∀ s : State, s.parser.state = .awaitHeader2 →
    decode s.cfg (.w 0b00111001101) = .ok .feedH2Hit ∧
    exec .feedH2Hit s = .next (s.withParser { s.parser with cursor := 0, state := .readType }) ∧
    decode s.cfg (.w 0b00110101011) = .ok .feedH2Ab ∧
    exec .feedH2Ab s = .next s ∧
    ∀ b : Byte, b ≠ 0xCD → b ≠ 0xAB → decode s.cfg (.w (0b001#3 ++ b)) = .ok (.feedH2Miss b) ∧
      exec (.feedH2Miss b) s = .next (s.withParser { s.parser with state := .awaitHeader1 })

/-- What the rows that store one byte leave unchanged. -/
abbrev StoreRowFrame (s t : State) (b : Byte) : Prop :=
  t.frameAt s.parser.cursor = b ∧ (∀ i, i ≠ s.parser.cursor → t.frameAt i = s.frameAt i) ∧
  t.parser.cursor = s.parser.cursor + 1 ∧
  t.cfg = s.cfg ∧ t.queue = s.queue ∧ t.enc = s.enc ∧ t.counters = s.counters ∧ t.disp = s.disp ∧ t.tx = s.tx ∧
  t.raised = s.raised ∧ t.out = s.out ∧ t.resetEra = s.resetEra ∧ t.schedule = s.schedule

/-- R111: `FEED.TYPE`, its word and its effect, for every byte. -/
def Obligations.TypeRowStoresTheType : Prop :=
  ∀ (s : State) (b : Byte), s.parser.state = .readType → s.parser.cursor < s.cfg.maxPayload + 2 →
    s.parser.frameBuffer.wf →
    decode s.cfg (.w (0b010#3 ++ b)) = .ok (.feedType b) ∧
    ∃ t, exec (.feedType b) s = .next t ∧ t.parser.type = b ∧ t.parser.state = .readLength ∧
      t.parser.declaredLength = s.parser.declaredLength ∧ StoreRowFrame s t b

/-- R112: `FEED.LEN_OK`, its word and its effect, for every byte up to `MAX_PAYLOAD`. -/
def Obligations.LengthRowStoresTheLength : Prop :=
  ∀ (s : State) (b : Byte), s.parser.state = .readLength → b.toNat ≤ s.cfg.maxPayload →
    s.parser.cursor < s.cfg.maxPayload + 2 → s.parser.frameBuffer.wf →
    decode s.cfg (.w (0b011#3 ++ b)) = .ok (.feedLenOk b) ∧
    ∃ t, exec (.feedLenOk b) s = .next t ∧ t.parser.declaredLength = b ∧
      t.parser.state = (if b.toNat > 0 then .readPayload else .readCrc) ∧
      t.parser.type = s.parser.type ∧ StoreRowFrame s t b

/-- R113, R135 (F2): `FEED.LEN_OVER`: its word; the fault is counted and shown, the parser restarts, nothing is stored;
the row needs a `MAX_PAYLOAD` below 255; and no other operation raises F2. -/
def Obligations.OversizeLengthAbandonsTheFrame : Prop :=
  (∀ (s : State) (b : Byte), s.parser.state = .readLength → s.cfg.maxPayload < b.toNat →
    s.cfg.maxPayload < 255 ∧ decode s.cfg (.w (0b011#3 ++ b)) = .ok (.feedLenOver b) ∧
    ∃ t, exec (.feedLenOver b) s = .next t ∧ t.parser.state = .awaitHeader1 ∧
      t.counters.oversize =
        (if s.counters.oversize = 2 ^ s.cfg.cntW - 1 then s.counters.oversize else s.counters.oversize + 1) ∧
      t.counters.ovf = s.counters.ovf ∧ t.raised = s.raised ++ [.oversizeLength s.parser.type b] ∧
      t.out = { s.out with oversizeEvt := true } ∧
      t.parser.declaredLength = s.parser.declaredLength ∧ t.parser.cursor = s.parser.cursor ∧
      t.parser.type = s.parser.type ∧ (∀ i, t.frameAt i = s.frameAt i) ∧
      t.cfg = s.cfg ∧ t.queue = s.queue ∧ t.enc = s.enc ∧ t.disp = s.disp ∧ t.tx = s.tx ∧
      t.resetEra = s.resetEra ∧ t.schedule = s.schedule) ∧
  ∀ (s t : State) (i : Instr) (y b : Byte), exec i s = .next t → (∀ y p ck, i ≠ .frame y p ck) →
    t.raised = s.raised ++ [.oversizeLength y b] →
    (i = .parserFeed b ∨ i = .feedLenOver b) ∧ s.parser.state = .readLength ∧ s.cfg.maxPayload < b.toNat ∧
      y = s.parser.type

/-- R114: `FEED.PAYLOAD`, for every byte; the comparison is made on numbers wide enough for 257. -/
def Obligations.PayloadRowStoresTheByte : Prop :=
  ∀ (s : State) (b : Byte), s.parser.state = .readPayload → s.parser.cursor < s.cfg.maxPayload + 2 →
    s.parser.frameBuffer.wf →
    decode s.cfg (.w (0b100#3 ++ b)) = .ok (.feedPayload b) ∧
    ∃ t, exec (.feedPayload b) s = .next t ∧
      t.parser.state =
        (if s.parser.cursor + 1 = s.parser.declaredLength.toNat + 2 then .readCrc else .readPayload) ∧
      t.parser.type = s.parser.type ∧ t.parser.declaredLength = s.parser.declaredLength ∧ StoreRowFrame s t b

/-- R115, R136 (F3): `FEED.CRC`: its word; on a match one event with the frame's type, payload and length, to the handler
of the type or to the fallback; on a mismatch nothing; `AwaitHeader1` in both cases; nothing else changes. -/
def Obligations.CrcRowDispatchesOnAMatch : Prop :=
  ∀ (s : State) (b : Byte), s.parser.state = .readCrc → s.parser.cursor ≤ s.cfg.maxPayload + 2 →
    decode s.cfg (.w (0b101#3 ++ b)) = .ok (.feedCrc b) ∧
    ∃ t, exec (.feedCrc b) s = .next t ∧ t.parser = { s.parser with state := .awaitHeader1 } ∧
      (if crc8 (s.frameRange 0 s.parser.cursor) = b then
        ∃ e : DispEvent, t.disp = s.disp ++ [e] ∧ t.out = { s.out with disp := some e } ∧
          e.t = s.parser.type ∧ e.n = s.parser.declaredLength.toNat ∧
          e.p = s.frameRange 2 s.parser.cursor ∧
          (∀ h, s.cfg.handler s.parser.type = some h → e.sel = .handler h) ∧
          (s.cfg.handler s.parser.type = none → e.sel = .fallback)
      else t.disp = s.disp ∧ t.out = s.out) ∧
      t.cfg = s.cfg ∧ t.queue = s.queue ∧ t.enc = s.enc ∧ t.counters = s.counters ∧ t.tx = s.tx ∧
      t.raised = s.raised ∧ t.resetEra = s.resetEra ∧ t.schedule = s.schedule

/-- R121: `PARSER.ABORT` changes `state` and nothing else, from every state; its word is `1` in bit 9, whatever byte is
offered beside it. -/
def Obligations.AbortForcesAwaitHeader1 : Prop :=
  ∀ s : State, (∀ b : BitVec 9, decode s.cfg (.f (1#1 ++ b)) = .ok .parserAbort) ∧
    exec .parserAbort s = .next (s.withParser { s.parser with state := .awaitHeader1 })

/-- R66, R105: a fed byte takes exactly one row, the one that state and byte select: `PARSER.FEED b` is that row, it
completes in every state of the invariant and touches nothing outside the parser's path, and a row that is not selected
is refused (the refusal is the model's, log 8). -/
def Obligations.FeedTakesExactlyOneRow : Prop :=
  ∀ (s : State) (b : Byte), ∃ r : FeedRow,
    exec (.parserFeed b) s = exec (r.instr b) s ∧
    (BlockInv s → ∃ t, exec (.parserFeed b) s = .next t ∧ exec (r.instr b) s = .next t ∧
      t.cfg = s.cfg ∧ t.queue = s.queue ∧ t.enc = s.enc ∧ t.tx = s.tx ∧ t.counters.ovf = s.counters.ovf ∧
      t.resetEra = s.resetEra ∧ t.schedule = s.schedule) ∧
    (∀ r' : FeedRow, r' ≠ r →
      ((r' = .h1Hit → b = hdr1) ∧ (r' = .h2Hit → b = hdr2) ∧ (r' = .h2Ab → b = hdr1)) →
      exec (r'.instr b) s = .refused .rowNotSelected)

/-- R177 (a): the parser's control state moves only along the edges of the graph: by a fed byte as listed, to
AwaitHeader1 by an abort or a reset, and by no other single operation. -/
def Obligations.ParserMovesAlongTheGraph : Prop :=
  (∀ (s t : State) (b : Byte), exec (.parserFeed b) s = .next t →
    t.parser.state =
      (match s.parser.state with
        | .awaitHeader1 => if b = 0xAB then .awaitHeader2 else .awaitHeader1
        | .awaitHeader2 => if b = 0xCD then .readType else if b = 0xAB then .awaitHeader2 else .awaitHeader1
        | .readType => .readLength
        | .readLength =>
          if s.cfg.maxPayload < b.toNat then .awaitHeader1 else if b = 0 then .readCrc else .readPayload
        | .readPayload =>
          if s.parser.cursor + 1 = s.parser.declaredLength.toNat + 2 then .readCrc else .readPayload
        | .readCrc => .awaitHeader1)) ∧
  (∀ (s t : State) (i : Instr), exec i s = .next t → family i ≠ .parser → i ≠ .reset → t.parser = s.parser) ∧
  (∀ (s t : State), exec .parserAbort s = .next t ∨ exec .reset s = .next t → t.parser.state = .awaitHeader1)

/-- R120 (a): the resync law, for every type byte, from any state with the parser in AwaitHeader1. -/
def Obligations.DoubledHeaderByteResynchronises : Prop :=
  ∀ (s : State) (T : Byte), s.parser.state = .awaitHeader1 → s.parser.frameBuffer.wf →
    ∃ t, feedAll [0xAB, 0xAB, 0xCD, T, 0x00, crc8 [T, 0x00]] s = .next t ∧
      t.disp = s.disp ++ [{ sel := selOf s.cfg T, t := T, n := 0, p := [] }] ∧
      t.parser.state = .awaitHeader1 ∧ t.raised = s.raised ∧ t.counters = s.counters

/-- R120 (b): bytes in which no 0xAB is directly followed by 0xCD emit nothing, raise nothing and store nothing. -/
def Obligations.BytesWithoutAHeaderAreDiscarded : Prop :=
  ∀ (s : State) (l : List Byte), s.parser.state = .awaitHeader1 →
    (∀ a z : List Byte, l ≠ a ++ [0xAB, 0xCD] ++ z) →
    ∃ t, feedAll l s = .next t ∧ (t = s ∨ t = s.goto .awaitHeader2)

/-- What a whole frame with type `t` and payload `p`, fed to a parser in AwaitHeader1, stores in the parser, and what it
leaves unchanged: every cell of `frame_buffer` beyond the payload, and everything outside the parser. -/
abbrev FrameFedFrame (s u : State) (t : Byte) (p : List Byte) : Prop :=
  u.parser.type = t ∧ u.parser.declaredLength.toNat = p.length ∧ u.parser.cursor = p.length + 2 ∧
  u.frameRange 0 (p.length + 2) = [t, byteOf p.length] ++ p ∧
  (∀ i, p.length + 2 ≤ i → u.frameAt i = s.frameAt i) ∧
  u.cfg = s.cfg ∧ u.queue = s.queue ∧ u.enc = s.enc ∧ u.counters = s.counters ∧ u.tx = s.tx ∧
  u.raised = s.raised ∧ u.resetEra = s.resetEra ∧ u.schedule = s.schedule

/-- R103: the round trip. Feeding `encode(t, p)` to a fresh parser emits exactly one event, with type `t` and payload `p`,
none before the last byte, and leaves the parser fresh. It is stated of the bytes fed one by one, and also of `FRAME`,
which is the model's one step for the feeding of a whole frame (log 9). -/
def Obligations.EncodedFrameIsDispatchedOnce : Prop :=
  ∀ (s : State) (t : Byte) (p f : List Byte), s.parser.state = .awaitHeader1 → s.parser.frameBuffer.wf →
    s.cfg.maxPayload ≤ 255 → encodeFrame s.cfg.maxPayload t p = some f →
    f = frameBytes t p (frameChecksum t p) ∧
    (∃ u, exec (.frame t p (frameChecksum t p)) s = .next u ∧ feedAll f s = .next u ∧
      u.disp = s.disp ++ [{ sel := selOf s.cfg t, t := t, n := p.length, p := p }] ∧
      u.out = { s.out with disp := some { sel := selOf s.cfg t, t := t, n := p.length, p := p } } ∧
      u.parser.state = .awaitHeader1 ∧ FrameFedFrame s u t p) ∧
    ∀ k < f.length, ∃ u, feedAll (f.take k) s = .next u ∧ u.disp = s.disp

/-- R136 (F3), R131: a frame whose checksum byte does not match, of any type and any payload up to `MAX_PAYLOAD`: the
parser consumes it, dispatches nothing, raises nothing, counts nothing, and is in AwaitHeader1. Stated of `FRAME`, the
model's one step for the feeding of a whole frame (log 9). -/
def Obligations.FrameWithWrongChecksumIsSilent : Prop :=
  ∀ (s : State) (t : Byte) (p : List Byte) (ck : Byte), s.parser.state = .awaitHeader1 →
    s.parser.frameBuffer.wf → s.cfg.maxPayload ≤ 255 → p.length ≤ s.cfg.maxPayload → ck ≠ frameChecksum t p →
    ∃ u, exec (.frame t p ck) s = .next u ∧ u.disp = s.disp ∧ u.raised = s.raised ∧ u.counters = s.counters ∧
      u.out = s.out ∧ u.parser.state = .awaitHeader1 ∧ FrameFedFrame s u t p

/-- R120 (c): the corruption law, for what the rules give: one flipped bit in the type byte, in a payload byte or in the
checksum byte of a valid frame, and the parser dispatches nothing for it. Stated of `FRAME`, the model's one step for the
feeding of a whole frame (log 9). -/
def Obligations.FlippedBitIsNotDispatched : Prop :=
  ∀ (s : State) (t : Byte) (p : List Byte) (k : Nat), k < 8 → s.parser.state = .awaitHeader1 →
    s.parser.frameBuffer.wf → s.cfg.maxPayload ≤ 255 → p.length ≤ s.cfg.maxPayload →
    let ck := frameChecksum t p
    let flip : Byte → Byte := fun b => b ^^^ (1 : Byte) <<< k
    (∃ u, exec (.frame (flip t) p ck) s = .next u ∧ u.disp = s.disp ∧ u.parser.state = .awaitHeader1) ∧
    (∃ u, exec (.frame t p (flip ck)) s = .next u ∧ u.disp = s.disp ∧ u.parser.state = .awaitHeader1) ∧
    (∀ j < p.length, ∃ u, exec (.frame t (p.modify j flip) ck) s = .next u ∧ u.disp = s.disp ∧
      u.parser.state = .awaitHeader1)

/-- R161 (H-3): from a fresh parser the cell of payload byte `i` keeps its value through any `4 + i` fed bytes; no operation
outside the parser changes `frame_buffer`, nor does `PARSER.ABORT`. -/
def Obligations.PayloadCellLifetime : Prop :=
  (∀ (s t : State) (l : List Byte) (i : Nat), s.parser.state = .awaitHeader1 → s.parser.frameBuffer.wf →
    l.length ≤ 4 + i → feedAll l s = .next t → t.frameAt (2 + i) = s.frameAt (2 + i)) ∧
  (∀ (s t : State) (i : Instr), exec i s = .next t → family i ≠ .parser ∨ i = .parserAbort →
    ∀ j, t.frameAt j = s.frameAt j)

/-! ### Dispatch -/

/-- R126, R127, R132: `DISPATCH` and its two cases emit one event and change nothing else; the handler port shows it. That
the case not selected is refused is the model's choice (log 8). -/
def Obligations.DispatchEmitsOneEvent : Prop :=
  ∀ (s : State) (t : Byte) (p : List Byte) (n : Nat),
    let ev (sel : Sel) (n : Nat) : DispEvent := { sel := sel, t := t, n := n, p := p }
    (∀ h, s.cfg.handler t = some h →
      exec (.dispatch t p n) s = .next (s.emitDisp (ev (.handler h) n)) ∧
      exec (.dispatchHit t p) s = .next (s.emitDisp (ev (.handler h) p.length)) ∧
      exec (.dispatchDefault t p) s = .refused .rowNotSelected ∧
      (ev (.handler h) n).isDefault = false ∧ (ev (.handler h) n).port = h) ∧
    (s.cfg.handler t = none →
      exec (.dispatch t p n) s = .next (s.emitDisp (ev .fallback n)) ∧
      exec (.dispatchDefault t p) s = .next (s.emitDisp (ev .fallback p.length)) ∧
      exec (.dispatchHit t p) s = .refused .rowNotSelected ∧
      (ev .fallback n).isDefault = true ∧ (ev .fallback n).port = 0)

/-- R125, R126, R131: a fed byte emits at most one event, only in ReadCrc with a matching checksum, and in a state of the
invariant the event's length is that of its payload, at most `MAX_PAYLOAD`, made of written cells only. And every step's
events are those of the bytes it feeds to the parser: no request asks for `DISPATCH` (R126, log 18). A whole frame or any
other sequence of bytes given in one request is fed in one step (log 9). That a step which takes a reset keeps `DISP` is the
model's choice (log 12), which R157 leaves open. -/
def Obligations.EventsComeOnlyFromValidFrames : Prop :=
  (∀ (s t : State) (b : Byte), BlockInv s → exec (.parserFeed b) s = .next t →
    t.disp = s.disp ∨
    ∃ e : DispEvent, t.disp = s.disp ++ [e] ∧ s.parser.state = .readCrc ∧
      crc8 ([e.t, byteOf e.n] ++ e.p) = b ∧ e.n = e.p.length ∧ e.n ≤ s.cfg.maxPayload ∧
      e.sel = selOf s.cfg e.t ∧ e.t = s.parser.type ∧
      (∀ h, e.sel = .handler h → h < s.cfg.nHandlers) ∧
      ∀ i < e.n, s.parser.frameBuffer.lookup (2 + i) = e.p[i]?) ∧
  (∀ (s t : State) (x : Input) (rest : List Input), BlockInv s → s.schedule = x :: rest → step s = .next t →
    ∃ u, feedAll (fedBytes s x) s = .next u ∧ t.disp = u.disp) ∧
  ∀ s t : State, s.schedule = [] → step s = .next t → t.disp = s.disp

/-! ### The whole machine -/

/-- R39 to R41, R85, R122: every step keeps the invariant. -/
def Obligations.StepKeepsTheInvariant : Prop :=
  ∀ s t : State, BlockInv s → step s = .next t → BlockInv t

/-- R140, R171: the block never ends. From a state of the invariant every step but one that takes a lone classification
word answers a next state: no fault of the taxonomy stops it and no index is out of bounds. -/
def Obligations.StepNeverStops : Prop :=
  ∀ s : State, BlockInv s → (∀ w rest, s.schedule ≠ .cmd (.w w) :: rest) → ∃ t, step s = .next t

/-- R8, R157: no operation and no step changes the build. -/
def Obligations.BuildNeverChanges : Prop :=
  (∀ (s t : State) (i : Instr), exec i s = .next t → t.cfg = s.cfg) ∧
  ∀ s t : State, step s = .next t → t.cfg = s.cfg

/-- R3: the inbound and the outbound path share no state: what one writes the other does not, and what one does does not
depend on the other's. -/
def Obligations.PathsShareNoState : Prop :=
  (∀ (s t : State) (i : Instr) (e : Encoder) (l : List Byte),
    family i = .queue ∨ family i = .parser ∨ family i = .registry → exec i s = .next t →
    t.enc = s.enc ∧ t.tx = s.tx ∧
    exec i ({ s with tx := l }.withEnc e) = .next ({ t with tx := l }.withEnc e)) ∧
  (∀ (s t : State) (i : Instr) (q : ByteQueue) (p : Parser) (d : List DispEvent), family i = .encoder →
    exec i s = .next t →
    t.queue = s.queue ∧ t.parser = s.parser ∧ t.disp = s.disp ∧ t.counters = s.counters ∧ t.raised = s.raised ∧
    exec i (({ s with disp := d }.withQueue q).withParser p) =
      .next (({ t with disp := d }.withQueue q).withParser p))

/-- R29, R144: every single operation but reset leaves each fault counter as it is or increments it with saturation; it
raises at most one fault, the one its cause names, and only then does a counter move. -/
def Obligations.OneOperationRaisesAtMostOneFault : Prop :=
  ∀ (s t : State) (i : Instr), exec i s = .next t → i ≠ .reset → (∀ y p ck, i ≠ .frame y p ck) →
    (t.raised = s.raised ∧ t.counters = s.counters) ∨
    (∃ b, i = .bufWrite b ∧ causeOf i s = some .bufferFull ∧ t.raised = s.raised ++ [.bufferFull b] ∧
      t.counters = { s.counters with ovf := satInc s.cfg s.counters.ovf }) ∨
    (∃ b, (i = .parserFeed b ∨ i = .feedLenOver b) ∧ causeOf (.parserFeed b) s = some .oversizeLength ∧
      t.raised = s.raised ++ [.oversizeLength s.parser.type b] ∧
      t.counters = { s.counters with oversize := satInc s.cfg s.counters.oversize })

/-- R29: a counter saturates and never wraps to 0. -/
def Obligations.CountersSaturate : Prop :=
  ∀ (c : Config) (n : Nat), 1 ≤ c.cntW → n ≤ 2 ^ c.cntW - 1 →
    satInc c n ≤ 2 ^ c.cntW - 1 ∧ n ≤ satInc c n ∧ satInc c n ≠ 0 ∧
    (n = 2 ^ c.cntW - 1 → satInc c n = n) ∧ (n < 2 ^ c.cntW - 1 → satInc c n = n + 1)

/-! ### Steps and encodings -/

/-- A step runs the decoded instruction: on a request that is an input of the build and decodes to `i` it is `exec i` on the
state with the request taken and the outputs of the step before gone. In the separate block every request but those for
`DISPATCH`, which is invoked inside (R126), is an input; in the integrated one the reset, the write, the abort, the encoder's
and the sink's are. That the requests for `BUF.EMPTY`, `BUF.STATUS` and `CRC8` (log 18), a classification word (log 8) and
bytes on the wire (log 9) are inputs of the separate block is the model's choice. With nothing scheduled the block is idle (R153). That requests are taken from a schedule, and that
an empty one is an idle step, is the model's choice (log 5); so is that outputs are recorded for one step (log 13). -/
def Obligations.StepRunsTheDecodedInstruction : Prop :=
  (∀ (s : State) (w : Cmd) (rest : List Input) (i : Instr), s.schedule = .cmd w :: rest →
    isInput s.cfg w = true → decode s.cfg w = .ok i → step s = exec i (s.fetched rest)) ∧
  (∀ (c : Config) (w : Cmd), c.integrated = false → (∀ t p, w ≠ .d t p) → (∀ t p n, w ≠ .invokeDispatch t p n) →
    isInput c w = true) ∧
  (∀ (c : Config) (x : BitVec 1) (b : BitVec 9) (y : BitVec 2) (i d t : Byte) (n : BitVec 9),
    isInput c (.r x) = true ∧ isInput c (.p b) = true ∧ isInput c (.f (1#1 ++ b)) = true ∧
    isInput c (.e y i d t n) = true ∧ isInput c (.t x) = true) ∧
  ∀ s : State, s.schedule = [] → step s = .next (s.fetched [])

/-- R59 to R64, R62: an idle word on any port, and the reserved `{enc_put, enc_start} == 11`, change no state and present
no result; no overflow is counted. -/
def Obligations.IdleAndReservedWordsChangeNothing : Prop :=
  ∀ (s : State) (rest : List Input),
    (∀ w : Cmd, s.schedule = .cmd w :: rest →
      (w = .r 0 ∨ (∃ b : Byte, w = .p (0#1 ++ b)) ∨ w = .c 0 ∨ (∃ b : Byte, w = .f (0#2 ++ b)) ∨
        (∃ x i b y n, w = .e x i b y n ∧ (x = 0b00 ∨ x = 0b11)) ∨ w = .t 0) →
      step s = .next (s.fetched rest)) ∧
    (∀ e : Edge, s.schedule = .edge e :: rest →
      e.r = 0 → e.p.getLsbD 8 = false → e.c = 0 → e.f.getLsbD 9 = false → e.f.getLsbD 8 = false →
      (e.e = 0b00 ∨ e.e = 0b11) → e.t = 0 → e.rxRun = 0 → step s = .next (s.fetched rest))

/-- R47, R59 to R63: in the separate block an edge on which one port alone carries a request does what the operation alone
does. -/
def Obligations.EdgeWithOneRequestIsTheOperation : Prop :=
  ∀ s : State, s.cfg.integrated = false →
    (∀ b : Byte, runEdge { Edge.idle with p := 1#1 ++ b } s = exec (.bufWrite b) s) ∧
    runEdge { Edge.idle with c := 1 } s = exec .bufRead s ∧
    (∀ b : Byte, runEdge { Edge.idle with f := 0b01#2 ++ b } s = exec (.parserFeed b) s) ∧
    (∀ b : BitVec 9, runEdge { Edge.idle with f := 1#1 ++ b } s = exec .parserAbort s) ∧
    (∀ i b : Byte, runEdge { Edge.idle with e := 0b10, putIdx := i, putData := b } s = exec (.encPut i b) s) ∧
    (∀ (y : Byte) (n : BitVec 9),
      runEdge { Edge.idle with e := 0b01, typeIn := y, lenIn := n } s = exec (.encStart y n) s) ∧
    runEdge { Edge.idle with t := 1 } s = exec .encEmit s

/-- R123, R121, R60, R61: in the integrated block `rx_run` alone is `RX.STEP`, which on a queue that is not empty is `BUF.READ`
and `PARSER.FEED` of the byte it returned; with an abort on the same edge the queue is not read; with a write on the same
edge it is the two one after the other, the write first on a full queue (R48). Nothing else reads the queue or feeds the
parser: a read or a feed asked for from outside, and `rd_en`, `feed_valid` on an edge, reach nothing (that such a request is
a step without effect is log 22). -/
def Obligations.IntegratedBlockReadsAndFeeds : Prop :=
  ∀ s : State, s.cfg.integrated = true →
    runEdge { Edge.idle with rxRun := 1 } s = rxStep s ∧
    (s.queue.isEmpty = true → rxStep s = .next s) ∧
    (s.queue.isEmpty = false → s.queue.head < s.cfg.capacity →
      ∃ u, exec .bufRead s = .next u ∧ rxStep s = exec (.parserFeed (s.storageAt s.queue.head)) u) ∧
    (∀ b : BitVec 9, runEdge { Edge.idle with rxRun := 1, f := 1#1 ++ b } s = exec .parserAbort s) ∧
    (∀ b : Byte, BlockInv s → runEdge { Edge.idle with rxRun := 1, p := 1#1 ++ b } s =
      if s.queue.full then andThen (exec (.bufWrite b) s) rxStep else andThen (rxStep s) (exec (.bufWrite b))) ∧
    (∀ (rest : List Input) (w : Cmd), s.schedule = .cmd w :: rest →
      ((∃ x, w = .c x) ∨ (∃ b : BitVec 9, w = .f (0#1 ++ b)) ∨ (∃ x, w = .w x) ∨ ∃ l, w = .wire l) →
      step s = .next (s.fetched rest)) ∧
    ∀ b : BitVec 9, runEdge { Edge.idle with c := 1, f := 0#1 ++ b } s = .next s

/-- R50, R123, R73: `DRAIN` gives the parser the queued bytes, oldest first, each once, and empties the queue: what it does
to the parser, the events and the faults is what feeding those bytes does. -/
def Obligations.DrainFeedsTheQueuedBytesInOrder : Prop :=
  ∀ s : State, BlockInv s →
    ∃ t u, drain s = .next t ∧ feedAll (s.queue.queued s.cfg) s = .next u ∧ t.queue.queued t.cfg = [] ∧
      t.parser = u.parser ∧ t.disp = u.disp ∧ t.counters = u.counters ∧ t.raised = u.raised ∧
      t.cfg = s.cfg ∧ t.enc = s.enc ∧ t.tx = s.tx ∧ t.queue.tail = s.queue.tail ∧
      ∀ i, t.storageAt i = s.storageAt i

/-- Decode and encode agree: every well-formed operation of any build, with every operand, is read back from its own
request; the word of `BUF.INIT` selects the reset that contains it (log 15). -/
def Obligations.DecodeReadsBackEncode : Prop :=
  ∀ (c : Config) (i : Instr), i.wellFormed c = true → decode c (encode i) = .ok i.selected

/-- R65, R66: the classification is total and its rows exclude each other: the eleven-bit word of each of the six state
numbers with each byte decodes to the row of the table. That 6 and 7 decode to none is log 16, from R66 and U5. -/
def Obligations.ClassificationWordsDecode : Prop :=
  ∀ (c : Config) (n : BitVec 3) (b : Byte),
    decode c (.w (n ++ b)) =
      (if n = 0 then .ok (if b = 0xAB then .feedH1Hit else .feedH1Miss b)
      else if n = 1 then
        .ok (if b = 0xCD then .feedH2Hit else if b = 0xAB then .feedH2Ab else .feedH2Miss b)
      else if n = 2 then .ok (.feedType b)
      else if n = 3 then .ok (if b.toNat ≤ c.maxPayload then .feedLenOk b else .feedLenOver b)
      else if n = 4 then .ok (.feedPayload b)
      else if n = 5 then .ok (.feedCrc b)
      else .error .noParserState)

/-- Words written out from R56, R59, R61, R62 and R65 decode to the operations they stand for (a sanity statement). -/
def Obligations.WordsFromTheTablesDecode : Prop :=
  decode Config.sample (.p 0b101111110) = .ok (.bufWrite 0x7E) ∧
  decode Config.sample (.f 0b0110101011) = .ok (.parserFeed 0xAB) ∧
  decode Config.sample (.f 0b1000000000) = .ok .parserAbort ∧
  decode Config.sample (.e 0b01 0 0 0x10 3) = .ok (.encStart 0x10 3) ∧
  decode Config.sample (.w 0b00010101011) = .ok .feedH1Hit ∧
  decode Config.sample (.w 0b10000000011) = .ok (.feedPayload 0x03) ∧
  decode Config.sample (.wire [0xAB, 0xCD, 0x10, 0x03, 0x01, 0x02, 0x03, 0x2C]) =
    .ok (.frame 0x10 [0x01, 0x02, 0x03] 0x2C)

/-- What two states share when they differ at most in the order of the raised faults. -/
abbrev SameButFaultOrder (t u : State) : Prop :=
  u = { t with raised := u.raised } ∧ u.raised.Perm t.raised

/-- R47, R48, R144: an edge without a reset equals the operations its ports request, one after the other: those of the byte
queue in the serial order of R48, the parser's, and the encoder's in the order `enc_busy` gives (log 7), in either build. The
three parts may be taken in any order; only the order in which two faults enter the model's record `raised` then differs,
which R144 does not decide and the model does (log 21). -/
def Obligations.EdgeEqualsItsOperationsInAnyOrder : Prop :=
  ∀ (s : State) (e : Edge), BlockInv s → e.r = 0 →
    ∃ t, runEdge e s = .next t ∧
      execAll (queueOps e s ++ parserOps e s ++ encoderOps e s) s = .next t ∧
      ∀ parts : List (List Instr), parts.Perm [queueOps e s, parserOps e s, encoderOps e s] →
        ∃ u, execAll parts.flatten s = .next u ∧ SameButFaultOrder t u
end

