-- ==== Sys2Proof/Laws/Memory.lean ====
section
/-! SUPPORT. The byte memories: read after write, every other cell untouched, the canonical form kept. -/

namespace Sys2Proof.Machine

theorem Memory.lookup_write (m : Memory) (i j : Nat) (v : Byte) (h : m.wf) :
    (m.write i v).lookup j = if i = j then some v else m.lookup j := by
  induction m with
  | nil => simp [Memory.write, Memory.lookup]
  | cons x m ih =>
    obtain ⟨a, w⟩ := x
    have hm : Memory.wf m := (List.pairwise_cons.mp h).2
    simp only [Memory.write]
    split
    · simp [Memory.lookup]
    · split
      · subst_vars
        simp only [Memory.lookup]
        split <;> rfl
      · simp only [Memory.lookup, ih hm]
        split <;> split <;> first | rfl | omega

/-- Read after write, the same cell. -/
@[simp] theorem Memory.lookup_write_same (m : Memory) (i : Nat) (v : Byte) (h : m.wf) :
    (m.write i v).lookup i = some v := by
  simp [Memory.lookup_write m i i v h]

/-- A write leaves every other cell alone. -/
theorem Memory.lookup_write_other (m : Memory) {i j : Nat} (v : Byte) (h : m.wf) (hne : i ≠ j) :
    (m.write i v).lookup j = m.lookup j := by
  simp [Memory.lookup_write m i j v h, hne]

/-- Every entry of a written memory is the written cell or an old entry. -/
theorem Memory.mem_write {m : Memory} {i : Nat} {v : Byte} {x : Host.Cell} (hx : x ∈ m.write i v) :
    x = (i, v) ∨ x ∈ m := by
  induction m with
  | nil => simpa [Memory.write] using hx
  | cons y m ih =>
    obtain ⟨a, w⟩ := y
    simp only [Memory.write] at hx
    split at hx
    · simpa using hx
    · split at hx
      · rcases List.mem_cons.mp hx with h | h
        · exact .inl h
        · exact .inr (List.mem_cons_of_mem _ h)
      · rcases List.mem_cons.mp hx with h | h
        · exact .inr (by simp [h])
        · exact (ih h).imp id (List.mem_cons_of_mem _)

/-- A write keeps the canonical form. -/
theorem Memory.wf_write {m : Memory} (h : m.wf) (i : Nat) (v : Byte) : (m.write i v).wf := by
  induction m with
  | nil => simp [Memory.write, Memory.wf]
  | cons y m ih =>
    obtain ⟨a, w⟩ := y
    have hp := List.pairwise_cons.mp h
    simp only [Memory.write]
    split
    · rename_i hlt
      refine List.pairwise_cons.mpr ⟨fun x hx => ?_, h⟩
      rcases List.mem_cons.mp hx with rfl | hx
      · exact hlt
      · exact Nat.lt_trans hlt (hp.1 x hx)
    · split
      · subst_vars
        exact List.pairwise_cons.mpr ⟨hp.1, hp.2⟩
      · refine List.pairwise_cons.mpr ⟨fun x hx => ?_, ih hp.2⟩
        rcases Memory.mem_write hx with rfl | hx
        · show a < i
          omega
        · exact hp.1 x hx

/-- A write of a cell below `n` keeps every listed cell below `n`. -/
theorem Memory.below_write {m : Memory} {n i : Nat} (h : ∀ x ∈ m, x.1 < n) (hi : i < n) (v : Byte) :
    ∀ x ∈ m.write i v, x.1 < n := by
  intro x hx
  rcases Memory.mem_write hx with rfl | hx
  · exact hi
  · exact h x hx

/-- Reading a cell after a write. -/
theorem heldByte_write (id : MemId) {m : Memory} (h : m.wf) (i j : Nat) (v : Byte) :
    heldByte id (m.write i v) j = if i = j then v else heldByte id m j := by
  unfold heldByte
  rw [Memory.lookup_write m i j v h]
  split <;> rfl

/-- A written cell holds what is listed, never the free value. -/
theorem heldByte_of_lookup {id : MemId} {m : Memory} {i : Nat} {v : Byte} (h : m.lookup i = some v) :
    heldByte id m i = v := by
  simp [heldByte, h]

/-- What a cell holds depends only on what is listed for it. -/
theorem heldByte_congr {id : MemId} {m m' : Memory} {i : Nat} (h : m.lookup i = m'.lookup i) :
    heldByte id m i = heldByte id m' i := by
  simp only [heldByte, h]

end Sys2Proof.Machine
end

