-- ==== Sys2Proof/Laws/State.lean ====
section
/-! SUPPORT. What each update of the state leaves in each field: one lemma per field per update, true by rfl. -/

namespace Sys2Proof.Machine

variable (s : State)

@[simp] theorem State.withQueue_cfg (q : ByteQueue) : (s.withQueue q).cfg = s.cfg := rfl
@[simp] theorem State.withQueue_queue (q : ByteQueue) : (s.withQueue q).queue = q := rfl
@[simp] theorem State.withQueue_parser (q : ByteQueue) : (s.withQueue q).parser = s.parser := rfl
@[simp] theorem State.withQueue_enc (q : ByteQueue) : (s.withQueue q).enc = s.enc := rfl
@[simp] theorem State.withQueue_counters (q : ByteQueue) : (s.withQueue q).counters = s.counters := rfl
@[simp] theorem State.withQueue_disp (q : ByteQueue) : (s.withQueue q).disp = s.disp := rfl
@[simp] theorem State.withQueue_tx (q : ByteQueue) : (s.withQueue q).tx = s.tx := rfl
@[simp] theorem State.withQueue_raised (q : ByteQueue) : (s.withQueue q).raised = s.raised := rfl
@[simp] theorem State.withQueue_out (q : ByteQueue) : (s.withQueue q).out = s.out := rfl
@[simp] theorem State.withQueue_resetEra (q : ByteQueue) : (s.withQueue q).resetEra = s.resetEra := rfl
@[simp] theorem State.withQueue_schedule (q : ByteQueue) : (s.withQueue q).schedule = s.schedule := rfl

@[simp] theorem State.withParser_cfg (p : Parser) : (s.withParser p).cfg = s.cfg := rfl
@[simp] theorem State.withParser_queue (p : Parser) : (s.withParser p).queue = s.queue := rfl
@[simp] theorem State.withParser_parser (p : Parser) : (s.withParser p).parser = p := rfl
@[simp] theorem State.withParser_enc (p : Parser) : (s.withParser p).enc = s.enc := rfl
@[simp] theorem State.withParser_counters (p : Parser) : (s.withParser p).counters = s.counters := rfl
@[simp] theorem State.withParser_disp (p : Parser) : (s.withParser p).disp = s.disp := rfl
@[simp] theorem State.withParser_tx (p : Parser) : (s.withParser p).tx = s.tx := rfl
@[simp] theorem State.withParser_raised (p : Parser) : (s.withParser p).raised = s.raised := rfl
@[simp] theorem State.withParser_out (p : Parser) : (s.withParser p).out = s.out := rfl
@[simp] theorem State.withParser_resetEra (p : Parser) : (s.withParser p).resetEra = s.resetEra := rfl
@[simp] theorem State.withParser_schedule (p : Parser) : (s.withParser p).schedule = s.schedule := rfl

@[simp] theorem State.withEnc_cfg (e : Encoder) : (s.withEnc e).cfg = s.cfg := rfl
@[simp] theorem State.withEnc_queue (e : Encoder) : (s.withEnc e).queue = s.queue := rfl
@[simp] theorem State.withEnc_parser (e : Encoder) : (s.withEnc e).parser = s.parser := rfl
@[simp] theorem State.withEnc_enc (e : Encoder) : (s.withEnc e).enc = e := rfl
@[simp] theorem State.withEnc_counters (e : Encoder) : (s.withEnc e).counters = s.counters := rfl
@[simp] theorem State.withEnc_disp (e : Encoder) : (s.withEnc e).disp = s.disp := rfl
@[simp] theorem State.withEnc_tx (e : Encoder) : (s.withEnc e).tx = s.tx := rfl
@[simp] theorem State.withEnc_raised (e : Encoder) : (s.withEnc e).raised = s.raised := rfl
@[simp] theorem State.withEnc_out (e : Encoder) : (s.withEnc e).out = s.out := rfl
@[simp] theorem State.withEnc_resetEra (e : Encoder) : (s.withEnc e).resetEra = s.resetEra := rfl
@[simp] theorem State.withEnc_schedule (e : Encoder) : (s.withEnc e).schedule = s.schedule := rfl

@[simp] theorem State.withCounters_cfg (k : Counters) : (s.withCounters k).cfg = s.cfg := rfl
@[simp] theorem State.withCounters_queue (k : Counters) : (s.withCounters k).queue = s.queue := rfl
@[simp] theorem State.withCounters_parser (k : Counters) : (s.withCounters k).parser = s.parser := rfl
@[simp] theorem State.withCounters_enc (k : Counters) : (s.withCounters k).enc = s.enc := rfl
@[simp] theorem State.withCounters_counters (k : Counters) : (s.withCounters k).counters = k := rfl
@[simp] theorem State.withCounters_disp (k : Counters) : (s.withCounters k).disp = s.disp := rfl
@[simp] theorem State.withCounters_tx (k : Counters) : (s.withCounters k).tx = s.tx := rfl
@[simp] theorem State.withCounters_raised (k : Counters) : (s.withCounters k).raised = s.raised := rfl
@[simp] theorem State.withCounters_out (k : Counters) : (s.withCounters k).out = s.out := rfl
@[simp] theorem State.withCounters_resetEra (k : Counters) : (s.withCounters k).resetEra = s.resetEra := rfl
@[simp] theorem State.withCounters_schedule (k : Counters) : (s.withCounters k).schedule = s.schedule := rfl

@[simp] theorem State.withOut_cfg (o : Outputs) : (s.withOut o).cfg = s.cfg := rfl
@[simp] theorem State.withOut_queue (o : Outputs) : (s.withOut o).queue = s.queue := rfl
@[simp] theorem State.withOut_parser (o : Outputs) : (s.withOut o).parser = s.parser := rfl
@[simp] theorem State.withOut_enc (o : Outputs) : (s.withOut o).enc = s.enc := rfl
@[simp] theorem State.withOut_counters (o : Outputs) : (s.withOut o).counters = s.counters := rfl
@[simp] theorem State.withOut_disp (o : Outputs) : (s.withOut o).disp = s.disp := rfl
@[simp] theorem State.withOut_tx (o : Outputs) : (s.withOut o).tx = s.tx := rfl
@[simp] theorem State.withOut_raised (o : Outputs) : (s.withOut o).raised = s.raised := rfl
@[simp] theorem State.withOut_out (o : Outputs) : (s.withOut o).out = o := rfl
@[simp] theorem State.withOut_resetEra (o : Outputs) : (s.withOut o).resetEra = s.resetEra := rfl
@[simp] theorem State.withOut_schedule (o : Outputs) : (s.withOut o).schedule = s.schedule := rfl

@[simp] theorem State.withEra_cfg (n : Nat) : (s.withEra n).cfg = s.cfg := rfl
@[simp] theorem State.withEra_queue (n : Nat) : (s.withEra n).queue = s.queue := rfl
@[simp] theorem State.withEra_parser (n : Nat) : (s.withEra n).parser = s.parser := rfl
@[simp] theorem State.withEra_enc (n : Nat) : (s.withEra n).enc = s.enc := rfl
@[simp] theorem State.withEra_counters (n : Nat) : (s.withEra n).counters = s.counters := rfl
@[simp] theorem State.withEra_disp (n : Nat) : (s.withEra n).disp = s.disp := rfl
@[simp] theorem State.withEra_tx (n : Nat) : (s.withEra n).tx = s.tx := rfl
@[simp] theorem State.withEra_raised (n : Nat) : (s.withEra n).raised = s.raised := rfl
@[simp] theorem State.withEra_out (n : Nat) : (s.withEra n).out = s.out := rfl
@[simp] theorem State.withEra_resetEra (n : Nat) : (s.withEra n).resetEra = n := rfl
@[simp] theorem State.withEra_schedule (n : Nat) : (s.withEra n).schedule = s.schedule := rfl

@[simp] theorem State.withSchedule_cfg (l : List Input) : (s.withSchedule l).cfg = s.cfg := rfl
@[simp] theorem State.withSchedule_queue (l : List Input) : (s.withSchedule l).queue = s.queue := rfl
@[simp] theorem State.withSchedule_parser (l : List Input) : (s.withSchedule l).parser = s.parser := rfl
@[simp] theorem State.withSchedule_enc (l : List Input) : (s.withSchedule l).enc = s.enc := rfl
@[simp] theorem State.withSchedule_counters (l : List Input) : (s.withSchedule l).counters = s.counters := rfl
@[simp] theorem State.withSchedule_disp (l : List Input) : (s.withSchedule l).disp = s.disp := rfl
@[simp] theorem State.withSchedule_tx (l : List Input) : (s.withSchedule l).tx = s.tx := rfl
@[simp] theorem State.withSchedule_raised (l : List Input) : (s.withSchedule l).raised = s.raised := rfl
@[simp] theorem State.withSchedule_out (l : List Input) : (s.withSchedule l).out = s.out := rfl
@[simp] theorem State.withSchedule_resetEra (l : List Input) : (s.withSchedule l).resetEra = s.resetEra := rfl
@[simp] theorem State.withSchedule_schedule (l : List Input) : (s.withSchedule l).schedule = l := rfl

@[simp] theorem State.goto_cfg (st : ParserState) : (s.goto st).cfg = s.cfg := rfl
@[simp] theorem State.goto_queue (st : ParserState) : (s.goto st).queue = s.queue := rfl
@[simp] theorem State.goto_parser (st : ParserState) : (s.goto st).parser = { s.parser with state := st } := rfl
@[simp] theorem State.goto_enc (st : ParserState) : (s.goto st).enc = s.enc := rfl
@[simp] theorem State.goto_counters (st : ParserState) : (s.goto st).counters = s.counters := rfl
@[simp] theorem State.goto_disp (st : ParserState) : (s.goto st).disp = s.disp := rfl
@[simp] theorem State.goto_tx (st : ParserState) : (s.goto st).tx = s.tx := rfl
@[simp] theorem State.goto_raised (st : ParserState) : (s.goto st).raised = s.raised := rfl
@[simp] theorem State.goto_out (st : ParserState) : (s.goto st).out = s.out := rfl
@[simp] theorem State.goto_resetEra (st : ParserState) : (s.goto st).resetEra = s.resetEra := rfl
@[simp] theorem State.goto_schedule (st : ParserState) : (s.goto st).schedule = s.schedule := rfl

@[simp] theorem State.emitDisp_cfg (e : DispEvent) : (s.emitDisp e).cfg = s.cfg := rfl
@[simp] theorem State.emitDisp_queue (e : DispEvent) : (s.emitDisp e).queue = s.queue := rfl
@[simp] theorem State.emitDisp_parser (e : DispEvent) : (s.emitDisp e).parser = s.parser := rfl
@[simp] theorem State.emitDisp_enc (e : DispEvent) : (s.emitDisp e).enc = s.enc := rfl
@[simp] theorem State.emitDisp_counters (e : DispEvent) : (s.emitDisp e).counters = s.counters := rfl
@[simp] theorem State.emitDisp_disp (e : DispEvent) : (s.emitDisp e).disp = s.disp ++ [e] := rfl
@[simp] theorem State.emitDisp_tx (e : DispEvent) : (s.emitDisp e).tx = s.tx := rfl
@[simp] theorem State.emitDisp_raised (e : DispEvent) : (s.emitDisp e).raised = s.raised := rfl
@[simp] theorem State.emitDisp_out (e : DispEvent) : (s.emitDisp e).out = { s.out with disp := some e } := rfl
@[simp] theorem State.emitDisp_resetEra (e : DispEvent) : (s.emitDisp e).resetEra = s.resetEra := rfl
@[simp] theorem State.emitDisp_schedule (e : DispEvent) : (s.emitDisp e).schedule = s.schedule := rfl

@[simp] theorem State.emitTx_cfg (b : Byte) : (s.emitTx b).cfg = s.cfg := rfl
@[simp] theorem State.emitTx_queue (b : Byte) : (s.emitTx b).queue = s.queue := rfl
@[simp] theorem State.emitTx_parser (b : Byte) : (s.emitTx b).parser = s.parser := rfl
@[simp] theorem State.emitTx_enc (b : Byte) : (s.emitTx b).enc = s.enc := rfl
@[simp] theorem State.emitTx_counters (b : Byte) : (s.emitTx b).counters = s.counters := rfl
@[simp] theorem State.emitTx_disp (b : Byte) : (s.emitTx b).disp = s.disp := rfl
@[simp] theorem State.emitTx_tx (b : Byte) : (s.emitTx b).tx = s.tx ++ [b] := rfl
@[simp] theorem State.emitTx_raised (b : Byte) : (s.emitTx b).raised = s.raised := rfl
@[simp] theorem State.emitTx_out (b : Byte) : (s.emitTx b).out = { s.out with txByte := some b } := rfl
@[simp] theorem State.emitTx_resetEra (b : Byte) : (s.emitTx b).resetEra = s.resetEra := rfl
@[simp] theorem State.emitTx_schedule (b : Byte) : (s.emitTx b).schedule = s.schedule := rfl

@[simp] theorem State.dispatchTo_cfg (t : Byte) (p : List Byte) (n : Nat) :
    (s.dispatchTo t p n).cfg = s.cfg := rfl
@[simp] theorem State.dispatchTo_queue (t : Byte) (p : List Byte) (n : Nat) :
    (s.dispatchTo t p n).queue = s.queue := rfl
@[simp] theorem State.dispatchTo_parser (t : Byte) (p : List Byte) (n : Nat) :
    (s.dispatchTo t p n).parser = s.parser := rfl
@[simp] theorem State.dispatchTo_enc (t : Byte) (p : List Byte) (n : Nat) :
    (s.dispatchTo t p n).enc = s.enc := rfl
@[simp] theorem State.dispatchTo_counters (t : Byte) (p : List Byte) (n : Nat) :
    (s.dispatchTo t p n).counters = s.counters := rfl
@[simp] theorem State.dispatchTo_disp (t : Byte) (p : List Byte) (n : Nat) :
    (s.dispatchTo t p n).disp = s.disp ++ [{ sel := selOf s.cfg t, t := t, n := n, p := p }] := rfl
@[simp] theorem State.dispatchTo_tx (t : Byte) (p : List Byte) (n : Nat) :
    (s.dispatchTo t p n).tx = s.tx := rfl
@[simp] theorem State.dispatchTo_raised (t : Byte) (p : List Byte) (n : Nat) :
    (s.dispatchTo t p n).raised = s.raised := rfl
@[simp] theorem State.dispatchTo_out (t : Byte) (p : List Byte) (n : Nat) :
    (s.dispatchTo t p n).out = { s.out with disp := some { sel := selOf s.cfg t, t := t, n := n, p := p } } := rfl
@[simp] theorem State.dispatchTo_resetEra (t : Byte) (p : List Byte) (n : Nat) :
    (s.dispatchTo t p n).resetEra = s.resetEra := rfl
@[simp] theorem State.dispatchTo_schedule (t : Byte) (p : List Byte) (n : Nat) :
    (s.dispatchTo t p n).schedule = s.schedule := rfl

@[simp] theorem State.raise_cfg (f : FaultRecord) : (s.raise f).cfg = s.cfg := by cases f <;> rfl
@[simp] theorem State.raise_queue (f : FaultRecord) : (s.raise f).queue = s.queue := by cases f <;> rfl
@[simp] theorem State.raise_parser (f : FaultRecord) : (s.raise f).parser = s.parser := by cases f <;> rfl
@[simp] theorem State.raise_enc (f : FaultRecord) : (s.raise f).enc = s.enc := by cases f <;> rfl
@[simp] theorem State.raise_disp (f : FaultRecord) : (s.raise f).disp = s.disp := by cases f <;> rfl
@[simp] theorem State.raise_tx (f : FaultRecord) : (s.raise f).tx = s.tx := by cases f <;> rfl
@[simp] theorem State.raise_resetEra (f : FaultRecord) : (s.raise f).resetEra = s.resetEra := by cases f <;> rfl
@[simp] theorem State.raise_schedule (f : FaultRecord) : (s.raise f).schedule = s.schedule := by cases f <;> rfl
@[simp] theorem State.raise_raised (f : FaultRecord) : (s.raise f).raised = s.raised ++ [f] := by cases f <;> rfl
@[simp] theorem State.raise_bufferFull_counters (b : Byte) :
    (s.raise (.bufferFull b)).counters = { s.counters with ovf := satInc s.cfg s.counters.ovf } := rfl
@[simp] theorem State.raise_bufferFull_out (b : Byte) : (s.raise (.bufferFull b)).out = s.out := rfl
@[simp] theorem State.raise_oversizeLength_counters (t b : Byte) :
    (s.raise (.oversizeLength t b)).counters =
      { s.counters with oversize := satInc s.cfg s.counters.oversize } := rfl
@[simp] theorem State.raise_oversizeLength_out (t b : Byte) :
    (s.raise (.oversizeLength t b)).out = { s.out with oversizeEvt := true } := rfl

@[simp] theorem State.fetched_cfg (l : List Input) : (s.fetched l).cfg = s.cfg := rfl
@[simp] theorem State.fetched_queue (l : List Input) : (s.fetched l).queue = s.queue := rfl
@[simp] theorem State.fetched_parser (l : List Input) : (s.fetched l).parser = s.parser := rfl
@[simp] theorem State.fetched_enc (l : List Input) : (s.fetched l).enc = s.enc := rfl
@[simp] theorem State.fetched_counters (l : List Input) : (s.fetched l).counters = s.counters := rfl
@[simp] theorem State.fetched_disp (l : List Input) : (s.fetched l).disp = s.disp := rfl
@[simp] theorem State.fetched_tx (l : List Input) : (s.fetched l).tx = s.tx := rfl
@[simp] theorem State.fetched_raised (l : List Input) : (s.fetched l).raised = s.raised := rfl
@[simp] theorem State.fetched_out (l : List Input) : (s.fetched l).out = Outputs.idle := rfl
@[simp] theorem State.fetched_resetEra (l : List Input) : (s.fetched l).resetEra = s.resetEra := rfl
@[simp] theorem State.fetched_schedule (l : List Input) : (s.fetched l).schedule = l := rfl

/-! What the reads of a cell see of an update. -/

@[simp] theorem State.withOut_storageAt (o : Outputs) (i : Nat) : (s.withOut o).storageAt i = s.storageAt i := rfl
@[simp] theorem State.withOut_frameAt (o : Outputs) (i : Nat) : (s.withOut o).frameAt i = s.frameAt i := rfl
@[simp] theorem State.withOut_payloadAt (o : Outputs) (i : Nat) : (s.withOut o).payloadAt i = s.payloadAt i := rfl
@[simp] theorem State.withOut_stagedAt (o : Outputs) (i : Nat) : (s.withOut o).stagedAt i = s.stagedAt i := rfl
@[simp] theorem State.goto_storageAt (st : ParserState) (i : Nat) : (s.goto st).storageAt i = s.storageAt i := rfl
@[simp] theorem State.goto_frameAt (st : ParserState) (i : Nat) : (s.goto st).frameAt i = s.frameAt i := rfl
@[simp] theorem State.goto_payloadAt (st : ParserState) (i : Nat) : (s.goto st).payloadAt i = s.payloadAt i := rfl
@[simp] theorem State.goto_stagedAt (st : ParserState) (i : Nat) : (s.goto st).stagedAt i = s.stagedAt i := rfl
@[simp] theorem State.raise_storageAt (f : FaultRecord) (i : Nat) : (s.raise f).storageAt i = s.storageAt i := by
  cases f <;> rfl
@[simp] theorem State.raise_frameAt (f : FaultRecord) (i : Nat) : (s.raise f).frameAt i = s.frameAt i := by
  cases f <;> rfl
@[simp] theorem State.raise_payloadAt (f : FaultRecord) (i : Nat) : (s.raise f).payloadAt i = s.payloadAt i := by
  cases f <;> rfl
@[simp] theorem State.raise_stagedAt (f : FaultRecord) (i : Nat) : (s.raise f).stagedAt i = s.stagedAt i := by
  cases f <;> rfl

end Sys2Proof.Machine
end

