-- ==== Sys2Proof/Laws/Ops.lean ====
section
/-! SUPPORT. What each shared operation can do, said once: sequencing, bounded memory access, the queue, the encoder, the
parser rows, and each meaning's possible next states. -/

namespace Sys2Proof.Machine

/-! ### Sequencing and bounded access -/

@[simp] theorem andThen_next (s : State) (f : State → Result) : andThen (.next s) f = f s := rfl
@[simp] theorem andThen_fault (x : Fault) (f : State → Result) : andThen (.fault x) f = .fault x := rfl
@[simp] theorem andThen_refused (x : Refusal) (f : State → Result) : andThen (.refused x) f = .refused x := rfl

/-- A sequence answers a next state exactly when both parts do. -/
theorem andThen_eq_next {r : Result} {f : State → Result} {t : State} :
    andThen r f = .next t ↔ ∃ s, r = .next s ∧ f s = .next t := by
  cases r <;> simp

/-- Sequencing with "nothing more" is no change. -/
@[simp] theorem andThen_pure (r : Result) : andThen r (fun s => .next s) = r := by cases r <;> rfl

theorem andThen_assoc (r : Result) (f g : State → Result) :
    andThen (andThen r f) g = andThen r fun s => andThen (f s) g := by
  cases r <;> rfl

/-- A bounded access answers a next state exactly when its cells exist and the operation does. -/
theorem withCells_eq_next {id : MemId} {lo hi : Nat} {s t : State} {r : Result} :
    withCells id lo hi s r = .next t ↔ hi ≤ memSize s.cfg id ∧ r = .next t := by
  unfold withCells
  split <;> simp [*]

/-- Where the cells exist the bound is no bound. -/
theorem withCells_of_le {id : MemId} {lo hi : Nat} {s : State} (r : Result) (h : hi ≤ memSize s.cfg id) :
    withCells id lo hi s r = r := by
  simp [withCells, h]

@[simp] theorem memSize_storage (c : Config) : memSize c .storage = c.capacity := rfl
@[simp] theorem memSize_frameBuffer (c : Config) : memSize c .frameBuffer = c.maxPayload + 2 := rfl
@[simp] theorem memSize_encPayload (c : Config) : memSize c .encPayload = c.maxPayload := rfl

/-! ### What each meaning of the queue can answer -/

theorem execBufWrite_cases {b : Byte} {s t : State} (h : execBufWrite b s = .next t) :
    (s.queue.full = true ∧ t = (s.raise (.bufferFull b)).withOut { s.out with wrOk := false }) ∨
    (s.queue.full = false ∧ s.queue.tail < s.cfg.capacity ∧
      t = (s.withQueue (s.queue.push s.cfg b)).withOut { s.out with wrOk := true }) := by
  unfold execBufWrite at h
  split at h
  · exact .inl ⟨by assumption, by simpa using h.symm⟩
  · obtain ⟨hc, ht⟩ := withCells_eq_next.mp h
    exact .inr ⟨by simp_all, hc, by simpa using ht.symm⟩

theorem execBufWrite_full {s : State} (b : Byte) (h : s.queue.full = true) :
    execBufWrite b s = .next ((s.raise (.bufferFull b)).withOut { s.out with wrOk := false }) := by
  simp [execBufWrite, h]

theorem execBufWrite_room {s : State} (b : Byte) (h : s.queue.full = false) (ht : s.queue.tail < s.cfg.capacity) :
    execBufWrite b s = .next ((s.withQueue (s.queue.push s.cfg b)).withOut { s.out with wrOk := true }) := by
  rw [execBufWrite, if_neg (by simp [h]), withCells_of_le]
  exact ht

theorem execBufRead_cases {s t : State} (h : execBufRead s = .next t) :
    (s.queue.isEmpty = true ∧ t = s.withOut { s.out with rd := none }) ∨
    (s.queue.isEmpty = false ∧ s.queue.head < s.cfg.capacity ∧
      t = (s.withQueue (s.queue.pop s.cfg)).withOut { s.out with rd := some (s.storageAt s.queue.head) }) := by
  unfold execBufRead at h
  split at h
  · exact .inl ⟨by assumption, by simpa using h.symm⟩
  · obtain ⟨hc, ht⟩ := withCells_eq_next.mp h
    exact .inr ⟨by simp_all, hc, by simpa using ht.symm⟩

theorem execBufRead_empty {s : State} (h : s.queue.isEmpty = true) :
    execBufRead s = .next (s.withOut { s.out with rd := none }) := by
  simp [execBufRead, h]

theorem execBufRead_nonempty {s : State} (h : s.queue.isEmpty = false) (hh : s.queue.head < s.cfg.capacity) :
    execBufRead s =
      .next ((s.withQueue (s.queue.pop s.cfg)).withOut { s.out with rd := some (s.storageAt s.queue.head) }) := by
  rw [execBufRead, if_neg (by simp [h]), withCells_of_le]
  exact hh

/-! ### What each meaning of the encoder can answer -/

theorem execEncPut_cases {i b : Byte} {s t : State} (h : execEncPut i b s = .next t) :
    (s.enc.busy = false ∧ i.toNat < s.cfg.maxPayload ∧
      t = (s.withEnc (s.enc.stage i b)).withOut { s.out with encPutOk := true }) ∨
    (¬ (s.enc.busy = false ∧ i.toNat < s.cfg.maxPayload) ∧ t = s.withOut { s.out with encPutOk := false }) := by
  unfold execEncPut at h
  split at h
  · rename_i hc
    simp [putFits] at hc
    exact .inl ⟨hc.1, hc.2, by simpa using h.symm⟩
  · rename_i hc
    simp [putFits] at hc
    exact .inr ⟨fun hb => absurd (hc hb.1) (by omega), by simpa using h.symm⟩

theorem execEncStart_cases {y : Byte} {n : BitVec 9} {s t : State} (h : execEncStart y n s = .next t) :
    (s.enc.busy = false ∧ n.toNat ≤ s.cfg.maxPayload ∧
      t = (s.withEnc (s.enc.start y n)).withOut { s.out with encOk := true }) ∨
    ((s.enc.busy = true ∨ s.cfg.maxPayload < n.toNat) ∧ t = s.withOut { s.out with encOk := false }) := by
  unfold execEncStart at h
  split at h
  · exact .inr ⟨.inl (by assumption), by simpa using h.symm⟩
  · rename_i hb
    split at h
    · rename_i hf
      exact .inl ⟨by simpa using hb, by simpa [startFits] using hf, by simpa using h.symm⟩
    · rename_i hf
      exact .inr ⟨.inr (by simpa [startFits] using hf), by simpa using h.symm⟩

theorem execEncPut_accepted {i : Byte} {s : State} (b : Byte) (hb : s.enc.busy = false)
    (hi : i.toNat < s.cfg.maxPayload) :
    execEncPut i b s = .next ((s.withEnc (s.enc.stage i b)).withOut { s.out with encPutOk := true }) := by
  rw [execEncPut, if_pos (by simp [hb, putFits, hi])]

theorem execEncStart_accepted {n : BitVec 9} {s : State} (y : Byte) (hb : s.enc.busy = false)
    (hn : n.toNat ≤ s.cfg.maxPayload) :
    execEncStart y n s = .next ((s.withEnc (s.enc.start y n)).withOut { s.out with encOk := true }) := by
  rw [execEncStart, if_neg (by simp [hb]), if_pos (by simp [startFits, hn])]

theorem execEncEmit_cases {s t : State} (h : execEncEmit s = .next t) :
    (s.enc.busy = false ∧ t = s) ∨
    (s.enc.busy = true ∧ s.enc.endRead s.enc.idx ≤ s.cfg.maxPayload ∧
      t = (s.emitTx (s.encByte s.enc.idx)).withEnc s.enc.sent) := by
  unfold execEncEmit at h
  split at h
  · rename_i hb
    obtain ⟨hc, ht⟩ := withCells_eq_next.mp h
    exact .inr ⟨hb, hc, by simpa using ht.symm⟩
  · rename_i hb
    exact .inl ⟨by simpa using hb, by simpa using h.symm⟩

theorem execEncEmit_busy {s : State} (hb : s.enc.busy = true) (hc : s.enc.endRead s.enc.idx ≤ s.cfg.maxPayload) :
    execEncEmit s = .next ((s.emitTx (s.encByte s.enc.idx)).withEnc s.enc.sent) := by
  rw [execEncEmit, if_pos hb, withCells_of_le]
  exact hc

/-- A frame within `MAX_PAYLOAD` is sent from cells that exist. -/
theorem Encoder.endRead_le {e : Encoder} {n : Nat} (h : e.len.toNat ≤ n) (k : Nat) : e.endRead k ≤ n := by
  unfold Encoder.endRead checksumIdx
  split
  · omega
  · split <;> omega

/-! ### What the rows of the parser can answer -/

/-- The next state of the row that classification takes: one case for each row, with everything the row changes. -/
theorem feedEffect_cases {r : FeedRow} {b : Byte} {s t : State} (h : feedEffect r b s = .next t) :
    ((r = .h1Hit ∨ r = .h2Ab) ∧ t = s.goto .awaitHeader2) ∨
    ((r = .h1Miss ∨ r = .h2Miss) ∧ t = s.goto .awaitHeader1) ∨
    (r = .h2Hit ∧ t = s.withParser { s.parser with cursor := 0, state := .readType }) ∨
    (r = .type ∧ s.parser.cursor < s.cfg.maxPayload + 2 ∧
      t = s.withParser { s.parser.put b with type := b, state := .readLength }) ∨
    (r = .lenOk ∧ s.parser.cursor < s.cfg.maxPayload + 2 ∧
      t = s.withParser { s.parser.put b with
            declaredLength := b, state := if 0 < b.toNat then .readPayload else .readCrc }) ∨
    (r = .lenOver ∧ t = (s.raise (.oversizeLength s.parser.type b)).goto .awaitHeader1) ∨
    (r = .payload ∧ s.parser.cursor < s.cfg.maxPayload + 2 ∧
      t = s.withParser { s.parser.put b with
            state := if s.parser.cursor + 1 = frameEnd s.parser.declaredLength then .readCrc else .readPayload }) ∨
    (r = .crc ∧ s.parser.cursor ≤ s.cfg.maxPayload + 2 ∧
      t = (if crc8 (s.frameRange 0 s.parser.cursor) = b then
            s.dispatchTo s.parser.type (s.frameRange 2 s.parser.cursor) s.parser.declaredLength.toNat
          else s).goto .awaitHeader1) := by
  cases r <;> simp only [feedEffect, feedH1HitEffect, feedH1MissEffect, feedH2HitEffect, feedH2AbEffect,
    feedH2MissEffect, feedTypeEffect, feedLenOkEffect, feedLenOverEffect, feedPayloadEffect, feedCrcEffect,
    withCells_eq_next, Host.Outcome.next.injEq, memSize_frameBuffer] at h <;>
    simp_all [eq_comm (b := t)] <;> omega

/-- A row answers when the cells it touches exist. -/
theorem feedEffect_completes (r : FeedRow) (b : Byte) (s : State)
    (h : (r = .type ∨ r = .lenOk ∨ r = .payload → s.parser.cursor < s.cfg.maxPayload + 2) ∧
      (r = .crc → s.parser.cursor ≤ s.cfg.maxPayload + 2)) :
    ∃ t, feedEffect r b s = .next t := by
  obtain ⟨h1, h2⟩ := h
  cases r with
  | type => exact ⟨_, withCells_of_le _ (Nat.succ_le_of_lt (h1 (by simp)))⟩
  | lenOk => exact ⟨_, withCells_of_le _ (Nat.succ_le_of_lt (h1 (by simp)))⟩
  | payload => exact ⟨_, withCells_of_le _ (Nat.succ_le_of_lt (h1 (by simp)))⟩
  | crc => exact ⟨_, withCells_of_le _ (h2 rfl)⟩
  | h1Hit => exact ⟨_, rfl⟩
  | h1Miss => exact ⟨_, rfl⟩
  | h2Hit => exact ⟨_, rfl⟩
  | h2Ab => exact ⟨_, rfl⟩
  | h2Miss => exact ⟨_, rfl⟩
  | lenOver => exact ⟨_, rfl⟩

/-- The row a state and a byte select, and what it needs of them. -/
theorem classify_spec (c : Config) (st : ParserState) (b : Byte) :
    (classify c st b = .h1Hit ↔ st = .awaitHeader1 ∧ b = hdr1) ∧
    (classify c st b = .h1Miss ↔ st = .awaitHeader1 ∧ b ≠ hdr1) ∧
    (classify c st b = .h2Hit ↔ st = .awaitHeader2 ∧ b = hdr2) ∧
    (classify c st b = .h2Ab ↔ st = .awaitHeader2 ∧ b ≠ hdr2 ∧ b = hdr1) ∧
    (classify c st b = .h2Miss ↔ st = .awaitHeader2 ∧ b ≠ hdr2 ∧ b ≠ hdr1) ∧
    (classify c st b = .type ↔ st = .readType) ∧
    (classify c st b = .lenOk ↔ st = .readLength ∧ b.toNat ≤ c.maxPayload) ∧
    (classify c st b = .lenOver ↔ st = .readLength ∧ c.maxPayload < b.toNat) ∧
    (classify c st b = .payload ↔ st = .readPayload) ∧
    (classify c st b = .crc ↔ st = .readCrc) := by
  cases st <;> simp only [classify] <;> (repeat' split) <;> simp_all

theorem takeRow_eq_next {r : FeedRow} {b : Byte} {s t : State} :
    takeRow r b s = .next t ↔ s.rowOf b = r ∧ feedEffect r b s = .next t := by
  unfold takeRow
  split <;> simp [*]

/-- A row that is selected is what feeding the byte does. -/
theorem takeRow_of_selected {r : FeedRow} {b : Byte} {s : State} (h : s.rowOf b = r) :
    takeRow r b s = execParserFeed b s := by
  simp [takeRow, execParserFeed, h]

/-- A row that is not selected is refused. -/
theorem takeRow_of_not_selected {r : FeedRow} {b : Byte} {s : State} (h : s.rowOf b ≠ r) :
    takeRow r b s = .refused .rowNotSelected := by
  simp [takeRow, h]

/-! ### Feeding a sequence -/

@[simp] theorem feedAll_nil (s : State) : feedAll [] s = .next s := rfl
theorem feedAll_cons (b : Byte) (l : List Byte) (s : State) :
    feedAll (b :: l) s = andThen (execParserFeed b s) (feedAll l) := rfl

/-- Feeding two sequences one after the other is feeding them joined. -/
theorem feedAll_append (l m : List Byte) (s : State) :
    feedAll (l ++ m) s = andThen (feedAll l s) (feedAll m) := by
  induction l generalizing s with
  | nil => rfl
  | cons b l ih =>
    rw [List.cons_append, feedAll_cons, feedAll_cons, andThen_assoc]
    congr 1
    exact funext ih

/-- An invariant of single fed bytes is an invariant of fed sequences. -/
theorem feedAll_keeps {P : State → Prop} (hP : ∀ b s t, P s → execParserFeed b s = .next t → P t)
    {l : List Byte} {s t : State} (hs : P s) (h : feedAll l s = .next t) : P t := by
  induction l generalizing s with
  | nil => cases h; exact hs
  | cons b l ih =>
    obtain ⟨u, hu, ht⟩ := andThen_eq_next.mp (feedAll_cons b l s ▸ h)
    exact ih (hP b s u hs hu) ht

end Sys2Proof.Machine
end

