-- ==== Sys2Proof/Laws/Encoder.lean ====
section
/-! SUPPORT. The encoder: which cells count as staged, ranges of cells, and the byte of each index as a byte of the
frame. -/

namespace Sys2Proof.Machine

@[simp] theorem length_rangeOf (f : Nat → Byte) (lo hi : Nat) : (rangeOf f lo hi).length = hi - lo := by
  simp [rangeOf]

/-- Byte `k` of a range. -/
theorem getElem?_rangeOf {f : Nat → Byte} {lo hi k : Nat} (h : k < hi - lo) :
    (rangeOf f lo hi)[k]? = some (f (lo + k)) := by
  simp [rangeOf, h]

/-- Ranges of two memories that agree on the cells are the same bytes. -/
theorem rangeOf_congr {f g : Nat → Byte} {lo hi : Nat} (h : ∀ i, lo ≤ i → i < hi → f i = g i) :
    rangeOf f lo hi = rangeOf g lo hi := by
  refine List.map_congr_left fun i hi' => ?_
  have := List.mem_range'_1.mp hi'
  exact h i this.1 (by omega)

/-- A sequence is the range of a memory that holds its bytes in order. -/
theorem rangeOf_eq {f : Nat → Byte} {lo : Nat} {p : List Byte} (h : ∀ i < p.length, p[i]? = some (f (lo + i))) :
    rangeOf f lo (lo + p.length) = p := by
  apply List.ext_getElem?
  intro k
  by_cases hk : k < p.length
  · rw [getElem?_rangeOf (by omega), h k hk]
  · rw [List.getElem?_eq_none (by simp; omega), List.getElem?_eq_none (by omega)]

@[simp] theorem byteOf_toNat_self (b : Byte) : byteOf b.toNat = b := by simp [byteOf]

/-- Staging a cell makes that cell staged and leaves the others as they were. -/
theorem Encoder.isStaged_stage (e : Encoder) (i b : Byte) (j : Nat) :
    (e.stage i b).isStaged j = if j = i.toNat then true else e.isStaged j := by
  unfold Encoder.isStaged Encoder.stage
  simp only [Vector.getElem?_set]
  split <;> split <;> simp_all

/-- No cell is staged right after a reset. -/
theorem Encoder.isStaged_init (e : Encoder) (i : Nat) : e.init.isStaged i = false := by
  simp only [Encoder.isStaged, Encoder.init, Vector.getElem?_replicate]
  split <;> rfl

/-- The last byte of a frame clears `enc_busy`. -/
theorem Encoder.sent_last {e : Encoder} (h : e.idx = 4 + e.len.toNat) : e.sent = { e with busy := false } := by
  rw [Encoder.sent, checksumIdx, if_pos h]

/-- Any other byte advances `enc_idx`. -/
theorem Encoder.sent_more {e : Encoder} (h : e.idx ≠ 4 + e.len.toNat) : e.sent = { e with idx := e.idx + 1 } := by
  rw [Encoder.sent, checksumIdx, if_neg h]

/-- The frame in flight (R97): the frame of the latched type and the first `enc_len` cells. -/
def State.frameInFlight (s : State) : List Byte :=
  frameBytes s.enc.type (s.stagedRange s.enc.len.toNat) (frameChecksum s.enc.type (s.stagedRange s.enc.len.toNat))

theorem State.length_frameInFlight (s : State) : s.frameInFlight.length = s.enc.len.toNat + 5 := by
  simp [State.frameInFlight, frameBytes, State.stagedRange]

/-- The byte sent at index `k` is byte `k` of the frame in flight. -/
theorem State.getElem?_frameInFlight (s : State) {k : Nat} (h : k < s.enc.len.toNat + 5) :
    s.frameInFlight[k]? = some (s.encByte k) := by
  have hlen : (s.stagedRange s.enc.len.toNat).length = s.enc.len.toNat := by simp [State.stagedRange]
  unfold State.frameInFlight frameBytes frameChecksum State.encByte checksumIdx
  rw [hlen, byteOf_toNat_self]
  match k with
  | 0 => rfl
  | 1 => rfl
  | 2 => rfl
  | 3 => rfl
  | k + 4 =>
    simp only [List.cons_append, List.nil_append, List.getElem?_cons_succ]
    rw [if_neg (by omega), if_neg (by omega), if_neg (by omega), if_neg (by omega)]
    split
    · rw [List.getElem?_append_left (by omega), State.stagedRange, getElem?_rangeOf (by omega)]
      simp
    · have hk : k = s.enc.len.toNat := by omega
      rw [List.getElem?_append_right (by omega)]
      simp [hlen, hk]

end Sys2Proof.Machine
end

