-- ==== Sys2Proof/Laws/Parser.lean ====
section
/-! SUPPORT. The parser: what a fed byte never touches, the step from each control state, and the bytes that a frame leaves
in frame_buffer. -/

namespace Sys2Proof.Machine

/-- What no row of the parser touches: the build, the queue, the encoder, `TX`, and the model's own records but the
faults. -/
abbrev SameOutside (s t : State) : Prop :=
  t.cfg = s.cfg ∧ t.queue = s.queue ∧ t.enc = s.enc ∧ t.tx = s.tx ∧ t.resetEra = s.resetEra ∧
    t.schedule = s.schedule ∧ t.counters.ovf = s.counters.ovf

theorem SameOutside.trans {s t u : State} (h : SameOutside s t) (g : SameOutside t u) : SameOutside s u :=
  ⟨g.1.trans h.1, g.2.1.trans h.2.1, g.2.2.1.trans h.2.2.1, g.2.2.2.1.trans h.2.2.2.1,
    g.2.2.2.2.1.trans h.2.2.2.2.1, g.2.2.2.2.2.1.trans h.2.2.2.2.2.1, g.2.2.2.2.2.2.trans h.2.2.2.2.2.2⟩

theorem feedEffect_sameOutside {r : FeedRow} {b : Byte} {s t : State} (h : feedEffect r b s = .next t) :
    SameOutside s t := by
  rcases feedEffect_cases h with ⟨-, rfl⟩ | ⟨-, rfl⟩ | ⟨-, rfl⟩ | ⟨-, -, rfl⟩ | ⟨-, -, rfl⟩ | ⟨-, rfl⟩ | ⟨-, -, rfl⟩ |
    ⟨-, -, rfl⟩ <;> first
    | exact ⟨rfl, rfl, rfl, rfl, rfl, rfl, rfl⟩
    | (split <;> exact ⟨rfl, rfl, rfl, rfl, rfl, rfl, rfl⟩)

theorem feedAll_sameOutside {l : List Byte} {s t : State} (h : feedAll l s = .next t) : SameOutside s t :=
  feedAll_keeps (P := SameOutside s) (fun _ _ _ hs hu => hs.trans (feedEffect_sameOutside hu))
    ⟨rfl, rfl, rfl, rfl, rfl, rfl, rfl⟩ h

/-- A row asked for by name touches no more than the row. -/
theorem takeRow_sameOutside {r : FeedRow} {b : Byte} {s t : State} (h : takeRow r b s = .next t) :
    SameOutside s t :=
  feedEffect_sameOutside (takeRow_eq_next.mp h).2

/-! ### The fed byte in each control state -/

theorem execParserFeed_h1 {s : State} (b : Byte) (h : s.parser.state = .awaitHeader1) :
    execParserFeed b s = .next (if b = hdr1 then s.goto .awaitHeader2 else s.goto .awaitHeader1) := by
  simp only [execParserFeed, State.rowOf, classify, h]
  split <;> rfl

theorem execParserFeed_h2 {s : State} (b : Byte) (h : s.parser.state = .awaitHeader2) :
    execParserFeed b s = .next (if b = hdr2 then s.withParser { s.parser with cursor := 0, state := .readType }
      else if b = hdr1 then s.goto .awaitHeader2 else s.goto .awaitHeader1) := by
  simp only [execParserFeed, State.rowOf, classify, h]
  split
  · rfl
  · split <;> rfl

theorem execParserFeed_type {s : State} (b : Byte) (h : s.parser.state = .readType)
    (hc : s.parser.cursor < s.cfg.maxPayload + 2) :
    execParserFeed b s = .next (s.withParser { s.parser.put b with type := b, state := .readLength }) := by
  simp only [execParserFeed, State.rowOf, classify, h]
  exact withCells_of_le _ hc

theorem execParserFeed_lenOk {s : State} {b : Byte} (h : s.parser.state = .readLength)
    (hb : b.toNat ≤ s.cfg.maxPayload) (hc : s.parser.cursor < s.cfg.maxPayload + 2) :
    execParserFeed b s = .next (s.withParser { s.parser.put b with
      declaredLength := b, state := if 0 < b.toNat then .readPayload else .readCrc }) := by
  simp only [execParserFeed, State.rowOf, classify, h, if_pos hb]
  exact withCells_of_le _ hc

theorem execParserFeed_lenOver {s : State} {b : Byte} (h : s.parser.state = .readLength)
    (hb : s.cfg.maxPayload < b.toNat) :
    execParserFeed b s = .next ((s.raise (.oversizeLength s.parser.type b)).goto .awaitHeader1) := by
  simp only [execParserFeed, State.rowOf, classify, h, if_neg (Nat.not_le.mpr hb)]
  rfl

theorem execParserFeed_payload {s : State} (b : Byte) (h : s.parser.state = .readPayload)
    (hc : s.parser.cursor < s.cfg.maxPayload + 2) :
    execParserFeed b s = .next (s.withParser { s.parser.put b with
      state := if s.parser.cursor + 1 = frameEnd s.parser.declaredLength then .readCrc else .readPayload }) := by
  simp only [execParserFeed, State.rowOf, classify, h]
  exact withCells_of_le _ hc

theorem execParserFeed_crc {s : State} (b : Byte) (h : s.parser.state = .readCrc)
    (hc : s.parser.cursor ≤ s.cfg.maxPayload + 2) :
    execParserFeed b s = .next ((if crc8 (s.frameRange 0 s.parser.cursor) = b then
      s.dispatchTo s.parser.type (s.frameRange 2 s.parser.cursor) s.parser.declaredLength.toNat
      else s).goto .awaitHeader1) := by
  simp only [execParserFeed, State.rowOf, classify, h]
  exact withCells_of_le _ hc

/-! ### The payload -/

/-- The parser in the middle of a frame: `held` are the bytes it has stored, from index 0, over a buffer that held `g`. -/
abbrev Holding (g : Nat → Byte) (s : State) (held : List Byte) : Prop :=
  s.parser.cursor = held.length ∧ s.parser.frameBuffer.wf ∧
    (∀ i < held.length, held[i]? = some (s.frameAt i)) ∧ ∀ i, held.length ≤ i → s.frameAt i = g i

theorem Holding.frameRange {g : Nat → Byte} {s : State} {held : List Byte} (h : Holding g s held) :
    s.frameRange 0 s.parser.cursor = held := by
  rw [h.1, State.frameRange]
  have := rangeOf_eq (f := s.frameAt) (lo := 0) (p := held) (by simpa using h.2.2.1)
  simpa using this

theorem Holding.frameRange_two {g : Nat → Byte} {s : State} {a b : Byte} {held : List Byte}
    (h : Holding g s (a :: b :: held)) :
    s.frameRange 2 s.parser.cursor = held := by
  rw [h.1, State.frameRange]
  have := rangeOf_eq (f := s.frameAt) (lo := 2) (p := held) fun i hi => by
    have := h.2.2.1 (i + 2) (by simpa using hi)
    rw [Nat.add_comm 2 i]
    simpa using this
  rw [List.length_cons, List.length_cons, show held.length + 1 + 1 = 2 + held.length by omega]
  exact this

/-- Storing a byte adds it at the end of what is held. -/
theorem Holding.put {g : Nat → Byte} {s t : State} {held : List Byte} {b : Byte} (h : Holding g s held)
    (hc : t.parser.cursor = s.parser.cursor + 1)
    (hm : t.parser.frameBuffer = s.parser.frameBuffer.write s.parser.cursor b) :
    Holding g t (held ++ [b]) := by
  obtain ⟨h1, h2, h3, h4⟩ := h
  have hr : ∀ i, t.frameAt i = if held.length = i then b else s.frameAt i := fun i => by
    rw [← h1]
    simp only [State.frameAt, hm]
    exact heldByte_write _ h2 _ _ _
  refine ⟨by simp [hc, h1], hm ▸ Memory.wf_write h2 _ _, fun i hi => ?_, fun i hi => ?_⟩
  on_goal 2 =>
    simp only [List.length_append, List.length_singleton] at hi
    rw [hr, if_neg (by omega), h4 i (by omega)]
  rw [hr]
  rcases Nat.lt_or_ge i held.length with hlt | hge
  · rw [List.getElem?_append_left hlt, if_neg (by omega), h3 i hlt]
  · have hi : i = held.length := by
      simp only [List.length_append, List.length_singleton] at hi
      omega
    subst hi
    simp

/-- What a parser that has stored `held` and waits for the rest of a payload of `n` bytes is in. -/
abbrev Waiting (g : Nat → Byte) (s : State) (n : Nat) (held : List Byte) : Prop :=
  Holding g s held ∧ s.parser.declaredLength.toNat = n ∧ n ≤ s.cfg.maxPayload ∧
    s.parser.state = (if held.length = n + 2 then .readCrc else .readPayload)

/-- Feeding the rest of a payload stores it, and changes nothing but `frame_buffer`, `cursor` and `state`. -/
theorem feedAll_payload {g : Nat → Byte} {n : Nat} (p : List Byte) :
    ∀ {s : State} {held : List Byte}, Waiting g s n held →
    held.length + p.length ≤ n + 2 →
    ∃ t, feedAll p s = .next t ∧ Waiting g t n (held ++ p) ∧ t.parser.type = s.parser.type ∧
      t.parser.declaredLength = s.parser.declaredLength ∧ t.disp = s.disp ∧ t.out = s.out ∧ t.raised = s.raised ∧
      t.counters = s.counters := by
  induction p with
  | nil => exact fun {s held} h _ => ⟨s, rfl, by simpa using h, rfl, rfl, rfl, rfl, rfl, rfl⟩
  | cons b p ih =>
    intro s held h hl
    obtain ⟨hh, hd, hn, hs⟩ := h
    simp only [List.length_cons] at hl
    have hcur := hh.1
    have hf := execParserFeed_payload b (by rw [hs, if_neg (by omega)]) (by omega : s.parser.cursor < _)
    have hw : Waiting g (s.withParser { s.parser.put b with
        state := if s.parser.cursor + 1 = frameEnd s.parser.declaredLength then .readCrc else .readPayload }) n
        (held ++ [b]) := by
      refine ⟨Holding.put hh rfl rfl, hd, hn, ?_⟩
      simp only [State.withParser_parser, frameEnd, hd, hcur, List.length_append, List.length_singleton]
    obtain ⟨t, h1, h2, h3, h4, h5, h6, h7, h8⟩ := ih hw (by simp; omega)
    exact ⟨t, by rw [feedAll_cons, hf]; exact h1, by simpa using h2, h3, h4, h5, h6, h7, h8⟩

/-- Feeding a header, a type, a length within `MAX_PAYLOAD` and that many payload bytes: the parser is in ReadCrc and holds
them. -/
theorem feedAll_upTo_crc {s : State} {t : Byte} {p : List Byte} (h : s.parser.state = .awaitHeader1)
    (hw : s.parser.frameBuffer.wf) (hm : p.length ≤ 255) (hp : p.length ≤ s.cfg.maxPayload) :
    ∃ u, feedAll ([hdr1, hdr2, t, byteOf p.length] ++ p) s = .next u ∧
      Holding s.frameAt u ([t, byteOf p.length] ++ p) ∧ u.parser.state = .readCrc ∧ u.parser.type = t ∧
      u.parser.declaredLength = byteOf p.length ∧ u.disp = s.disp ∧ u.out = s.out ∧ u.raised = s.raised ∧
      u.counters = s.counters := by
  have hlen : (byteOf p.length).toNat = p.length := by
    simp only [byteOf, BitVec.toNat_ofNat]
    omega
  rw [feedAll_append, feedAll_cons, execParserFeed_h1 _ h, if_pos rfl, andThen_next, feedAll_cons,
    execParserFeed_h2 _ rfl, if_pos rfl, andThen_next, feedAll_cons,
    execParserFeed_type _ rfl (by show 0 < s.cfg.maxPayload + 2; omega), andThen_next, feedAll_cons,
    execParserFeed_lenOk rfl (by show (byteOf p.length).toNat ≤ s.cfg.maxPayload; omega)
      (by show 0 + 1 < s.cfg.maxPayload + 2; omega), andThen_next, feedAll_nil, andThen_next]
  let s2 := (s.goto .awaitHeader2).withParser { (s.goto .awaitHeader2).parser with cursor := 0, state := .readType }
  let s3 := s2.withParser { s2.parser.put t with type := t, state := .readLength }
  let s4 := s3.withParser { s3.parser.put (byteOf p.length) with
    declaredLength := byteOf p.length, state := if 0 < (byteOf p.length).toNat then .readPayload else .readCrc }
  have h2 : Holding s.frameAt s2 [] := ⟨rfl, hw, fun i hi => absurd hi (by simp), fun _ _ => rfl⟩
  have h3 : Holding s.frameAt s3 [t] := Holding.put h2 rfl rfl
  have h4 : Waiting s.frameAt s4 p.length [t, byteOf p.length] := by
    refine ⟨Holding.put h3 rfl rfl, hlen, hp, ?_⟩
    show (if 0 < (byteOf p.length).toNat then ParserState.readPayload else .readCrc) = _
    rw [hlen]
    simp only [List.length_cons, List.length_nil]
    split <;> split <;> first | rfl | omega
  obtain ⟨u, g1, g2, g3, g4, g5, g6, g7, g8⟩ := feedAll_payload p h4 (by simp; omega)
  exact ⟨u, g1, g2.1, by rw [g2.2.2.2, if_pos (by simp)], g3, g4, g5, g6, g7, g8⟩

/-! ### What the parser's path reads -/

/-- Two states that agree on all that the parser reads and on the events so far. -/
abbrev SameParserPath (s v : State) : Prop := s.cfg = v.cfg ∧ s.parser = v.parser ∧ s.disp = v.disp

theorem goto_parser_congr {s v : State} (st : ParserState) (h : s.parser = v.parser) :
    (s.goto st).parser = (v.goto st).parser := by
  simp only [State.goto, State.withParser_parser, h]

/-- A fed byte does the same to the parser and the events, whatever the rest of the state is. -/
theorem execParserFeed_congr {s v t : State} {b : Byte} (h : SameParserPath s v) (ht : execParserFeed b s = .next t) :
    ∃ u, execParserFeed b v = .next u ∧ SameParserPath t u := by
  obtain ⟨hc, hp, hd⟩ := h
  have hf : s.frameRange = v.frameRange := by
    funext lo hi
    simp only [State.frameRange]
    exact rangeOf_congr fun i _ _ => by simp only [State.frameAt, hp]
  have hr : v.rowOf b = s.rowOf b := by simp only [State.rowOf, hc, hp]
  unfold execParserFeed at ht ⊢
  rw [hr]
  generalize s.rowOf b = r at ht
  cases r <;> simp only [feedEffect, feedH1HitEffect, feedH1MissEffect, feedH2HitEffect, feedH2AbEffect,
    feedH2MissEffect, feedTypeEffect, feedLenOkEffect, feedLenOverEffect, feedPayloadEffect, feedCrcEffect,
    withCells_eq_next, Host.Outcome.next.injEq, exists_eq_left', hf, hp, hc] at ht ⊢
  case crc =>
    obtain ⟨h1, rfl⟩ := ht
    refine ⟨_, ⟨h1, rfl⟩, ?_⟩
    split
    · exact ⟨hc, goto_parser_congr _ hp,
        by simp only [State.goto, State.withParser_disp, State.dispatchTo, State.emitDisp, hd, hc]⟩
    · exact ⟨hc, goto_parser_congr _ hp, hd⟩
  case type => obtain ⟨h1, rfl⟩ := ht; exact ⟨_, ⟨h1, rfl⟩, hc, rfl, hd⟩
  case lenOk => obtain ⟨h1, rfl⟩ := ht; exact ⟨_, ⟨h1, rfl⟩, hc, rfl, hd⟩
  case payload => obtain ⟨h1, rfl⟩ := ht; exact ⟨_, ⟨h1, rfl⟩, hc, rfl, hd⟩
  case h2Hit => subst ht; exact ⟨hc, rfl, hd⟩
  all_goals
    subst ht
    exact ⟨hc, goto_parser_congr _ hp, hd⟩

/-- The same of a fed sequence. -/
theorem feedAll_congr {l : List Byte} : ∀ {s v t : State}, SameParserPath s v → feedAll l s = .next t →
    ∃ u, feedAll l v = .next u ∧ SameParserPath t u := by
  induction l with
  | nil =>
    intro s v t h ht
    cases ht
    exact ⟨v, rfl, h⟩
  | cons b l ih =>
    intro s v t h ht
    obtain ⟨s', hs, ht⟩ := andThen_eq_next.mp (feedAll_cons b l s ▸ ht)
    obtain ⟨v', hv, h'⟩ := execParserFeed_congr h hs
    obtain ⟨u, hu, h''⟩ := ih h' ht
    exact ⟨u, by rw [feedAll_cons, hv]; exact hu, h''⟩

end Sys2Proof.Machine
end

