-- ==== Sys2Proof/Laws/PerInstr.lean ====
section
/-! SUPPORT. Decoding after encoding, one lemma for each instruction: the operation's own request selects it. -/

namespace Sys2Proof.Laws.EncodeRoundTrip

open Sys2Proof

/-- In every build, the request of a well-formed operation decodes to what its word selects (R59 to R67, R56). -/
def Statement (i : Instr) : Prop :=
  ∀ c : Config, i.wellFormed c = true → decode c (encode i) = .ok i.selected

/-- A byte under a leading 1 is the byte, and the 1 is bit 8. -/
theorem one_append (b : Byte) : (1#1 ++ b).getLsbD 8 = true ∧ (1#1 ++ b).setWidth 8 = b := by
  revert b
  decide

/-- The ten-bit word of a fed byte (R61). -/
theorem feed_append (b : Byte) :
    (0b01#2 ++ b).getLsbD 9 = false ∧ (0b01#2 ++ b).getLsbD 8 = true ∧ (0b01#2 ++ b).setWidth 8 = b := by
  revert b
  decide

/-- The two fields of a classification word (R65). -/
theorem class_append (n : BitVec 3) (b : Byte) :
    (n ++ b).extractLsb' 8 3 = n ∧ (n ++ b).setWidth 8 = b := by
  constructor
  · exact BitVec.extractLsb'_append_eq_left
  · exact BitVec.setWidth_append_eq_right

/-- A state's number names it. -/
theorem ofNumber_number (st : ParserState) : ParserState.ofNumber st.number = some st := by cases st <;> rfl

/-- A classification word decodes to the row of its state and byte. -/
theorem decode_wordW (c : Config) (st : ParserState) (b : Byte) :
    decode c (wordW st b) = .ok ((classify c st b).instr b) := by
  show decodeW c (st.number ++ b) = _
  simp only [decodeW, (class_append st.number b).1, (class_append st.number b).2, ofNumber_number]

/-- A length below 256 is its own byte. -/
theorem byteOf_toNat {n : Nat} (h : n ≤ 255) : (byteOf n).toNat = n := by
  simp only [byteOf, BitVec.toNat_ofNat]
  omega

/-- A frame's bytes decode to its type, payload and checksum byte. -/
theorem decodeWire_frameBytes (t : Byte) (p : List Byte) (ck : Byte) (h : p.length ≤ 255) :
    decodeWire (frameBytes t p ck) = .ok (.frame t p ck) := by
  simp [decodeWire, frameBytes, byteOf_toNat h]

theorem reset : Statement .reset := fun _ _ => rfl
theorem bufInit : Statement .bufInit := fun _ _ => rfl
theorem bufWrite (b : Byte) : Statement (.bufWrite b) := fun c _ => by
  show decodeP (1#1 ++ b) = _
  simp only [decodeP, (one_append b).1, (one_append b).2, if_true, Instr.selected]
theorem bufRead : Statement .bufRead := fun _ _ => rfl
theorem bufEmpty : Statement .bufEmpty := fun _ _ => rfl
theorem bufStatus : Statement .bufStatus := fun _ _ => rfl
theorem crc8 (s : List Byte) : Statement (.crc8 s) := fun _ _ => rfl
theorem encPut (i b : Byte) : Statement (.encPut i b) := fun _ _ => rfl
theorem encStart (t : Byte) (n : BitVec 9) : Statement (.encStart t n) := fun _ _ => rfl
theorem encEmit : Statement .encEmit := fun _ _ => rfl
theorem parserFeed (b : Byte) : Statement (.parserFeed b) := fun c _ => by
  show decodeF (0b01#2 ++ b) = _
  simp only [decodeF, (feed_append b).1, (feed_append b).2, if_true, Instr.selected]
  rfl
theorem parserAbort : Statement .parserAbort := fun _ _ => rfl
theorem dispatch (t : Byte) (p : List Byte) (n : Nat) : Statement (.dispatch t p n) := fun _ _ => rfl
theorem feedH1Hit : Statement .feedH1Hit := fun c _ => decode_wordW c .awaitHeader1 hdr1
theorem feedH1Miss (b : Byte) : Statement (.feedH1Miss b) := fun c h => by
  have hb : b ≠ hdr1 := by simpa [Instr.wellFormed] using h
  show decode c (wordW .awaitHeader1 b) = _
  simp only [decode_wordW, classify, if_neg hb, FeedRow.instr, Instr.selected]
theorem feedH2Hit : Statement .feedH2Hit := fun c _ => decode_wordW c .awaitHeader2 hdr2
theorem feedH2Ab : Statement .feedH2Ab := fun c _ => decode_wordW c .awaitHeader2 hdr1
theorem feedH2Miss (b : Byte) : Statement (.feedH2Miss b) := fun c h => by
  have hb : b ≠ hdr1 ∧ b ≠ hdr2 := by simpa [Instr.wellFormed] using h
  show decode c (wordW .awaitHeader2 b) = _
  simp only [decode_wordW, classify, if_neg hb.1, if_neg hb.2, FeedRow.instr, Instr.selected]
theorem feedType (b : Byte) : Statement (.feedType b) := fun c _ => decode_wordW c .readType b
theorem feedLenOk (b : Byte) : Statement (.feedLenOk b) := fun c h => by
  have hb : b.toNat ≤ c.maxPayload := by simpa [Instr.wellFormed] using h
  show decode c (wordW .readLength b) = _
  simp only [decode_wordW, classify, if_pos hb, FeedRow.instr, Instr.selected]
theorem feedLenOver (b : Byte) : Statement (.feedLenOver b) := fun c h => by
  have hb : c.maxPayload < b.toNat := by simpa [Instr.wellFormed] using h
  show decode c (wordW .readLength b) = _
  simp only [decode_wordW, classify, if_neg (Nat.not_le.mpr hb), FeedRow.instr, Instr.selected]
theorem feedPayload (b : Byte) : Statement (.feedPayload b) := fun c _ => decode_wordW c .readPayload b
theorem feedCrc (b : Byte) : Statement (.feedCrc b) := fun c _ => decode_wordW c .readCrc b
theorem dispatchHit (t : Byte) (p : List Byte) : Statement (.dispatchHit t p) := fun c h => by
  have hh : (c.handler t).isSome = true := by
    simp only [Instr.wellFormed, Bool.and_eq_true] at h
    exact h.1
  obtain ⟨k, hk⟩ := Option.isSome_iff_exists.mp hh
  show decodeD c t p = _
  simp only [decodeD, hk, Instr.selected]
theorem dispatchDefault (t : Byte) (p : List Byte) : Statement (.dispatchDefault t p) := fun c h => by
  have hh : (c.handler t).isNone = true := by
    simp only [Instr.wellFormed, Bool.and_eq_true] at h
    exact h.1
  have hk : c.handler t = none := Option.isNone_iff_eq_none.mp hh
  show decodeD c t p = _
  simp only [decodeD, hk, Instr.selected]
theorem frame (t : Byte) (p : List Byte) (ck : Byte) : Statement (.frame t p ck) := fun c h => by
  have hp : p.length ≤ 255 := by
    simp only [Instr.wellFormed, Config.payloadFits, Bool.and_eq_true, decide_eq_true_eq] at h
    exact h.1.1
  exact decodeWire_frameBytes t p ck hp

end Sys2Proof.Laws.EncodeRoundTrip
end

