-- ==== Sys2Proof/Laws/Queue.lean ====
section
/-! SUPPORT. The index arithmetic of the byte queue, and what a push and a pop do to the list of queued bytes. -/

namespace Sys2Proof.Machine

/-- What the laws of the queue need of it: the part of `QueueInv` that is about the indices and the canonical form. -/
abbrev QueueShape (c : Config) (q : ByteQueue) : Prop :=
  q.head < c.capacity ∧ q.tail < c.capacity ∧ (q.full = true → q.head = q.tail) ∧ q.storage.wf

theorem QueueInv.shape {c : Config} {q : ByteQueue} (h : QueueInv c q) : QueueShape c q :=
  ⟨h.1, h.2.1, h.2.2.1, h.2.2.2.1.1⟩

theorem ByteQueue.length_queued (c : Config) (q : ByteQueue) : (q.queued c).length = q.count c := by
  simp [ByteQueue.queued]

theorem ByteQueue.count_full {c : Config} {q : ByteQueue} (hf : q.full = true) : q.count c = c.capacity := by
  simp [ByteQueue.count, hf]

/-- The count of a queue that is not full, without a remainder. -/
theorem ByteQueue.count_not_full {c : Config} {q : ByteQueue} (hf : q.full = false) (hh : q.head < c.capacity)
    (ht : q.tail < c.capacity) :
    q.count c = if q.head ≤ q.tail then q.tail - q.head else q.tail + c.capacity - q.head := by
  rw [ByteQueue.count, if_neg (by simp [hf])]
  split
  · rw [Nat.mod_eq_sub_mod (by omega), Nat.mod_eq_of_lt (by omega)]
    omega
  · rw [Nat.mod_eq_of_lt (by omega)]

/-- The advance of an index, without a remainder. -/
theorem advance_eq {c : Config} {i : Nat} (h : i < c.capacity) :
    advance c i = if i + 1 = c.capacity then 0 else i + 1 := by
  unfold advance
  split
  · simp [*]
  · rw [Nat.mod_eq_of_lt]
    omega

theorem advance_lt {c : Config} (h : 0 < c.capacity) (i : Nat) : advance c i < c.capacity := Nat.mod_lt _ h

theorem mod_below_twice {n k : Nat} (h : k < 2 * n) : k % n = if k < n then k else k - n := by
  split
  · exact Nat.mod_eq_of_lt ‹_›
  · rw [Nat.mod_eq_sub_mod (by omega), Nat.mod_eq_of_lt (by omega)]

theorem ByteQueue.count_le {c : Config} {q : ByteQueue} (h : 0 < c.capacity) : q.count c ≤ c.capacity := by
  unfold ByteQueue.count
  split
  · exact le_rfl
  · exact (Nat.mod_lt _ h).le

theorem ByteQueue.isEmpty_iff_count {c : Config} {q : ByteQueue} (h : QueueShape c q) :
    q.isEmpty = true ↔ q.count c = 0 := by
  obtain ⟨hh, ht, -, -⟩ := h
  cases hf : q.full
  · rw [ByteQueue.count_not_full hf hh ht]
    simp only [ByteQueue.isEmpty, hf, Bool.not_false, Bool.true_and, beq_iff_eq]
    split <;> omega
  · rw [ByteQueue.count_full hf]
    simp only [ByteQueue.isEmpty, hf, Bool.not_true, Bool.false_and, Bool.false_eq_true, false_iff]
    omega

theorem ByteQueue.full_iff_count {c : Config} {q : ByteQueue} (h : QueueShape c q) :
    q.full = true ↔ q.count c = c.capacity := by
  obtain ⟨hh, ht, -, -⟩ := h
  cases hf : q.full
  · rw [ByteQueue.count_not_full hf hh ht]
    simp only [Bool.false_eq_true, false_iff]
    split <;> omega
  · simp [ByteQueue.count_full hf]

/-- The next free cell is the one after the queued ones, and none of them. -/
theorem ByteQueue.tail_eq {c : Config} {q : ByteQueue} (h : QueueShape c q) (hf : q.full = false) :
    q.tail = (q.head + q.count c) % c.capacity ∧ ∀ k < q.count c, q.tail ≠ (q.head + k) % c.capacity := by
  obtain ⟨hh, ht, -, -⟩ := h
  have hc := ByteQueue.count_not_full hf hh ht
  have hlt : q.count c < c.capacity := by
    rw [hc]
    split <;> omega
  have htail : q.tail = (q.head + q.count c) % c.capacity := by
    rw [mod_below_twice (by omega), hc]
    repeat' split
    all_goals omega
  refine ⟨htail, fun k hk => ?_⟩
  rw [htail, mod_below_twice (n := c.capacity) (k := q.head + k) (by omega), mod_below_twice (by omega)]
  split <;> split <;> omega

/-- A push adds one to the count. -/
theorem ByteQueue.count_push {c : Config} {q : ByteQueue} (b : Byte) (h : QueueShape c q) (hf : q.full = false) :
    (q.push c b).count c = q.count c + 1 := by
  obtain ⟨hh, ht, -, -⟩ := h
  rw [ByteQueue.count_not_full hf hh ht]
  have hadv := advance_eq ht
  by_cases hx : advance c q.tail = q.head
  · rw [ByteQueue.count_full (by simp [ByteQueue.push, fullAfterWrite, hx])]
    rw [hadv] at hx
    split at hx <;> split <;> omega
  · rw [ByteQueue.count_not_full (q := q.push c b) (by simp [ByteQueue.push, fullAfterWrite, hx]) hh
      (advance_lt (by omega) _)]
    show (if q.head ≤ advance c q.tail then advance c q.tail - q.head
      else advance c q.tail + c.capacity - q.head) = _
    rw [hadv] at hx ⊢
    split at hx <;> split <;> split <;> split <;> omega

/-- A push keeps the shape, adds its byte at the end of the queued ones, and writes the cell after them. -/
theorem ByteQueue.push_spec {c : Config} {q : ByteQueue} (b : Byte) (h : QueueShape c q) (hf : q.full = false) :
    QueueShape c (q.push c b) ∧ (q.push c b).queued c = q.queued c ++ [b] ∧
    (∀ k < q.count c, (q.push c b).storage.lookup ((q.head + k) % c.capacity) =
      q.storage.lookup ((q.head + k) % c.capacity)) ∧
    (q.push c b).storage.lookup ((q.head + q.count c) % c.capacity) = some b := by
  have hcount := ByteQueue.count_push b h hf
  obtain ⟨htail, hother⟩ := ByteQueue.tail_eq h hf
  obtain ⟨hh, ht, -, hwf⟩ := h
  have hold : ∀ k < q.count c, (q.push c b).storage.lookup ((q.head + k) % c.capacity) =
      q.storage.lookup ((q.head + k) % c.capacity) :=
    fun k hk => Memory.lookup_write_other _ _ hwf (hother k hk)
  have hnew : (q.push c b).storage.lookup ((q.head + q.count c) % c.capacity) = some b := by
    rw [← htail]
    exact Memory.lookup_write_same _ _ _ hwf
  refine ⟨⟨hh, advance_lt (by omega) _, fun hx => ?_, Memory.wf_write hwf _ _⟩, ?_, hold, hnew⟩
  · exact (beq_iff_eq.mp (show (advance c q.tail == q.head) = true from hx)).symm
  · simp only [ByteQueue.queued, hcount, List.range_succ, List.map_append, List.map_cons, List.map_nil]
    congr 1
    · exact List.map_congr_left fun k hk => heldByte_congr (hold k (by simpa using hk))
    · exact congrArg ([·]) (heldByte_of_lookup hnew)

/-- A pop takes one from the count. -/
theorem ByteQueue.count_pop {c : Config} {q : ByteQueue} (h : QueueShape c q) (he : q.isEmpty = false) :
    (q.pop c).count c + 1 = q.count c := by
  have hne := (ByteQueue.isEmpty_iff_count h).not.mp (by simp [he])
  obtain ⟨hh, ht, hfull, -⟩ := h
  have hadv := advance_eq hh
  rw [ByteQueue.count_not_full (q := q.pop c) rfl (advance_lt (by omega) _) ht]
  show (if advance c q.head ≤ q.tail then q.tail - advance c q.head
    else q.tail + c.capacity - advance c q.head) + 1 = _
  rw [hadv]
  cases hf : q.full
  · have hc := ByteQueue.count_not_full hf hh ht
    repeat' split
    all_goals split at hc <;> omega
  · have hc := ByteQueue.count_full (c := c) hf
    have := hfull hf
    repeat' split
    all_goals omega

/-- A pop keeps the shape, and takes the first of the queued bytes. -/
theorem ByteQueue.pop_spec {c : Config} {q : ByteQueue} (h : QueueShape c q) (he : q.isEmpty = false) :
    QueueShape c (q.pop c) ∧ q.queued c = heldByte .storage q.storage q.head :: (q.pop c).queued c ∧
    ∀ k, ((q.pop c).head + k) % c.capacity = (q.head + (k + 1)) % c.capacity := by
  have hcount := ByteQueue.count_pop h he
  obtain ⟨hh, ht, -, hwf⟩ := h
  have hidx : ∀ k, (advance c q.head + k) % c.capacity = (q.head + (k + 1)) % c.capacity := by
    intro k
    simp only [advance, Nat.mod_add_mod]
    congr 1
    omega
  refine ⟨⟨advance_lt (by omega) _, ht, fun hx => absurd hx (by simp [ByteQueue.pop]), hwf⟩, ?_, hidx⟩
  simp only [ByteQueue.queued, ← hcount, List.range_succ_eq_map, List.map_cons, List.map_map]
  congr 1
  · simp [Nat.mod_eq_of_lt hh]
  · exact List.map_congr_left fun k _ => congrArg (heldByte .storage q.storage) (hidx k).symm

/-- A queue of the invariant pushed to is a queue of the invariant. -/
theorem ByteQueue.push_inv {c : Config} {q : ByteQueue} (b : Byte) (h : QueueInv c q) (hf : q.full = false) :
    QueueInv c (q.push c b) := by
  obtain ⟨⟨h1, h2, h3, h4⟩, -, hold, hnew⟩ := ByteQueue.push_spec b (QueueInv.shape h) hf
  have hcount := ByteQueue.count_push b (QueueInv.shape h) hf
  obtain ⟨-, ht, -, hm, hw⟩ := h
  refine ⟨h1, h2, h3, ⟨h4, Memory.below_write hm.2 ht _⟩, fun k hk => ?_⟩
  show ((q.push c b).storage.lookup ((q.head + k) % c.capacity)).isSome = true
  rcases Nat.lt_succ_iff_lt_or_eq.mp (hcount ▸ hk) with hk | rfl
  · rw [hold k hk]
    exact hw k hk
  · rw [hnew]
    rfl

/-- A queue of the invariant popped from is a queue of the invariant. -/
theorem ByteQueue.pop_inv {c : Config} {q : ByteQueue} (h : QueueInv c q) (he : q.isEmpty = false) :
    QueueInv c (q.pop c) := by
  obtain ⟨⟨h1, h2, h3, -⟩, -, hidx⟩ := ByteQueue.pop_spec (QueueInv.shape h) he
  have hcount := ByteQueue.count_pop (QueueInv.shape h) he
  obtain ⟨-, -, -, hm, hw⟩ := h
  refine ⟨h1, h2, h3, hm, fun k hk => ?_⟩
  show (q.storage.lookup (((q.pop c).head + k) % c.capacity)).isSome = true
  rw [hidx k]
  exact hw _ (by omega)

/-- An initialised queue is a queue of the invariant. -/
theorem ByteQueue.init_inv {c : Config} {q : ByteQueue} (h1 : 1 ≤ c.capacity) (hm : MemoryInv c .storage q.storage) :
    QueueInv c q.init := by
  refine ⟨h1, h1, fun h => absurd h (by simp [ByteQueue.init]), hm, fun k hk => ?_⟩
  simp [ByteQueue.init, ByteQueue.count] at hk

/-- The queue after an edge with both requests is a serial order of a pop and a push (R48). -/
theorem ByteQueue.edge_both {c : Config} {q : ByteQueue} (b : Byte) (h : QueueShape c q) (hf : q.full = false)
    (he : q.isEmpty = false) :
    q.edge c b true true = (q.pop c).push c b ∧ q.edge c b true true = (q.push c b).pop c := by
  have hne := (ByteQueue.isEmpty_iff_count h).not.mp (by simp [he])
  have hnf := (ByteQueue.full_iff_count h).not.mp (by simp [hf])
  obtain ⟨hh, ht, -, -⟩ := h
  have hc := ByteQueue.count_not_full hf hh ht
  have hx : advance c q.tail ≠ advance c q.head := by
    rw [advance_eq ht, advance_eq hh]
    repeat' split
    all_goals split at hc <;> omega
  constructor
  · simp [ByteQueue.edge, ByteQueue.pop, ByteQueue.push, fullAfterEdge, fullAfterWrite, hx]
  · simp [ByteQueue.edge, ByteQueue.pop, ByteQueue.push, fullAfterEdge]

end Sys2Proof.Machine
end

