-- ==== Sys2Proof/Laws/Step.lean ====
section
/-! SUPPORT. What one request alone can do, said once, and operations one after another. -/

namespace Sys2Proof.Machine

/-- A request that is an input of the build runs the operation it decodes to. -/
theorem runCmd_decoded {w : Cmd} {i : Instr} {s : State} (hi : isInput s.cfg w = true) (hd : decode s.cfg w = .ok i) :
    runCmd w s = exec i s := by
  simp only [runCmd, hi, hd, if_true]

/-- A request that is no input of the build reaches nothing. -/
theorem runCmd_not_input {w : Cmd} {s : State} (hi : isInput s.cfg w = false) : runCmd w s = .next s := by
  simp only [runCmd, hi, Bool.false_eq_true, if_false]

/-- The next state of one request: nothing happened, the decoded operation ran, or bytes that are no frame were fed. -/
theorem runCmd_cases {w : Cmd} {s t : State} (h : runCmd w s = .next t) :
    t = s ∨ (∃ i, isInput s.cfg w = true ∧ decode s.cfg w = .ok i ∧ exec i s = .next t) ∨
    ∃ bytes, isInput s.cfg w = true ∧ w = .wire bytes ∧ feedAll bytes s = .next t := by
  unfold runCmd at h
  split at h
  · rename_i hi
    split at h
    · exact .inr (.inl ⟨_, hi, ‹_›, h⟩)
    · rename_i x hx
      cases x <;> simp only [runRejected, runRejected.runWire] at h
      case noParserState => cases h
      case idle => cases h; exact .inl rfl
      case reservedEncRequest => cases h; exact .inl rfl
      all_goals
        split at h
        · exact .inr (.inr ⟨_, hi, rfl, h⟩)
        · cases h; exact .inl rfl
  · cases h; exact .inl rfl

@[simp] theorem execAll_nil (s : State) : execAll [] s = .next s := rfl
@[simp] theorem execAll_cons (i : Instr) (l : List Instr) (s : State) :
    execAll (i :: l) s = andThen (exec i s) (execAll l) := rfl

/-- Operations one after the other, in two parts. -/
theorem execAll_append (l m : List Instr) (s : State) :
    execAll (l ++ m) s = andThen (execAll l s) (execAll m) := by
  induction l generalizing s with
  | nil => rfl
  | cons i l ih =>
    rw [List.cons_append, execAll_cons, execAll_cons, andThen_assoc]
    congr 1
    exact funext ih

end Sys2Proof.Machine
end

