-- ==== Sys2Proof/Tests/Slice0.lean ====
section
/-! SUPPORT. Tests of the model, each of one step on a small state; expected values are those of 95_test_vectors.md, or of
the encodings of 30_encoding.md written out bit by bit. Then, for every statement with hypotheses, a concrete state and
operands that meet them. -/

namespace Sys2Proof.Tests

open Sys2Proof Sys2Proof.Machine

/-! ### Helpers -/

/-- The result is a next state with the property. -/
def nextIs (r : Result) (p : State → Bool) : Bool :=
  match r with
  | .next s => p s
  | .fault _ => false
  | .refused _ => false

/-- A small build: `CAPACITY = n`, `MAX_PAYLOAD = m`, `CNT_W = 2`, one handler, `HANDLER_MAP(0x10) = Some(0)`. -/
def build (n m : Nat) : Config where
  capacity := n
  maxPayload := m
  nHandlers := 1
  handlerMap := (Vector.replicate 256 none).set 16 (some 0)
  cntW := 2
  integrated := false

/-- A queue. -/
def queueOf (bytes : Memory) (h t : Nat) (f : Bool) : ByteQueue := { storage := bytes, head := h, tail := t, full := f }

/-- The small build after reset, with a queue. -/
def withQ (n : Nat) (q : ByteQueue) : State := (State.resetOf (build n 8)).withQueue q

/-- The small build after reset, with a parser that holds the given bytes. -/
def withP (st : ParserState) (bytes : Memory) (t l : Byte) (cur : Nat) : State :=
  (State.resetOf (build 4 8)).withParser
    { state := st, frameBuffer := bytes, type := t, declaredLength := l, cursor := cur }

/-- The small build after reset, with an encoder that holds one staged byte 0x77 in cell 0. -/
def withE (b : Bool) (len : Byte) (k : Nat) : State :=
  (State.resetOf (build 4 8)).withEnc
    { busy := b, type := 0x05, len := len, idx := k, payload := [(0, 0x77)],
      staged := (Vector.replicate 256 false).set 0 true }

/-- A parser in the middle of a payload: `AB CD 10 03 01` fed. -/
def midPayload : State := withP .readPayload [(0, 0x10), (1, 0x03), (2, 0x01)] 0x10 0x03 3

/-- A parser before the checksum: `AB CD 10 03 01 02 03` fed (V-P1). -/
def beforeCrc : State :=
  withP .readCrc [(0, 0x10), (1, 0x03), (2, 0x01), (3, 0x02), (4, 0x03)] 0x10 0x03 5

/-- `CAPACITY = 3`, two queued bytes 33, 44 with the indices wrapped (V-B2 after row 5, then a read). -/
def wrapped : State := withQ 3 (queueOf [(0, 0x44), (1, 0x22), (2, 0x33)] 2 1 false)

/-- `CAPACITY = 3`, full with equal indices (V-B2 after row 5). -/
def fullQ : State := withQ 3 (queueOf [(0, 0x44), (1, 0x22), (2, 0x33)] 1 1 true)

/-- The build of `wrapped` with the glue, and its queue: the integrated block. -/
def joined : State := (State.resetOf { build 3 8 with integrated := true }).withQueue wrapped.queue

/-- Opens the invariant into its parts and evaluates each. -/
theorem wrapped_inv : BlockInv wrapped := by
  refine ⟨?_, ?_, ?_, ?_, ?_⟩ <;> decide +kernel
theorem beforeCrc_inv : BlockInv beforeCrc := by
  refine ⟨?_, ?_, ?_, ?_, ?_⟩ <;> decide +kernel
theorem joined_inv : BlockInv joined := by
  refine ⟨?_, ?_, ?_, ?_, ?_⟩ <;> decide +kernel

/-! ### WellFormed: for each check an ill-formed term, and a well-formed one beside it -/

theorem test_wf_dispatch_length_operand : (Instr.dispatch 0x10 [1, 2] 3).wellFormed (build 4 8) = false := by decide
theorem test_wf_dispatch_payload_too_long : (Instr.dispatch 0x10 [1, 2] 2).wellFormed (build 4 1) = false := by decide
theorem test_wf_dispatch_good : (Instr.dispatch 0x10 [1, 2] 2).wellFormed (build 4 2) = true := by decide
theorem test_wf_h1_miss_is_not_header1 : (Instr.feedH1Miss 0xAB).wellFormed (build 4 8) = false := by decide
theorem test_wf_h2_miss_is_not_header1 : (Instr.feedH2Miss 0xAB).wellFormed (build 4 8) = false := by decide
theorem test_wf_h2_miss_is_not_header2 : (Instr.feedH2Miss 0xCD).wellFormed (build 4 8) = false := by decide
theorem test_wf_h1_miss_may_be_header2 : (Instr.feedH1Miss 0xCD).wellFormed (build 4 8) = true := by decide
theorem test_wf_len_ok_bound : (Instr.feedLenOk 9).wellFormed (build 4 8) = false := by decide
theorem test_wf_len_over_bound : (Instr.feedLenOver 8).wellFormed (build 4 8) = false := by decide
theorem test_wf_len_bounds_met :
    (Instr.feedLenOk 8).wellFormed (build 4 8) = true ∧ (Instr.feedLenOver 9).wellFormed (build 4 8) = true := by decide
theorem test_wf_hit_needs_a_handler : (Instr.dispatchHit 0x11 []).wellFormed (build 4 8) = false := by decide
theorem test_wf_hit_payload_too_long : (Instr.dispatchHit 0x10 [1]).wellFormed (build 4 0) = false := by decide
theorem test_wf_default_needs_no_handler : (Instr.dispatchDefault 0x10 []).wellFormed (build 4 8) = false := by decide
theorem test_wf_default_payload_too_long : (Instr.dispatchDefault 0x11 [1]).wellFormed (build 4 0) = false := by decide
theorem test_wf_frame_checksum : (Instr.frame 0x10 [1, 2, 3] 0x2D).wellFormed (build 4 8) = false := by decide +kernel
theorem test_wf_frame_payload_too_long : (Instr.frame 0x10 [1, 2, 3] 0x2C).wellFormed (build 4 2) = false := by decide
theorem test_wf_frame_good : (Instr.frame 0x10 [1, 2, 3] 0x2C).wellFormed (build 4 3) = true := by decide +kernel
theorem test_wf_build_ranges :
    (build 1 0).wf = true ∧ (build 0 0).wf = false ∧ (build 1 256).wf = false ∧
      ({ build 1 0 with cntW := 0 } : Config).wf = false ∧ ({ build 1 0 with nHandlers := 0 } : Config).wf = false := by
  decide +kernel

/-! ### Decode: a word of each row, written out from R56, R59 to R67 -/

theorem test_decode_reset : decode (build 4 8) (.r 0b1) = .ok .reset := by rfl
theorem test_encode_buf_init : encode .bufInit = .r 0b1 := by rfl
theorem test_decode_buf_write : decode (build 4 8) (.p 0b101011010) = .ok (.bufWrite 0x5A) := by rfl
theorem test_decode_buf_read : decode (build 4 8) (.c 0b1) = .ok .bufRead := by rfl
theorem test_decode_buf_empty : decode (build 4 8) .observeEmpty = .ok .bufEmpty := by rfl
theorem test_decode_buf_status : decode (build 4 8) .observeStatus = .ok .bufStatus := by rfl
theorem test_decode_crc8 : decode (build 4 8) (.applyCrc8 [1]) = .ok (.crc8 [1]) := by rfl
theorem test_decode_enc_put : decode (build 4 8) (.e 0b10 0x02 0x03 0xFF 0x1FF) = .ok (.encPut 0x02 0x03) := by rfl
theorem test_decode_enc_start : decode (build 4 8) (.e 0b01 0xFF 0xFF 0x10 0x100) = .ok (.encStart 0x10 256) := by rfl
theorem test_decode_enc_emit : decode (build 4 8) (.t 0b1) = .ok .encEmit := by rfl
theorem test_decode_parser_feed : decode (build 4 8) (.f 0b0111001101) = .ok (.parserFeed 0xCD) := by rfl
theorem test_decode_parser_abort : decode (build 4 8) (.f 0b1111001101) = .ok .parserAbort := by rfl
theorem test_decode_dispatch : decode (build 4 8) (.invokeDispatch 0x10 [1] 1) = .ok (.dispatch 0x10 [1] 1) := by rfl
theorem test_decode_h1_hit : decode (build 4 8) (.w 0b00010101011) = .ok .feedH1Hit := by rfl
theorem test_decode_h1_miss : decode (build 4 8) (.w 0b00011001101) = .ok (.feedH1Miss 0xCD) := by rfl
theorem test_decode_h2_hit : decode (build 4 8) (.w 0b00111001101) = .ok .feedH2Hit := by rfl
theorem test_decode_h2_ab : decode (build 4 8) (.w 0b00110101011) = .ok .feedH2Ab := by rfl
theorem test_decode_h2_miss : decode (build 4 8) (.w 0b00100010011) = .ok (.feedH2Miss 0x13) := by rfl
theorem test_decode_type : decode (build 4 8) (.w 0b01000010000) = .ok (.feedType 0x10) := by rfl
theorem test_decode_len_ok : decode (build 4 8) (.w 0b01100001000) = .ok (.feedLenOk 0x08) := by rfl
theorem test_decode_len_over : decode (build 4 8) (.w 0b01100001001) = .ok (.feedLenOver 0x09) := by rfl
theorem test_decode_payload : decode (build 4 8) (.w 0b10000000011) = .ok (.feedPayload 0x03) := by rfl
theorem test_decode_crc : decode (build 4 8) (.w 0b10100101100) = .ok (.feedCrc 0x2C) := by rfl
theorem test_decode_dispatch_hit : decode (build 4 8) (.d 0b00010000 [7]) = .ok (.dispatchHit 0x10 [7]) := by rfl
theorem test_decode_dispatch_default : decode (build 4 8) (.d 0b00010001 [7]) = .ok (.dispatchDefault 0x11 [7]) := by
  rfl
/-- V-X2. -/
theorem test_decode_frame : decode (build 4 8) (.wire [0xAB, 0xCD, 0x10, 0x03, 0x01, 0x02, 0x03, 0x2C]) =
    .ok (.frame 0x10 [0x01, 0x02, 0x03] 0x2C) := by rfl

theorem test_reject_idle_words :
    decode (build 4 8) (.r 0) = .error .idle ∧ decode (build 4 8) (.p 0b001011010) = .error .idle ∧
      decode (build 4 8) (.c 0) = .error .idle ∧ decode (build 4 8) (.f 0b0010101011) = .error .idle ∧
      decode (build 4 8) (.e 0b00 1 2 3 4) = .error .idle ∧ decode (build 4 8) (.t 0) = .error .idle :=
  ⟨rfl, rfl, rfl, rfl, rfl, rfl⟩
theorem test_reject_reserved_enc_request : decode (build 4 8) (.e 0b11 1 2 3 4) = .error .reservedEncRequest := by rfl
theorem test_reject_state_numbers_6_7 :
    decode (build 4 8) (.w 0b11000000000) = .error .noParserState ∧
      decode (build 4 8) (.w 0b11111111111) = .error .noParserState := ⟨rfl, rfl⟩
theorem test_reject_wire :
    decode (build 4 8) (.wire [0xAB, 0xCD, 0x10]) = .error .frameTooShort ∧
      decode (build 4 8) (.wire [0xAA, 0xCD, 0x10, 0x00, 0x00]) = .error .frameHeader ∧
      decode (build 4 8) (.wire [0xAB, 0xCD, 0x10, 0x01, 0x00]) = .error .frameLength ∧
      decode (build 4 8) (.wire [0xAB, 0xCD, 0x10, 0x00, 0x00, 0x00]) = .error .frameLength :=
  ⟨rfl, rfl, rfl, rfl⟩

/-! ### Words of the opcode table, as the first input after reset -/

theorem test_table_words :
    decodeTableWord 8 1 = some .reset ∧ decodeTableWord 8 2 = some (.encPut 0 0) ∧
      decodeTableWord 8 0x42 = some (.dispatchDefault 0x42 []) ∧ decodeTableWord 16 0x0AB = some .feedH1Hit ∧
      decodeTableWord 16 0x1CD = some .feedH2Hit ∧ decodeTableWord 16 0x500 = some (.feedCrc 0) ∧
      decodeTableWord 16 0x600 = none ∧ decodeTableWord 32 0xABCD0000 = some (.frame 0 [] 0) :=
  ⟨rfl, rfl, rfl, rfl, rfl, rfl, rfl, rfl⟩
theorem test_table_frame_with_zero_payload : decodeTableWord 32 0xABCD1002 = some (.frame 0x10 [0, 0] 0) := by rfl
theorem test_step_runs_a_table_word :
    nextIs (step (State.reset.withFetchWord 16 0x0AB)) (fun s => decide (s.parser.state = .awaitHeader2)) = true := by
  rfl
theorem test_step_runs_a_table_row_of_its_state :
    nextIs (step (State.reset.withFetchWord 16 0x234)) (fun s => decide (s.parser.state = .readLength ∧
      s.parser.type = 0x34 ∧ s.parser.frameBuffer = [(0, 0x34)])) = true := by rfl
/-- `CRC8([00, 00]) = 00` (V-C1), so the table's frame of zeros is dispatched. -/
theorem test_step_runs_a_table_frame :
    nextIs (step (State.reset.withFetchWord 32 0xABCD0000)) (fun s =>
      decide (s.disp = [{ sel := .fallback, t := 0, n := 0, p := [] }])) = true := by decide +kernel

/-! ### The byte queue (V-B1, V-B2, V-B4, V-B5, V-B6) -/

theorem test_write_wraps_and_fills :
    nextIs (exec (.bufWrite 0x44) (withQ 3 (queueOf [(0, 0x11), (1, 0x22), (2, 0x33)] 1 0 false))) (fun s =>
      s.out.wrOk && decide (s.queue = fullQ.queue)) = true := by rfl
/-- V-B2 row 6, and V-B6: the count stays at its maximum. -/
theorem test_write_on_full_is_dropped :
    nextIs (exec (.bufWrite 0x55) fullQ) (fun s =>
      !s.out.wrOk && decide (s.queue = fullQ.queue ∧ s.counters.ovf = 1 ∧ s.raised = [.bufferFull 0x55])) = true ∧
    nextIs (exec (.bufWrite 0x55) (fullQ.withCounters { ovf := 3, oversize := 0 })) (fun s =>
      decide (s.counters.ovf = 3)) = true := ⟨rfl, rfl⟩
theorem test_read_wraps :
    nextIs (exec .bufRead wrapped) (fun s =>
      decide (s.out.rd = some 0x33 ∧ s.queue.head = 0 ∧ s.queue.tail = 1 ∧ s.queue.full = false)) = true := by rfl
theorem test_read_of_empty :
    nextIs (exec .bufRead (withQ 1 (queueOf [(0, 0x5A)] 0 0 false))) (fun s =>
      decide (s.out.rd = none ∧ s.queue.head = 0)) = true := by rfl
theorem test_status_of_wrapped_queue :
    nextIs (exec .bufStatus (withQ 5 (queueOf [] 4 1 false))) (fun s => decide (s.out.status = some (false, 2))) = true := by
  rfl
theorem test_status_of_full_queue :
    nextIs (exec .bufStatus (withQ 5 (queueOf [] 3 3 true))) (fun s => decide (s.out.status = some (true, 5))) = true := by
  rfl
theorem test_empty_uses_full :
    nextIs (exec .bufEmpty fullQ) (fun s => decide (s.out.isEmpty = some false)) = true := by rfl
theorem test_init_keeps_storage :
    nextIs (exec .bufInit fullQ) (fun s => decide (s.queue = queueOf fullQ.queue.storage 0 0 false)) = true := by rfl
/-- V-B5 row 2. -/
theorem test_write_and_read_on_one_edge :
    nextIs (runEdge { Edge.idle with p := 0b110100010, c := 1 } (withQ 2 (queueOf [(0, 0xA1)] 0 1 false))) (fun s =>
      s.out.wrOk && decide (s.out.rd = some 0xA1 ∧ s.queue = queueOf [(0, 0xA1), (1, 0xA2)] 1 0 false)) = true := by rfl
/-- V-B5 row 4. -/
theorem test_write_and_read_of_full_on_one_edge :
    nextIs (runEdge { Edge.idle with p := 0b110100100, c := 1 }
      (withQ 2 (queueOf [(0, 0xA3), (1, 0xA2)] 1 1 true))) (fun s =>
      !s.out.wrOk && decide (s.out.rd = some 0xA2 ∧ s.counters.ovf = 1 ∧
        s.queue = queueOf [(0, 0xA3), (1, 0xA2)] 0 1 false)) = true := by rfl

/-! ### The checksum (V-C1, V-C2) -/

theorem test_crc_values :
    crc8 [0x01] = 0x5E ∧ crc8 [0x80] = 0x8C ∧ crc8 [0xFF] = 0x35 ∧ crc8 [0x10, 0x03, 0x01, 0x02, 0x03] = 0x2C := by
  decide +kernel
theorem test_crc_is_presented :
    nextIs (exec (.crc8 [0x10, 0x03]) (withQ 1 (queueOf [] 0 0 false))) (fun s => decide (s.out.crc = some 0x0E)) = true := by
  decide +kernel

/-! ### The encoder (V-E2, V-E3, V-E6, V-E7, V-E8) -/

theorem test_encode_frames :
    encodeFrame 255 0xAB [0xAB, 0xCD] = some [0xAB, 0xCD, 0xAB, 0x02, 0xAB, 0xCD, 0x88] ∧
      encodeFrame 255 0x01 [] = some [0xAB, 0xCD, 0x01, 0x00, 0xC4] := by decide +kernel
theorem test_put_stages :
    nextIs (exec (.encPut 7 0x03) (withE false 0 0)) (fun s =>
      s.out.encPutOk && decide (s.enc.payload = [(0, 0x77), (7, 0x03)])) = true := by rfl
theorem test_put_beyond_max_payload :
    nextIs (exec (.encPut 8 0x03) (withE false 0 0)) (fun s =>
      !s.out.encPutOk && decide (s.enc.payload = [(0, 0x77)])) = true := by rfl
theorem test_start_takes_nine_bits :
    nextIs (exec (.encStart 0x01 256) ((withE false 0 0))) (fun s => !s.out.encOk && !s.enc.busy) = true := by rfl
theorem test_start_at_max_payload :
    nextIs (exec (.encStart 0x01 8) (withE false 0 0)) (fun s =>
      s.out.encOk && s.enc.busy && decide (s.enc.len = 8 ∧ s.tx = [])) = true := by rfl
theorem test_emit_staged_byte :
    nextIs (exec .encEmit (withE true 1 4)) (fun s => decide (s.tx = [0x77] ∧ s.enc.idx = 5) && s.enc.busy) = true := by
  rfl
/-- V-E8 step 8. -/
theorem test_emit_checksum_ends_the_frame :
    nextIs (exec .encEmit ((withE true 0 4).withEnc { (withE true 0 4).enc with type := 0x01 })) (fun s =>
      decide (s.tx = [0xC4] ∧ s.enc.idx = 4) && !s.enc.busy) = true := by decide +kernel
theorem test_edge_last_byte_and_start :
    nextIs (runEdge { Edge.idle with e := 0b01, typeIn := 0x02, lenIn := 0, t := 1 } (withE true 0 4)) (fun s =>
      !s.out.encOk && !s.enc.busy && decide (s.enc.type = 0x05)) = true := by rfl

/-! ### The parser (V-P1, V-P5, V-P7) -/

theorem test_feed_header1 :
    nextIs (exec (.parserFeed 0xAB) State.reset) (fun s => decide (s.parser.state = .awaitHeader2)) = true := by rfl
theorem test_feed_second_ab :
    nextIs (exec .feedH2Ab (withP .awaitHeader2 [] 0 0 0)) (fun s => decide (s.parser.state = .awaitHeader2)) = true := by
  rfl
theorem test_feed_header2_clears_cursor :
    nextIs (exec .feedH2Hit (withP .awaitHeader2 [] 0 0 4)) (fun s =>
      decide (s.parser.state = .readType ∧ s.parser.cursor = 0)) = true := by rfl
theorem test_feed_type :
    nextIs (exec (.feedType 0x10) (withP .readType [] 0 0 0)) (fun s =>
      decide (s.parser = (withP .readLength [(0, 0x10)] 0x10 0 1).parser)) = true := by rfl
theorem test_feed_length_zero :
    nextIs (exec (.feedLenOk 0x00) (withP .readLength [(0, 0x10)] 0x10 0x09 1)) (fun s =>
      decide (s.parser = (withP .readCrc [(0, 0x10), (1, 0x00)] 0x10 0x00 2).parser)) = true := by rfl
theorem test_feed_length_at_max :
    nextIs (exec (.parserFeed 0x08) (withP .readLength [(0, 0x10)] 0x10 0 1)) (fun s =>
      decide (s.parser.state = .readPayload ∧ s.parser.declaredLength = 8)) = true := by rfl
theorem test_feed_length_over :
    nextIs (exec (.feedLenOver 0x09) (withP .readLength [(0, 0x10)] 0x10 0 1)) (fun s =>
      s.out.oversizeEvt && decide (s.parser = (withP .awaitHeader1 [(0, 0x10)] 0x10 0 1).parser ∧
        s.counters.oversize = 1 ∧ s.raised = [.oversizeLength 0x10 0x09])) = true := by rfl
theorem test_feed_payload :
    nextIs (exec (.feedPayload 0x02) midPayload) (fun s =>
      decide (s.parser.state = .readPayload ∧ s.parser.cursor = 4 ∧
        s.parser.frameBuffer = [(0, 0x10), (1, 0x03), (2, 0x01), (3, 0x02)])) = true := by rfl
theorem test_feed_last_payload_byte :
    nextIs (exec (.feedPayload 0x03) (withP .readPayload [(0, 0x10), (1, 0x03), (2, 0x01), (3, 0x02)] 0x10 0x03 4))
      (fun s => decide (s.parser = beforeCrc.parser)) = true := by rfl
theorem test_feed_crc_match :
    nextIs (exec (.feedCrc 0x2C) beforeCrc) (fun s =>
      decide (s.disp = [{ sel := .handler 0, t := 0x10, n := 3, p := [0x01, 0x02, 0x03] }] ∧
        s.parser.state = .awaitHeader1 ∧ s.parser.cursor = 5)) = true := by decide +kernel
theorem test_feed_crc_mismatch_is_silent :
    nextIs (exec (.feedCrc 0x2D) beforeCrc) (fun s =>
      decide (s.disp = [] ∧ s.raised = [] ∧ s.counters = beforeCrc.counters ∧ s.parser.state = .awaitHeader1)) = true := by
  decide +kernel
theorem test_abort_keeps_the_rest :
    nextIs (exec .parserAbort midPayload) (fun s =>
      decide (s.parser = { midPayload.parser with state := .awaitHeader1 })) = true := by rfl
/-- V-P1, from a fresh parser. -/
theorem test_frame :
    nextIs (exec (.frame 0x10 [0x01, 0x02, 0x03] 0x2C) (State.resetOf (build 4 8))) (fun s =>
      decide (s.disp = [{ sel := .handler 0, t := 0x10, n := 3, p := [0x01, 0x02, 0x03] }] ∧
        s.parser.frameBuffer = beforeCrc.parser.frameBuffer)) = true := by decide +kernel
/-- V-X1. -/
theorem test_resync :
    nextIs (feedAll [0xAB, 0xAB, 0xCD, 0x42, 0x00, 0x0A] (State.resetOf (build 4 8))) (fun s =>
      decide (s.disp = [{ sel := .fallback, t := 0x42, n := 0, p := [] }])) = true := by decide +kernel
/-- V-P10: a flipped length bit can give an event. -/
theorem test_flipped_length_bit_gives_an_event :
    nextIs (feedAll [0xAB, 0xCD, 0x10, 0x01, 0x55, 0x6A, 0x77, 0x7C] (State.resetOf (build 4 8))) (fun s =>
      decide (s.disp = [{ sel := .handler 0, t := 0x10, n := 1, p := [0x55] }])) = true := by decide +kernel
theorem test_row_not_selected :
    exec .feedH1Hit midPayload = .refused .rowNotSelected := by rfl

/-! ### Dispatch and reset (V-D1, V-R1) -/

theorem test_dispatch_hit :
    nextIs (exec (.dispatchHit 0x10 [1, 2, 3]) (withE false 0 0)) (fun s =>
      decide (s.disp = [{ sel := .handler 0, t := 0x10, n := 3, p := [1, 2, 3] }] ∧ s.out.disp = s.disp.head?)) = true := by
  rfl
theorem test_dispatch_default :
    nextIs (exec (.dispatchDefault 0x99 []) (withE false 0 0)) (fun s =>
      decide (s.disp = [{ sel := .fallback, t := 0x99, n := 0, p := [] }])) = true := by rfl
theorem test_dispatch :
    nextIs (exec (.dispatch 0x10 [7] 1) (withE false 0 0)) (fun s =>
      decide (s.disp = [{ sel := .handler 0, t := 0x10, n := 1, p := [7] }])) = true := by rfl
theorem test_reset :
    nextIs (exec .reset ((withE true 1 2).withCounters { ovf := 3, oversize := 2 })) (fun s =>
      decide (s.enc.busy = false ∧ s.enc.idx = 0 ∧ s.enc.type = 0x05 ∧ s.enc.payload = [(0, 0x77)] ∧
        s.counters = { ovf := 0, oversize := 0 })) = true := by rfl
theorem test_reset_beats_a_write :
    nextIs (runEdge { Edge.idle with r := 1, p := 0b101011010 } (withQ 1 (queueOf [] 0 0 false))) (fun s =>
      !s.out.wrOk && s.queue.storage.isEmpty) = true := by rfl

/-! ### What a step takes as input (R60, R123, R126) -/

theorem test_placed_type_byte_dispatches_inside_feed_crc :
    nextIs (step (State.reset.withFetchWord 8 0x42)) (fun s =>
      decide (s.disp = [{ sel := .fallback, t := 0x42, n := 0, p := [] }] ∧ s.parser.state = .awaitHeader1)) = true := by
  decide +kernel
theorem test_dispatch_is_no_request :
    nextIs (step (wrapped.withSchedule [.cmd (.invokeDispatch 0x10 [7] 1), .cmd (.d 0x10 [])])) (fun s =>
      decide (s.disp = [] ∧ s.schedule = [.cmd (.d 0x10 [])])) = true := by decide
theorem test_no_lone_read_in_the_integrated_block :
    nextIs (step (joined.withSchedule [.cmd (.c 1)])) (fun s => decide (s.queue = joined.queue ∧ s.out.rd = none)) =
      true := by decide
theorem test_glue_reads_and_feeds :
    nextIs (runEdge { Edge.idle with rxRun := 1 } (joined.goto .readType)) (fun s =>
      decide (s.queue.head = 0 ∧ s.parser.type = 0x33 ∧ s.out.rd = some 0x33)) = true := by decide

/-! ### Witnesses: the hypotheses of each statement are met -/

theorem witness_ResetOverridesEveryPort :
    let e : Edge := { Edge.idle with r := 1, p := 0b101011010 }
    (fullQ.withSchedule [.edge e]).schedule = .edge e :: [] ∧ e.r = 1 := ⟨rfl, rfl⟩
theorem witness_ResetStateMeetsInvariant : Config.sample.wf = true ∧ (build 1 0).wf = true := by decide +kernel
theorem witness_BufWriteAppends :
    let s := withQ 3 (queueOf [(1, 0x22)] 1 2 false)
    s.queue.full = false ∧ s.queue.tail < s.cfg.capacity ∧ s.queue.storage.wf ∧
      (s.queue.tail + 1) % s.cfg.capacity = 0 := by decide
theorem witness_BufWriteOnFullQueueIsCounted :
    fullQ.queue.full = true ∧ fullQ.counters.ovf ≠ 2 ^ fullQ.cfg.cntW - 1 ∧
      (fullQ.withCounters { ovf := 3, oversize := 0 }).counters.ovf = 2 ^ fullQ.cfg.cntW - 1 := by decide
theorem witness_BufReadTakesTheOldest_empty :
    let s := withQ 3 (queueOf [] 2 2 false)
    s.queue.full = false ∧ s.queue.head = s.queue.tail := by decide
theorem witness_BufReadTakesTheOldest_full :
    ¬ (fullQ.queue.full = false ∧ fullQ.queue.head = fullQ.queue.tail) ∧ fullQ.queue.head < fullQ.cfg.capacity := by
  decide
theorem witness_CountIsTheNumberOfQueuedBytes : BlockInv wrapped ∧ wrapped.queue.count wrapped.cfg = 2 :=
  ⟨wrapped_inv, by decide⟩
theorem witness_QueueRefinesAList_below :
    QueueInv wrapped.cfg wrapped.queue ∧ (wrapped.queue.queued wrapped.cfg).length < wrapped.cfg.capacity ∧
      (wrapped.queue.queued wrapped.cfg).length + [(0x66 : Byte)].length ≤ wrapped.cfg.capacity := by decide
theorem witness_QueueRefinesAList_full :
    QueueInv fullQ.cfg fullQ.queue ∧ ¬ (fullQ.queue.queued fullQ.cfg).length < fullQ.cfg.capacity := by decide
theorem witness_QueueRefinesAList_empty :
    let s := withQ 3 (queueOf [] 2 2 false)
    QueueInv s.cfg s.queue ∧ s.queue.count s.cfg = 0 := by decide
theorem witness_ExactlyCapacityWritesSucceed :
    let s := withQ 1 (queueOf [(0, 0x5A)] 0 0 true)
    let l : List Byte := [0x11]
    1 ≤ s.cfg.capacity ∧ s.queue.storage.wf ∧ (∃ s0, exec .bufInit s = .next s0) ∧ l.length = s.cfg.capacity ∧
      ([] : List Byte) <+: l ∧ [] ≠ l := ⟨by decide, by decide, ⟨_, rfl⟩, rfl, by decide, by decide⟩
theorem witness_ExactlyCapacityWritesSucceed_prefix :
    let l : List Byte := [0x11, 0x22, 0x33]
    l.length = fullQ.cfg.capacity ∧ [0x11, 0x22] <+: l ∧ [0x11, 0x22] ≠ l := by decide
theorem witness_FullAndEmptyHaveEqualIndices :
    1 ≤ fullQ.cfg.capacity ∧ fullQ.queue.storage.wf ∧ (∃ s0, exec .bufInit fullQ = .next s0) ∧
      ([0x11, 0x22, 0x33] : List Byte).length = fullQ.cfg.capacity := ⟨by decide, by decide, ⟨_, rfl⟩, rfl⟩
theorem witness_SameEdgeWriteAndReadIsSerial_middle :
    QueueInv wrapped.cfg wrapped.queue ∧ wrapped.cfg.integrated = false ∧
      wrapped.queue.count wrapped.cfg < wrapped.cfg.capacity ∧ 0 < wrapped.queue.count wrapped.cfg := by decide
theorem witness_SameEdgeWriteAndReadIsSerial_full :
    QueueInv fullQ.cfg fullQ.queue ∧ 0 < fullQ.queue.count fullQ.cfg ∧
      ¬ fullQ.queue.count fullQ.cfg < fullQ.cfg.capacity := by decide
theorem witness_SameEdgeWriteAndReadIsSerial_empty :
    let s := withQ 2 (queueOf [] 0 0 false)
    QueueInv s.cfg s.queue ∧ s.queue.count s.cfg < s.cfg.capacity ∧ s.queue.count s.cfg = 0 := by decide
theorem witness_Crc8Algebra :
    ([0x10, 0x03] : List Byte).length = ([0x80, 0x00] : List Byte).length ∧ 7 < 8 ∧
      0 < ([0x10] : List Byte).length ∧ crcTable[(0x10 : Byte).toNat]? = some 0x9D := by decide
theorem witness_EncodeBuildsTheFrame_fits : (1 : Nat) ≤ 255 ∧ ([0x10] : List Byte).length ≤ 1 := by decide
theorem witness_EncodeBuildsTheFrame_too_long : (0 : Nat) ≤ 255 ∧ 0 < ([0x10] : List Byte).length := by decide
theorem witness_EncPutStagesOrRefuses_stages :
    let s := withE false 0 0
    s.enc.busy = false ∧ (7 : Byte).toNat < s.cfg.maxPayload ∧ s.enc.payload.wf := by decide
theorem witness_EncPutStagesOrRefuses_refuses :
    ¬ ((withE true 1 2).enc.busy = false ∧ (0 : Byte).toNat < (withE true 1 2).cfg.maxPayload) ∧
      ¬ ((withE false 0 0).enc.busy = false ∧ (8 : Byte).toNat < (withE false 0 0).cfg.maxPayload) := by decide
theorem witness_EncStartLatchesOrRefuses :
    (withE true 1 2).enc.busy = true ∧ (withE false 0 0).cfg.maxPayload < (256 : BitVec 9).toNat ∧
      (withE false 0 0).enc.busy = false ∧ (8 : BitVec 9).toNat ≤ (withE false 0 0).cfg.maxPayload := by decide
theorem witness_EncEmitSendsTheNextByte :
    ∀ k < 6, (withE true 1 k).enc.busy = true ∧ (withE true 1 k).enc.len.toNat ≤ (withE true 1 k).cfg.maxPayload ∧
      (withE true 1 k).enc.idx = k ∧ (k = 4 → 4 ≤ k ∧ k < 4 + (withE true 1 k).enc.len.toNat) ∧
      (k = 5 → k = 4 + (withE true 1 k).enc.len.toNat) := by decide
theorem witness_SinkTakesTxDataWhenValid :
    (withE true 8 0).enc.len.toNat ≤ (withE true 8 0).cfg.maxPayload ∧ portTxValid (withE true 8 0) = true ∧
      portTxValid (withE false 8 0) = false := by decide
theorem witness_StartedFrameIsEmittedWhole :
    (withE false 0 0).enc.busy = false ∧ (8 : BitVec 9).toNat ≤ (withE false 0 0).cfg.maxPayload ∧
      (withE false 0 0).cfg.maxPayload ≤ 255 := by decide
theorem witness_EncodeDeliversTheFunction :
    (withE false 0 0).enc.busy = false ∧ (withE false 0 0).cfg.maxPayload ≤ 255 ∧ (withE false 0 0).enc.payload.wf := by
  decide
theorem witness_FrameInFlightCannotBeChanged :
    (withE true 1 2).enc.busy = true ∧ (∃ t, exec .encEmit (withE true 1 2) = .next t) ∧ Instr.encEmit ≠ .reset :=
  ⟨rfl, ⟨_, rfl⟩, by decide⟩
theorem witness_FrameInFlightCannotBeChanged_put :
    (withE true 1 2).enc.busy = true ∧ (∃ t, exec (.encPut 0 0x77) (withE true 1 2) = .next t) ∧
      Instr.encPut 0 0x77 ≠ .reset ∧ Instr.encPut 0 0x77 ≠ .encEmit := ⟨rfl, ⟨_, rfl⟩, by decide, by decide⟩
theorem witness_FrameInFlightCannotBeChanged_start :
    (withE true 1 2).enc.busy = true ∧ (∃ t, exec (.encStart 2 0) (withE true 1 2) = .next t) ∧
      Instr.encStart 2 0 ≠ .reset ∧ Instr.encStart 2 0 ≠ .encEmit := ⟨rfl, ⟨_, rfl⟩, by decide, by decide⟩
theorem witness_RowsOfAwaitHeader1 :
    State.reset.parser.state = .awaitHeader1 ∧ (0xAA : Byte) ≠ 0xAB := by decide
theorem witness_RowsOfAwaitHeader2 :
    (withP .awaitHeader2 [] 0 0 0).parser.state = .awaitHeader2 ∧ (0x13 : Byte) ≠ 0xCD ∧ (0x13 : Byte) ≠ 0xAB := by
  decide
theorem witness_TypeRowStoresTheType :
    let s := withP .readType [] 0 0 0
    s.parser.state = .readType ∧ s.parser.cursor < s.cfg.maxPayload + 2 ∧ s.parser.frameBuffer.wf := by decide
theorem witness_LengthRowStoresTheLength :
    let s := withP .readLength [(0, 0x10)] 0x10 0 1
    s.parser.state = .readLength ∧ (0 : Byte).toNat ≤ s.cfg.maxPayload ∧ (8 : Byte).toNat ≤ s.cfg.maxPayload ∧
      s.parser.cursor < s.cfg.maxPayload + 2 ∧ s.parser.frameBuffer.wf := by decide
theorem witness_OversizeLengthAbandonsTheFrame :
    let s := withP .readLength [(0, 0x10)] 0x10 0 1
    s.parser.state = .readLength ∧ s.cfg.maxPayload < (9 : Byte).toNat ∧ s.cfg.maxPayload < (255 : Byte).toNat ∧
      s.counters.oversize ≠ 2 ^ s.cfg.cntW - 1 ∧
      ∃ t, exec (.feedLenOver 9) s = .next t ∧ (∀ y p ck, Instr.feedLenOver 9 ≠ .frame y p ck) ∧
        t.raised = s.raised ++ [.oversizeLength 0x10 9] :=
  ⟨rfl, by decide, by decide, by decide, _, rfl, fun _ _ _ h => (nomatch h), rfl⟩
theorem witness_PayloadRowStoresTheByte :
    midPayload.parser.state = .readPayload ∧ midPayload.parser.cursor < midPayload.cfg.maxPayload + 2 ∧
      midPayload.parser.frameBuffer.wf := by decide
theorem witness_CrcRowDispatchesOnAMatch :
    beforeCrc.parser.state = .readCrc ∧ beforeCrc.parser.cursor ≤ beforeCrc.cfg.maxPayload + 2 ∧
      crc8 (beforeCrc.frameRange 0 beforeCrc.parser.cursor) = 0x2C ∧
      crc8 (beforeCrc.frameRange 0 beforeCrc.parser.cursor) ≠ 0x2D ∧
      beforeCrc.cfg.handler beforeCrc.parser.type = some 0 := by decide +kernel
theorem witness_FeedTakesExactlyOneRow :
    BlockInv beforeCrc ∧ FeedRow.type ≠ .crc ∧ (FeedRow.type = .h1Hit → (0x2C : Byte) = hdr1) ∧
      (FeedRow.type = .h2Hit → (0x2C : Byte) = hdr2) ∧ (FeedRow.type = .h2Ab → (0x2C : Byte) = hdr1) :=
  ⟨beforeCrc_inv, by decide, by decide, by decide, by decide⟩
theorem witness_ParserMovesAlongTheGraph :
    (∃ t, exec (.parserFeed 0x02) midPayload = .next t) ∧
      (∃ t, exec (.bufWrite 0x02) midPayload = .next t) ∧ family (.bufWrite 0x02) ≠ .parser ∧
      Instr.bufWrite 0x02 ≠ .reset ∧ (∃ t, exec .parserAbort midPayload = .next t) ∧
      ∃ t, exec .reset midPayload = .next t :=
  ⟨⟨_, rfl⟩, ⟨_, rfl⟩, by decide, by decide, ⟨_, rfl⟩, ⟨_, rfl⟩⟩
theorem witness_DoubledHeaderByteResynchronises :
    State.reset.parser.state = .awaitHeader1 ∧ State.reset.parser.frameBuffer.wf := by decide
theorem witness_BytesWithoutAHeaderAreDiscarded :
    State.reset.parser.state = .awaitHeader1 ∧
      ∀ a z : List Byte, ([0xAB, 0x00, 0xCD] : List Byte) ≠ a ++ [0xAB, 0xCD] ++ z := by
  refine ⟨rfl, fun a z h => ?_⟩
  rcases a with _ | ⟨x, _ | ⟨y, a⟩⟩
  · simp at h
  · simp at h
  · have := congrArg List.length h
    simp at this
    omega
theorem witness_EncodedFrameIsDispatchedOnce :
    let s := State.resetOf (build 4 8)
    s.parser.state = .awaitHeader1 ∧ s.parser.frameBuffer.wf ∧ s.cfg.maxPayload ≤ 255 ∧
      encodeFrame s.cfg.maxPayload 0x10 [1, 2, 3] = some [0xAB, 0xCD, 0x10, 3, 1, 2, 3, 0x2C] := by decide +kernel
theorem witness_FrameWithWrongChecksumIsSilent :
    let s := State.resetOf (build 4 8)
    s.parser.state = .awaitHeader1 ∧ s.parser.frameBuffer.wf ∧ s.cfg.maxPayload ≤ 255 ∧
      ([1, 2, 3] : List Byte).length ≤ s.cfg.maxPayload ∧ (0x2D : Byte) ≠ frameChecksum 0x10 [1, 2, 3] := by
  decide +kernel
theorem witness_FlippedBitIsNotDispatched :
    let s := State.resetOf (build 4 8)
    7 < 8 ∧ s.parser.state = .awaitHeader1 ∧ s.parser.frameBuffer.wf ∧ s.cfg.maxPayload ≤ 255 ∧
      ([1, 2, 3] : List Byte).length ≤ s.cfg.maxPayload ∧ 2 < ([1, 2, 3] : List Byte).length := by decide
theorem witness_PayloadCellLifetime :
    let s := beforeCrc.goto .awaitHeader1
    s.parser.state = .awaitHeader1 ∧ s.parser.frameBuffer.wf ∧ ([0xAB, 0xCD, 0x11, 0x03] : List Byte).length ≤ 4 + 0 ∧
      (∃ t, feedAll [0xAB, 0xCD, 0x11, 0x03] s = .next t) ∧ (∃ t, exec (.bufWrite 1) s = .next t) ∧
      family (.bufWrite 1) ≠ .parser ∧ ∃ t, exec .parserAbort s = .next t :=
  ⟨rfl, by decide, by decide, ⟨_, rfl⟩, ⟨_, rfl⟩, by decide, ⟨_, rfl⟩⟩
theorem witness_DispatchEmitsOneEvent :
    fullQ.cfg.handler 0x10 = some 0 ∧ fullQ.cfg.handler 0x99 = none := by decide
theorem witness_EventsComeOnlyFromValidFrames :
    BlockInv beforeCrc ∧ (∃ t, exec (.parserFeed 0x2C) beforeCrc = .next t) ∧
      BlockInv (beforeCrc.withSchedule [.cmd (.f 0b0100101100)]) ∧
      (∃ t, step (beforeCrc.withSchedule [.cmd (.f 0b0100101100)]) = .next t) ∧
      beforeCrc.schedule = [] ∧ ∃ t, step beforeCrc = .next t :=
  ⟨beforeCrc_inv, ⟨_, rfl⟩, beforeCrc_inv, ⟨_, rfl⟩, rfl, _, rfl⟩
theorem witness_StepKeepsTheInvariant :
    BlockInv (beforeCrc.withSchedule [.cmd (.f 0b0100101100)]) ∧
      ∃ t, step (beforeCrc.withSchedule [.cmd (.f 0b0100101100)]) = .next t := ⟨beforeCrc_inv, ⟨_, rfl⟩⟩
theorem witness_StepNeverStops :
    BlockInv (wrapped.withSchedule [.cmd (.c 1)]) ∧
      ∀ w rest, (wrapped.withSchedule [.cmd (.c 1)]).schedule ≠ .cmd (.w w) :: rest :=
  ⟨wrapped_inv, fun _ _ h => nomatch h⟩
theorem witness_BuildNeverChanges :
    (∃ t, exec .reset fullQ = .next t) ∧ ∃ t, step (fullQ.withSchedule [.cmd (.r 1)]) = .next t := ⟨⟨_, rfl⟩, ⟨_, rfl⟩⟩
theorem witness_PathsShareNoState :
    family (.parserFeed 0x2C) = .parser ∧ (∃ t, exec (.parserFeed 0x2C) beforeCrc = .next t) ∧
      family .bufRead = .queue ∧ (∃ t, exec .bufRead wrapped = .next t) ∧
      family (.dispatch 0x10 [] 0) = .registry ∧ (∃ t, exec (.dispatch 0x10 [] 0) wrapped = .next t) ∧
      family .encEmit = .encoder ∧ ∃ t, exec .encEmit (withE true 1 2) = .next t :=
  ⟨rfl, ⟨_, rfl⟩, rfl, ⟨_, rfl⟩, rfl, ⟨_, rfl⟩, rfl, ⟨_, rfl⟩⟩
theorem witness_OneOperationRaisesAtMostOneFault :
    (∃ t, exec (.bufWrite 0x55) fullQ = .next t) ∧ Instr.bufWrite 0x55 ≠ .reset ∧
      ∀ y p ck, Instr.bufWrite 0x55 ≠ .frame y p ck := ⟨⟨_, rfl⟩, by decide, fun _ _ _ h => nomatch h⟩
theorem witness_CountersSaturate :
    1 ≤ (build 4 8).cntW ∧ 3 ≤ 2 ^ (build 4 8).cntW - 1 ∧ 3 = 2 ^ (build 4 8).cntW - 1 ∧
      0 < 2 ^ (build 4 8).cntW - 1 := by decide
theorem witness_StepRunsTheDecodedInstruction :
    (wrapped.withSchedule [.cmd (.c 1)]).schedule = .cmd (.c 1) :: [] ∧ isInput wrapped.cfg (.c 1) = true ∧
      decode (wrapped.withSchedule [.cmd (.c 1)]).cfg (.c 1) = .ok .bufRead ∧ wrapped.schedule = [] ∧
      wrapped.cfg.integrated = false ∧ (∀ t p, Cmd.c 1 ≠ .d t p) ∧ ∀ t p n, Cmd.c 1 ≠ .invokeDispatch t p n :=
  ⟨rfl, rfl, rfl, rfl, rfl, fun _ _ h => (nomatch h), fun _ _ _ h => nomatch h⟩
theorem witness_IdleAndReservedWordsChangeNothing :
    (fullQ.withSchedule [.cmd (.e 0b11 1 2 3 4)]).schedule = .cmd (.e 0b11 1 2 3 4) :: [] ∧
      (fullQ.withSchedule [.edge { Edge.idle with p := 0b010101010 }]).schedule =
        .edge { Edge.idle with p := 0b010101010 } :: [] ∧ (0b010101010 : BitVec 9).getLsbD 8 = false ∧
      Edge.idle.r = 0 ∧ Edge.idle.c = 0 ∧ Edge.idle.f.getLsbD 9 = false ∧ Edge.idle.f.getLsbD 8 = false ∧
      Edge.idle.e = 0b00 ∧ Edge.idle.t = 0 ∧ Edge.idle.rxRun = 0 := ⟨rfl, rfl, rfl, rfl, rfl, rfl, rfl, rfl, rfl, rfl⟩
theorem witness_EdgeWithOneRequestIsTheOperation : fullQ.cfg.integrated = false := rfl
theorem witness_IntegratedBlockReadsAndFeeds :
    joined.cfg.integrated = true ∧ BlockInv joined ∧ joined.queue.isEmpty = false ∧
      joined.queue.head < joined.cfg.capacity ∧ (State.resetOf joined.cfg).queue.isEmpty = true ∧
      (joined.withQueue fullQ.queue).queue.full = true ∧ BlockInv (joined.withQueue fullQ.queue) ∧
      (joined.withSchedule [.cmd (.c 1)]).schedule = .cmd (.c 1) :: [] ∧ ∃ x, Cmd.c 1 = .c x :=
  ⟨rfl, joined_inv, rfl, by decide, rfl, rfl, ⟨joined_inv.1, by decide, joined_inv.2.2⟩, rfl, _, rfl⟩
theorem witness_DrainFeedsTheQueuedBytesInOrder :
    BlockInv wrapped ∧ wrapped.queue.queued wrapped.cfg = [0x33, 0x44] := ⟨wrapped_inv, rfl⟩
theorem witness_DecodeReadsBackEncode :
    (Instr.frame 0x10 [1, 2, 3] 0x2C).wellFormed (build 4 8) = true ∧
      (Instr.feedLenOver 9).wellFormed (build 4 8) = true := by decide +kernel
theorem witness_EdgeEqualsItsOperationsInAnyOrder :
    let e : Edge := { Edge.idle with p := 0b101010101, c := 1, f := 0b0101100110, e := 0b01, t := 1 }
    BlockInv wrapped ∧ e.r = 0 ∧
      [parserOps e wrapped, encoderOps e wrapped, queueOps e wrapped].Perm
        [queueOps e wrapped, parserOps e wrapped, encoderOps e wrapped] ∧ queueOps e wrapped ≠ [] ∧
      parserOps e wrapped = [.parserFeed 0x66] ∧ encoderOps e wrapped = [.encEmit, .encStart 0 0] :=
  ⟨wrapped_inv, rfl, List.perm_append_comm (l₁ := [_, _]) (l₂ := [_]), by decide, by decide, by decide⟩
theorem witness_ClassificationWordsDecode :
    (3 : BitVec 3) ≠ 0 ∧ (8 : Byte).toNat ≤ (build 4 8).maxPayload ∧ ¬ (9 : Byte).toNat ≤ (build 4 8).maxPayload := by
  decide

end Sys2Proof.Tests
end

/-! 00_scope.md: the build is fixed (R8), and the inbound and the outbound path share no state (R3). -/

namespace Sys2Proof.Machine

/-! ### The build (R8, R157) -/

theorem execDispatchHit_cases {y : Byte} {p : List Byte} {s t : State} (h : execDispatchHit y p s = .next t) :
    (s.cfg.handler y).isSome = true ∧ t = s.dispatchTo y p p.length := by
  unfold execDispatchHit at h
  split at h
  · cases h; exact ⟨‹_›, rfl⟩
  · cases h

theorem execDispatchDefault_cases {y : Byte} {p : List Byte} {s t : State}
    (h : execDispatchDefault y p s = .next t) :
    (s.cfg.handler y).isNone = true ∧ t = s.dispatchTo y p p.length := by
  unfold execDispatchDefault at h
  split at h
  · cases h; exact ⟨‹_›, rfl⟩
  · cases h

/-- No operation changes the build. -/
theorem exec_cfg {i : Instr} {s t : State} (h : exec i s = .next t) : t.cfg = s.cfg := by
  cases i with
  | reset | bufInit | bufEmpty | bufStatus | crc8 _ | parserAbort | dispatch _ _ _ => cases h; rfl
  | bufWrite b => rcases execBufWrite_cases h with ⟨-, rfl⟩ | ⟨-, -, rfl⟩ <;> rfl
  | bufRead => rcases execBufRead_cases h with ⟨-, rfl⟩ | ⟨-, -, rfl⟩ <;> rfl
  | encPut k b => rcases execEncPut_cases h with ⟨-, -, rfl⟩ | ⟨-, rfl⟩ <;> rfl
  | encStart y n => rcases execEncStart_cases h with ⟨-, -, rfl⟩ | ⟨-, rfl⟩ <;> rfl
  | encEmit => rcases execEncEmit_cases h with ⟨-, rfl⟩ | ⟨-, -, rfl⟩ <;> rfl
  | parserFeed b => exact (feedEffect_sameOutside h).1
  | feedH1Hit | feedH1Miss _ | feedH2Hit | feedH2Ab | feedH2Miss _ | feedType _ | feedLenOk _ | feedLenOver _
  | feedPayload _ | feedCrc _ => exact (takeRow_sameOutside h).1
  | dispatchHit y p => obtain ⟨-, rfl⟩ := execDispatchHit_cases h; rfl
  | dispatchDefault y p => obtain ⟨-, rfl⟩ := execDispatchDefault_cases h; rfl
  | frame y p ck => exact (feedAll_sameOutside h).1

/-- What keeps the build in each part keeps it in sequence. -/
theorem andThen_cfg {r : Result} {f : State → Result} {c : Config} {t : State} (h : andThen r f = .next t)
    (hr : ∀ u, r = .next u → u.cfg = c) (hf : ∀ u v, f u = .next v → v.cfg = u.cfg) : t.cfg = c := by
  obtain ⟨u, hu, ht⟩ := andThen_eq_next.mp h
  exact (hf u t ht).trans (hr u hu)

theorem bufWriteRead_cfg {b : Byte} {s t : State} (h : bufWriteRead b s = .next t) : t.cfg = s.cfg := by
  obtain ⟨-, h⟩ := withCells_eq_next.mp h
  obtain ⟨-, h⟩ := withCells_eq_next.mp h
  cases h
  cases s.queue.full <;> rfl

theorem queueEdge_cfg {wr : Option Byte} {rd : Bool} {s t : State} (h : queueEdge wr rd s = .next t) :
    t.cfg = s.cfg := by
  cases wr <;> cases rd
  case none.false => cases h; rfl
  case some.false b => exact exec_cfg (i := .bufWrite b) h
  case none.true => exact exec_cfg (i := .bufRead) h
  case some.true b => exact bufWriteRead_cfg h

theorem feedRead_cfg {s t : State} (h : feedRead s = .next t) : t.cfg = s.cfg := by
  unfold feedRead at h
  split at h
  · exact exec_cfg (i := .parserFeed _) h
  · cases h; rfl

theorem parserEdge_cfg {e : Edge} {rd : Bool} {s t : State} (h : parserEdge e rd s = .next t) :
    t.cfg = s.cfg := by
  unfold parserEdge at h
  split at h
  · exact exec_cfg (i := .parserAbort) h
  split at h
  · split at h
    · exact feedRead_cfg h
    · cases h; rfl
  split at h
  · exact exec_cfg (i := .parserFeed _) h
  · cases h; rfl

theorem senderEdge_cfg {e : Edge} {s t : State} (h : senderEdge e s = .next t) : t.cfg = s.cfg := by
  unfold senderEdge at h
  split at h
  · exact exec_cfg (i := .encPut _ _) h
  split at h
  · exact exec_cfg (i := .encStart _ _) h
  · cases h; rfl

theorem encoderEdge_cfg {e : Edge} {s t : State} (h : encoderEdge e s = .next t) : t.cfg = s.cfg := by
  unfold encoderEdge at h
  split at h
  · exact andThen_cfg h (fun _ => senderEdge_cfg) fun _ _ => exec_cfg (i := .encEmit)
  · exact senderEdge_cfg h

theorem runEdge_cfg {e : Edge} {s t : State} (h : runEdge e s = .next t) : t.cfg = s.cfg := by
  unfold runEdge at h
  split at h
  · exact exec_cfg (i := .reset) h
  · exact andThen_cfg h (fun _ => queueEdge_cfg) fun _ _ h =>
      andThen_cfg h (fun _ => parserEdge_cfg) fun _ _ => encoderEdge_cfg

theorem runCmd_cfg {w : Cmd} {s t : State} (h : runCmd w s = .next t) : t.cfg = s.cfg := by
  rcases runCmd_cases h with rfl | ⟨i, -, -, h⟩ | ⟨bytes, -, -, h⟩
  · rfl
  · exact exec_cfg h
  · exact (feedAll_sameOutside h).1

/-- No step changes the build. -/
theorem step_cfg {s t : State} (h : step s = .next t) : t.cfg = s.cfg := by
  unfold step at h
  split at h
  · cases h; rfl
  · rename_i x rest _
    cases x with
    | cmd w => exact runCmd_cfg (s := s.fetched rest) h
    | edge e => exact runEdge_cfg (s := s.fetched rest) h

/-- Settles O48: every operation keeps the build, and a step is made of operations and of `BUF.WRITE` with `BUF.READ` on
one edge. -/
theorem buildNeverChanges : Obligations.BuildNeverChanges :=
  ⟨fun _ _ _ => exec_cfg, fun _ _ => step_cfg⟩

/-! ### The two paths (R3)

An operation is independent of a part of the state when replacing that part before it is the same as replacing it after it.
That it leaves the part alone then follows: replacing the part by itself is no change. -/

/-- The operation does the same, stops included, whether the state is changed by `f` before it or after it. -/
def Commutes (f : State → State) (m : State → Result) : Prop :=
  ∀ s, m (f s) = andThen (m s) fun t => .next (f t)

/-- The next state after the replacement is the replaced next state. -/
theorem Commutes.next {f : State → State} {m : State → Result} {s t : State} (hm : Commutes f m)
    (h : m s = .next t) : m (f s) = .next (f t) := by
  rw [hm s, h, andThen_next]

/-- A replacement that changes nothing before the operation changes nothing after it. -/
theorem Commutes.fixed {f : State → State} {m : State → Result} {s t : State} (hm : Commutes f m)
    (hs : f s = s) (h : m s = .next t) : f t = t := by
  have hft := hm.next h
  rw [hs, h] at hft
  exact (Host.Outcome.next.inj hft).symm

theorem andThen_ite {c : Prop} [Decidable c] (r r' : Result) (f : State → Result) :
    andThen (if c then r else r') f = if c then andThen r f else andThen r' f :=
  apply_ite (andThen · f) c r r'

theorem andThen_withCells (id : MemId) (lo hi : Nat) (s : State) (r : Result) (f : State → Result) :
    andThen (withCells id lo hi s r) f = withCells id lo hi s (andThen r f) :=
  andThen_ite _ _ _

/-- `s` with another outbound path: the encoder and the stream `TX`. -/
def State.withOutbound (e : Encoder) (l : List Byte) (s : State) : State := { s with tx := l }.withEnc e

/-- `s` with another inbound path: the byte queue, the parser, the stream `DISP`, and the faults raised, which are all the
inbound path's (R29). -/
def State.withInbound (q : ByteQueue) (p : Parser) (d : List DispEvent) (k : Counters) (r : List FaultRecord)
    (s : State) : State :=
  ({ s with disp := d, counters := k, raised := r }.withQueue q).withParser p

/-- Another inbound path with the faults the state has: the queue, the parser and `DISP` alone are replaced. -/
theorem State.withInbound_same_faults {k : Counters} {r : List FaultRecord} {s : State} (hk : s.counters = k)
    (hr : s.raised = r) (q : ByteQueue) (p : Parser) (d : List DispEvent) :
    s.withInbound q p d k r = ({ s with disp := d }.withQueue q).withParser p := by
  subst hk hr
  rfl

section Outbound

variable (e : Encoder) (l : List Byte)

theorem execBufWrite_withOutbound (b : Byte) : Commutes (State.withOutbound e l) (execBufWrite b) := fun s => by
  rw [execBufWrite, execBufWrite, andThen_ite, andThen_withCells]
  rfl

theorem execBufRead_withOutbound : Commutes (State.withOutbound e l) execBufRead := fun s => by
  rw [execBufRead, execBufRead, andThen_ite, andThen_withCells]
  rfl

/-- No row of the parser reads or writes the outbound path. -/
theorem feedEffect_withOutbound (r : FeedRow) (b : Byte) : Commutes (State.withOutbound e l) (feedEffect r b) := by
  intro s
  cases r with
  | h1Hit | h1Miss | h2Hit | h2Ab | h2Miss | lenOver => rfl
  | type => rw [feedEffect, feedEffect, feedTypeEffect, feedTypeEffect, andThen_withCells]; rfl
  | lenOk => rw [feedEffect, feedEffect, feedLenOkEffect, feedLenOkEffect, andThen_withCells]; rfl
  | payload => rw [feedEffect, feedEffect, feedPayloadEffect, feedPayloadEffect, andThen_withCells]; rfl
  | crc =>
    rw [feedEffect, feedEffect, feedCrcEffect, feedCrcEffect, andThen_withCells, apply_ite (State.goto · _),
      apply_ite (State.goto · _), andThen_next, apply_ite (State.withOutbound e l)]
    rfl

theorem execParserFeed_withOutbound (b : Byte) : Commutes (State.withOutbound e l) (execParserFeed b) :=
  fun s => feedEffect_withOutbound e l (s.rowOf b) b s

theorem takeRow_withOutbound (r : FeedRow) (b : Byte) : Commutes (State.withOutbound e l) (takeRow r b) := fun s => by
  rw [takeRow, takeRow, andThen_ite, feedEffect_withOutbound]
  rfl

theorem feedAll_withOutbound (bs : List Byte) : Commutes (State.withOutbound e l) (feedAll bs) := by
  induction bs with
  | nil => exact fun _ => rfl
  | cons b bs ih =>
    intro s
    rw [feedAll_cons, feedAll_cons, execParserFeed_withOutbound, andThen_assoc, andThen_assoc]
    exact congrArg (andThen _) (funext ih)

/-- The operations of the inbound path neither read nor write the outbound one. -/
theorem exec_withOutbound {i : Instr} (hi : family i = .queue ∨ family i = .parser ∨ family i = .registry) :
    Commutes (State.withOutbound e l) (exec i) := by
  intro s
  cases i with
  | reset | crc8 _ | encPut _ _ | encStart _ _ | encEmit => simp [family] at hi
  | bufInit | bufEmpty | bufStatus | parserAbort | dispatch _ _ _ => rfl
  | bufWrite b => exact execBufWrite_withOutbound e l b s
  | bufRead => exact execBufRead_withOutbound e l s
  | parserFeed b => exact execParserFeed_withOutbound e l b s
  | feedH1Hit | feedH1Miss _ | feedH2Hit | feedH2Ab | feedH2Miss _ | feedType _ | feedLenOk _ | feedLenOver _
  | feedPayload _ | feedCrc _ => exact takeRow_withOutbound e l _ _ s
  | dispatchHit y p => rw [exec, exec, execDispatchHit, execDispatchHit, andThen_ite]; rfl
  | dispatchDefault y p => rw [exec, exec, execDispatchDefault, execDispatchDefault, andThen_ite]; rfl
  | frame y p ck => exact feedAll_withOutbound e l (frameBytes y p ck) s

end Outbound

/-- The operations of the outbound path neither read nor write the inbound one. -/
theorem exec_withInbound {i : Instr} (hi : family i = .encoder) (q : ByteQueue) (p : Parser) (d : List DispEvent)
    (k : Counters) (r : List FaultRecord) : Commutes (State.withInbound q p d k r) (exec i) := by
  intro s
  cases i with
  | encPut j b => rw [exec, exec, execEncPut, execEncPut, andThen_ite]; rfl
  | encStart y n => rw [exec, exec, execEncStart, execEncStart, andThen_ite, andThen_ite]; rfl
  | encEmit => rw [exec, exec, execEncEmit, execEncEmit, andThen_ite, andThen_withCells]; rfl
  | _ => simp [family] at hi

/-- Settles O49: each path's operations commute with any replacement of the other path. -/
theorem pathsShareNoState : Obligations.PathsShareNoState := by
  constructor
  · intro s t i e l hi h
    have hkept : t = t.withOutbound s.enc s.tx := ((exec_withOutbound s.enc s.tx hi).fixed rfl h).symm
    exact ⟨congrArg (·.enc) hkept, congrArg (·.tx) hkept, (exec_withOutbound e l hi).next h⟩
  · intro s t i q p d hi h
    have hkept : t = t.withInbound s.queue s.parser s.disp s.counters s.raised :=
      ((exec_withInbound hi _ _ _ _ _).fixed rfl h).symm
    have hcounters : t.counters = s.counters := congrArg (·.counters) hkept
    have hraised : t.raised = s.raised := congrArg (·.raised) hkept
    refine ⟨congrArg (·.queue) hkept, congrArg (·.parser) hkept, congrArg (·.disp) hkept, hcounters, hraised, ?_⟩
    rw [← State.withInbound_same_faults rfl rfl, ← State.withInbound_same_faults hcounters hraised]
    exact (exec_withInbound hi q p d s.counters s.raised).next h

end Sys2Proof.Machine

/-! 10_state.md: the count of the queue (R18), the reset state (R36), and the fault counters (R29). -/

namespace Sys2Proof.Machine

/-! ### The count of the byte queue (R18, R81) -/

/-- `IDX_W` bits number the cells: `2^IDX_W` is at least `CAPACITY` (R8). -/
theorem capacity_le_two_pow_idxW (c : Config) : c.capacity ≤ 2 ^ idxW c := by
  have hlast : c.capacity - 1 < 2 ^ idxW c := Nat.lt_log2_self
  omega

/-- The output `count` loses nothing of a number up to `CAPACITY`. -/
theorem portCount_toNat {s : State} (h : s.queue.count s.cfg ≤ s.cfg.capacity) :
    (portCount s).toNat = s.queue.count s.cfg := by
  have hcap := capacity_le_two_pow_idxW s.cfg
  have hdouble : 2 ^ (idxW s.cfg + 1) = 2 ^ idxW s.cfg * 2 := pow_succ 2 _
  have hpos : 0 < 2 ^ idxW s.cfg := Nat.two_pow_pos _
  rw [portCount, BitVec.toNat_ofNat, Nat.mod_eq_of_lt]
  omega

/-- Settles O10, from the laws of the queue and the width of its output. -/
theorem countIsTheNumberOfQueuedBytes : Obligations.CountIsTheNumberOfQueuedBytes := by
  rintro s ⟨-, hqueue, -⟩
  have hshape := QueueInv.shape hqueue
  have hle : s.queue.count s.cfg ≤ s.cfg.capacity := ByteQueue.count_le (Nat.zero_lt_of_lt hshape.1)
  exact ⟨ByteQueue.length_queued _ _, hle, portCount_toNat hle, ByteQueue.isEmpty_iff_count hshape,
    ByteQueue.full_iff_count hshape⟩

/-! ### Which operations raise a fault (R29, R144) -/

/-- Only `FEED.LEN_OVER` raises a fault, and it raises F2. -/
theorem feedEffect_faults {r : FeedRow} {b : Byte} {s t : State} (h : feedEffect r b s = .next t) :
    (t.raised = s.raised ∧ t.counters = s.counters) ∨
    (r = .lenOver ∧ t.raised = s.raised ++ [.oversizeLength s.parser.type b] ∧
      t.counters = { s.counters with oversize := satInc s.cfg s.counters.oversize }) := by
  cases r with
  | lenOver => cases h; exact .inr ⟨rfl, rfl, rfl⟩
  | h1Hit | h1Miss | h2Hit | h2Ab | h2Miss => cases h; exact .inl ⟨rfl, rfl⟩
  | type | lenOk | payload =>
    obtain ⟨-, h⟩ := withCells_eq_next.mp h
    cases h
    exact .inl ⟨rfl, rfl⟩
  | crc =>
    obtain ⟨-, h⟩ := withCells_eq_next.mp h
    cases h
    left
    split <;> exact ⟨rfl, rfl⟩

/-- A fed byte raises a fault only where its cause is F2. -/
theorem execParserFeed_faults {b : Byte} {s t : State} (h : execParserFeed b s = .next t) :
    (t.raised = s.raised ∧ t.counters = s.counters) ∨
    (causeOf (.parserFeed b) s = some .oversizeLength ∧
      t.raised = s.raised ++ [.oversizeLength s.parser.type b] ∧
      t.counters = { s.counters with oversize := satInc s.cfg s.counters.oversize }) :=
  (feedEffect_faults h).imp_right fun ⟨hrow, hfault⟩ => ⟨by simp only [causeOf, hrow], hfault⟩

/-- A row but `FEED.LEN_OVER` asked for by name raises no fault. -/
theorem takeRow_faults {r : FeedRow} {b : Byte} {s t : State} (hr : r ≠ .lenOver) (h : takeRow r b s = .next t) :
    t.raised = s.raised ∧ t.counters = s.counters :=
  (feedEffect_faults (takeRow_eq_next.mp h).2).resolve_right fun hf => hr hf.1

/-- A row asked for by name and taken is what feeding its byte does. -/
theorem execParserFeed_of_takeRow {r : FeedRow} {b : Byte} {s t : State} (h : takeRow r b s = .next t) :
    execParserFeed b s = .next t :=
  takeRow_of_selected (takeRow_eq_next.mp h).1 ▸ h

/-- No operation of the encoder raises a fault: the counters and the record are the inbound path's (R3). -/
theorem exec_encoder_faults {i : Instr} {s t : State} (hi : family i = .encoder) (h : exec i s = .next t) :
    t.raised = s.raised ∧ t.counters = s.counters := by
  obtain ⟨-, -, -, hcounters, hraised, -⟩ := pathsShareNoState.2 s t i s.queue s.parser s.disp hi h
  exact ⟨hraised, hcounters⟩

/-- Settles O50: `BUF.WRITE` on a full queue and the row `FEED.LEN_OVER` raise their fault, nothing else raises one. -/
theorem oneOperationRaisesAtMostOneFault : Obligations.OneOperationRaisesAtMostOneFault := by
  intro s t i h hreset hframe
  cases i with
  | reset => exact absurd rfl hreset
  | frame y p ck => exact absurd rfl (hframe y p ck)
  | bufInit | bufEmpty | bufStatus | crc8 _ | parserAbort | dispatch _ _ _ => cases h; exact .inl ⟨rfl, rfl⟩
  | bufWrite b =>
    rcases execBufWrite_cases h with ⟨hfull, rfl⟩ | ⟨-, -, rfl⟩
    · exact .inr (.inl ⟨b, rfl, if_pos hfull, rfl, rfl⟩)
    · exact .inl ⟨rfl, rfl⟩
  | bufRead => rcases execBufRead_cases h with ⟨-, rfl⟩ | ⟨-, -, rfl⟩ <;> exact .inl ⟨rfl, rfl⟩
  | encPut _ _ | encStart _ _ | encEmit => exact .inl (exec_encoder_faults rfl h)
  | parserFeed b => exact (execParserFeed_faults h).imp_right fun hf => .inr ⟨b, .inl rfl, hf⟩
  | feedLenOver b =>
    exact (execParserFeed_faults (execParserFeed_of_takeRow h)).imp_right fun hf => .inr ⟨b, .inr rfl, hf⟩
  | feedH1Hit | feedH1Miss _ | feedH2Hit | feedH2Ab | feedH2Miss _ | feedType _ | feedLenOk _ | feedPayload _
  | feedCrc _ => exact .inl (takeRow_faults (by decide) h)
  | dispatchHit y p => obtain ⟨-, rfl⟩ := execDispatchHit_cases h; exact .inl ⟨rfl, rfl⟩
  | dispatchDefault y p => obtain ⟨-, rfl⟩ := execDispatchDefault_cases h; exact .inl ⟨rfl, rfl⟩

/-! ### The state after reset (R36) -/

/-- Settles O3: the table's values are those of `State.resetOf`, and an empty memory lists no cell. -/
theorem resetStateHasTheTableValues : Obligations.ResetStateHasTheTableValues :=
  fun _ => ⟨rfl, rfl, rfl, rfl, rfl, rfl, rfl, rfl, rfl, rfl, rfl, rfl, fun _ => ⟨rfl, rfl, rfl⟩⟩

/-- A build of R8 has at least one cell in its queue. -/
theorem Config.one_le_capacity {c : Config} (h : c.wf = true) : 1 ≤ c.capacity := by
  simp only [Config.wf, Bool.and_eq_true, decide_eq_true_eq] at h
  exact h.1.1.1

theorem memoryInv_nil (c : Config) (id : MemId) : MemoryInv c id [] :=
  ⟨List.Pairwise.nil, fun _ hx => absurd hx List.not_mem_nil⟩

/-- An initialised parser meets the invariant, whatever `frame_buffer` holds. -/
theorem Parser.init_inv {c : Config} {p : Parser} (hm : MemoryInv c .frameBuffer p.frameBuffer) :
    ParserInv c p.init :=
  ⟨hm, Nat.zero_le _, nofun, nofun, nofun, nofun⟩

/-- An initialised encoder meets the invariant, whatever `enc_payload` holds. -/
theorem Encoder.init_inv {c : Config} {e : Encoder} (hm : MemoryInv c .encPayload e.payload) :
    EncoderInv c e.init :=
  ⟨hm, Nat.zero_le _, nofun, fun i _ hi => absurd hi (by simp [Encoder.isStaged_init])⟩

/-- Settles O4: every part of the reset state is an initialised one with empty memories. -/
theorem resetStateMeetsInvariant : Obligations.ResetStateMeetsInvariant := fun c hc =>
  ⟨hc,
    ByteQueue.init_inv (q := (State.resetOf c).queue) (Config.one_le_capacity hc) (memoryInv_nil c _),
    Parser.init_inv (p := (State.resetOf c).parser) (memoryInv_nil c _),
    Encoder.init_inv (e := (State.resetOf c).enc) (memoryInv_nil c _),
    Nat.zero_le _, Nat.zero_le _⟩

/-! ### The fault counters (R29) -/

/-- Within the range of a counter, saturation is the minimum with the largest value. -/
theorem satInc_eq_min {c : Config} {n : Nat} (h : n ≤ counterMax c) : satInc c n = min (n + 1) (counterMax c) := by
  unfold satInc
  split <;> omega

/-- A counter of at least one bit can count. -/
theorem counterMax_pos {c : Config} (h : 1 ≤ c.cntW) : 0 < counterMax c :=
  Nat.sub_pos_of_lt (Nat.one_lt_two_pow (Nat.one_le_iff_ne_zero.mp h))

/-- Settles O51: saturation is a minimum with the largest value, which is not 0. -/
theorem countersSaturate : Obligations.CountersSaturate := by
  intro c n hw hn
  have hsat : satInc c n = min (n + 1) (2 ^ c.cntW - 1) := satInc_eq_min hn
  have hpos : 0 < 2 ^ c.cntW - 1 := counterMax_pos hw
  rw [hsat]
  omega

end Sys2Proof.Machine

/-! 20_memory.md: every step keeps the invariant (R39 to R41), a frame in flight is not changed (R41), one edge and the
operations its ports request (R47, R48), and the queue drained into the parser (R50). -/

namespace Sys2Proof.Machine

/-! ### The invariant, part by part (R18, R26, R28, R29) -/

section BlockInv

variable {s : State}

theorem BlockInv.queueInv (h : BlockInv s) : QueueInv s.cfg s.queue := h.2.1
theorem BlockInv.parserInv (h : BlockInv s) : ParserInv s.cfg s.parser := h.2.2.1
theorem BlockInv.encoderInv (h : BlockInv s) : EncoderInv s.cfg s.enc := h.2.2.2.1

theorem BlockInv.withQueue {q : ByteQueue} (h : BlockInv s) (hq : QueueInv s.cfg q) : BlockInv (s.withQueue q) :=
  ⟨h.1, hq, h.2.2⟩

theorem BlockInv.withParser {p : Parser} (h : BlockInv s) (hp : ParserInv s.cfg p) : BlockInv (s.withParser p) :=
  ⟨h.1, h.2.1, hp, h.2.2.2⟩

theorem BlockInv.withEnc {e : Encoder} (h : BlockInv s) (he : EncoderInv s.cfg e) : BlockInv (s.withEnc e) :=
  ⟨h.1, h.2.1, h.2.2.1, he, h.2.2.2.2⟩

end BlockInv

theorem satInc_le {c : Config} {n : Nat} (h : n ≤ counterMax c) : satInc c n ≤ counterMax c :=
  (satInc_eq_min h).trans_le (Nat.min_le_right _ _)

/-- A raised fault counts within the `CNT_W` bits. -/
theorem BlockInv.raise {s : State} (h : BlockInv s) (f : FaultRecord) : BlockInv (s.raise f) := by
  obtain ⟨hcfg, hqueue, hparser, henc, hovf, hoversize⟩ := h
  cases f with
  | bufferFull _ => exact ⟨hcfg, hqueue, hparser, henc, satInc_le hovf, hoversize⟩
  | oversizeLength _ _ => exact ⟨hcfg, hqueue, hparser, henc, hovf, satInc_le hoversize⟩

/-- A write of a cell of the array keeps the memory's invariant. -/
theorem MemoryInv.write {c : Config} {id : MemId} {m : Memory} {i : Nat} (h : MemoryInv c id m)
    (hi : i < memSize c id) (v : Byte) : MemoryInv c id (m.write i v) :=
  ⟨Memory.wf_write h.1 _ _, Memory.below_write h.2 hi _⟩

/-- Writing the next cell extends the written ones by it. -/
theorem writtenBelow_write {m : Memory} {n : Nat} (hm : m.wf) (h : writtenBelow m n) (v : Byte) :
    writtenBelow (m.write n v) (n + 1) := by
  intro k hk
  rw [Memory.lookup_write m n k v hm]
  split
  · rfl
  · exact h k (by omega)

/-! ### The encoder keeps its invariant -/

theorem Encoder.stage_inv {c : Config} {e : Encoder} {i : Byte} (h : EncoderInv c e) (hi : i.toNat < c.maxPayload)
    (b : Byte) : EncoderInv c (e.stage i b) := by
  obtain ⟨hmem, hidx, hbusy, hstaged⟩ := h
  refine ⟨MemoryInv.write hmem hi b, hidx, hbusy, fun j hj hs => ?_⟩
  rw [Encoder.isStaged_stage] at hs
  show ((e.payload.write i.toNat b).lookup j).isSome = true
  rw [Memory.lookup_write _ _ _ _ hmem.1]
  split
  · rfl
  · rename_i hne
    exact hstaged j hj (by simpa [Ne.symm hne] using hs)

/-- The latched low byte of a length is the length, or less where the length needs its ninth bit. -/
theorem lowByte_toNat_le (n : BitVec 9) : (lowByte n).toNat ≤ n.toNat := by
  rw [lowByte, BitVec.toNat_setWidth]
  exact Nat.mod_le _ _

theorem Encoder.start_inv {c : Config} {e : Encoder} {n : BitVec 9} (h : EncoderInv c e) (y : Byte)
    (hn : n.toNat ≤ c.maxPayload) : EncoderInv c (e.start y n) := by
  obtain ⟨hmem, -, -, hstaged⟩ := h
  exact ⟨hmem, Nat.zero_le _, fun _ => ⟨(lowByte_toNat_le n).trans hn, Nat.zero_le _⟩, hstaged⟩

theorem Encoder.sent_inv {c : Config} {e : Encoder} (h : EncoderInv c e) (hb : e.busy = true) :
    EncoderInv c e.sent := by
  obtain ⟨hmem, hidx, hbusy, hstaged⟩ := h
  obtain ⟨hlen, hle⟩ := hbusy hb
  by_cases hlast : e.idx = 4 + e.len.toNat
  · rw [Encoder.sent_last hlast]
    exact ⟨hmem, hidx, nofun, hstaged⟩
  · rw [Encoder.sent_more hlast]
    have hnext : e.idx + 1 ≤ e.len.toNat + 4 := by omega
    exact ⟨hmem, by show e.idx + 1 ≤ _; omega, fun _ => ⟨hlen, hnext⟩, hstaged⟩

/-! ### The parser keeps its invariant, row by row (R26, R122) -/

section ParserRows

variable {c : Config} {p : Parser}

/-- In the two header states nothing is asked of the registers but their ranges. -/
theorem ParserInv.toHeader {st : ParserState} (h : ParserInv c p)
    (hst : st = .awaitHeader1 ∨ st = .awaitHeader2) : ParserInv c { p with state := st } := by
  obtain ⟨hmem, hcur, -⟩ := h
  rcases hst with rfl | rfl <;> exact ⟨hmem, hcur, nofun, nofun, nofun, nofun⟩

theorem ParserInv.toType (h : ParserInv c p) : ParserInv c { p with cursor := 0, state := .readType } :=
  ⟨h.1, Nat.zero_le _, fun _ => rfl, nofun, nofun, nofun⟩

theorem ParserInv.type (h : ParserInv c p) (hst : p.state = .readType) (b : Byte) :
    ParserInv c { p.put b with type := b, state := .readLength } := by
  obtain ⟨hmem, -, htype, -⟩ := h
  have hcur : p.cursor = 0 := htype hst
  refine ⟨MemoryInv.write hmem (by rw [hcur]; exact Nat.succ_pos _) b, ?_, nofun, fun _ => ⟨?_, ?_⟩, nofun, nofun⟩
  · show p.cursor + 1 ≤ c.maxPayload + 2
    omega
  · show p.cursor + 1 = 1
    omega
  · show (p.frameBuffer.write p.cursor b).lookup 0 = some b
    rw [hcur, Memory.lookup_write_same _ _ _ hmem.1]

theorem ParserInv.lenOk (h : ParserInv c p) (hst : p.state = .readLength) {b : Byte} (hb : b.toNat ≤ c.maxPayload) :
    ParserInv c { p.put b with
      declaredLength := b, state := if 0 < b.toNat then .readPayload else .readCrc } := by
  obtain ⟨hmem, -, -, hlength, -⟩ := h
  obtain ⟨hcur, htype⟩ := hlength hst
  have hkept : (p.frameBuffer.write p.cursor b).lookup 0 = some p.type := by
    rw [Memory.lookup_write_other _ _ hmem.1 (by omega), htype]
  have hnew : (p.frameBuffer.write p.cursor b).lookup 1 = some b := by
    rw [hcur, Memory.lookup_write_same _ _ _ hmem.1]
  have hwritten : writtenBelow (p.frameBuffer.write p.cursor b) (p.cursor + 1) :=
    writtenBelow_write hmem.1 (fun k hk => by rw [show k = 0 by omega, htype]; rfl) b
  have hcells := MemoryInv.write hmem (show p.cursor < c.maxPayload + 2 by omega) b
  have hrange : p.cursor + 1 ≤ c.maxPayload + 2 := by omega
  split
  · exact ⟨hcells, hrange, nofun, nofun,
      fun _ => ⟨by assumption, hb, by show 2 ≤ p.cursor + 1; omega, by show p.cursor + 1 < b.toNat + 2; omega,
        hkept, hnew, hwritten⟩, nofun⟩
  · exact ⟨hcells, hrange, nofun, nofun, nofun,
      fun _ => ⟨by show p.cursor + 1 = b.toNat + 2; omega, hb, hkept, hnew, hwritten⟩⟩

theorem ParserInv.payload (h : ParserInv c p) (hst : p.state = .readPayload) (b : Byte) :
    ParserInv c { p.put b with
      state := if p.cursor + 1 = frameEnd p.declaredLength then .readCrc else .readPayload } := by
  obtain ⟨hmem, -, -, -, hpayload, -⟩ := h
  obtain ⟨hpos, hmax, htwo, hlt, htype, hlen, hbelow⟩ := hpayload hst
  have hkept (i : Nat) (hi : i < 2) : (p.frameBuffer.write p.cursor b).lookup i = p.frameBuffer.lookup i :=
    Memory.lookup_write_other _ _ hmem.1 (by omega)
  have hwritten := writtenBelow_write hmem.1 hbelow b
  have hcells := MemoryInv.write hmem (show p.cursor < c.maxPayload + 2 by omega) b
  have hrange : p.cursor + 1 ≤ c.maxPayload + 2 := by omega
  have htype' := (hkept 0 (by omega)).trans htype
  have hlen' := (hkept 1 (by omega)).trans hlen
  split
  · exact ⟨hcells, hrange, nofun, nofun, nofun, fun _ => ⟨by assumption, hmax, htype', hlen', hwritten⟩⟩
  · rename_i hmore
    have hlt' : p.cursor + 1 < p.declaredLength.toNat + 2 := by
      rw [frameEnd] at hmore
      omega
    exact ⟨hcells, hrange, nofun, nofun,
      fun _ => ⟨hpos, hmax, by show 2 ≤ p.cursor + 1; omega, hlt', htype', hlen', hwritten⟩, nofun⟩

end ParserRows

/-- A fed byte keeps the invariant of the block. -/
theorem execParserFeed_inv {b : Byte} {s t : State} (h : BlockInv s) (ht : execParserFeed b s = .next t) :
    BlockInv t := by
  obtain ⟨-, -, -, -, -, htype, hlenOk, -, hpayload, -⟩ := classify_spec s.cfg s.parser.state b
  have hp := h.parserInv
  rcases feedEffect_cases ht with ⟨-, rfl⟩ | ⟨-, rfl⟩ | ⟨-, rfl⟩ | ⟨hr, -, rfl⟩ | ⟨hr, -, rfl⟩ | ⟨-, rfl⟩ |
    ⟨hr, -, rfl⟩ | ⟨-, -, rfl⟩
  · exact h.withParser (hp.toHeader (.inr rfl))
  · exact h.withParser (hp.toHeader (.inl rfl))
  · exact h.withParser hp.toType
  · exact h.withParser (hp.type (htype.mp hr) b)
  · obtain ⟨hst, hb⟩ := hlenOk.mp hr
    exact h.withParser (hp.lenOk hst hb)
  · exact (h.raise _).withParser (ParserInv.toHeader (h.raise _).parserInv (.inl rfl))
  · exact h.withParser (hp.payload (hpayload.mp hr) b)
  · have hpost := h.withParser (hp.toHeader (.inl rfl))
    split <;> exact hpost

/-! ### Every operation keeps the invariant -/

theorem execReset_inv {s t : State} (h : BlockInv s) (ht : execReset s = .next t) : BlockInv t := by
  cases ht
  obtain ⟨hcfg, ⟨-, -, -, hstorage, -⟩, ⟨hframe, -⟩, ⟨hpayload, -⟩, -⟩ := h
  exact ⟨hcfg, ByteQueue.init_inv (Config.one_le_capacity hcfg) hstorage, Parser.init_inv hframe,
    Encoder.init_inv hpayload, Nat.zero_le _, Nat.zero_le _⟩

theorem execBufInit_inv {s t : State} (h : BlockInv s) (ht : execBufInit s = .next t) : BlockInv t := by
  cases ht
  obtain ⟨-, -, -, hstorage, -⟩ := h.queueInv
  exact h.withQueue (ByteQueue.init_inv (Config.one_le_capacity h.1) hstorage)

theorem execBufWrite_inv {b : Byte} {s t : State} (h : BlockInv s) (ht : execBufWrite b s = .next t) :
    BlockInv t := by
  rcases execBufWrite_cases ht with ⟨-, rfl⟩ | ⟨hfull, -, rfl⟩
  · exact h.raise _
  · exact h.withQueue (ByteQueue.push_inv b h.queueInv hfull)

theorem execBufRead_inv {s t : State} (h : BlockInv s) (ht : execBufRead s = .next t) : BlockInv t := by
  rcases execBufRead_cases ht with ⟨-, rfl⟩ | ⟨hne, -, rfl⟩
  · exact h
  · exact h.withQueue (ByteQueue.pop_inv h.queueInv hne)

theorem execEncPut_inv {i b : Byte} {s t : State} (h : BlockInv s) (ht : execEncPut i b s = .next t) :
    BlockInv t := by
  rcases execEncPut_cases ht with ⟨-, hi, rfl⟩ | ⟨-, rfl⟩
  · exact h.withEnc (Encoder.stage_inv h.encoderInv hi b)
  · exact h

theorem execEncStart_inv {y : Byte} {n : BitVec 9} {s t : State} (h : BlockInv s)
    (ht : execEncStart y n s = .next t) : BlockInv t := by
  rcases execEncStart_cases ht with ⟨-, hn, rfl⟩ | ⟨-, rfl⟩
  · exact h.withEnc (Encoder.start_inv h.encoderInv y hn)
  · exact h

theorem execEncEmit_inv {s t : State} (h : BlockInv s) (ht : execEncEmit s = .next t) : BlockInv t := by
  rcases execEncEmit_cases ht with ⟨-, rfl⟩ | ⟨hbusy, -, rfl⟩
  · exact h
  · exact h.withEnc (Encoder.sent_inv h.encoderInv hbusy)

theorem feedAll_inv {l : List Byte} {s t : State} (h : BlockInv s) (ht : feedAll l s = .next t) : BlockInv t :=
  feedAll_keeps (fun _ _ _ => execParserFeed_inv) h ht

/-- Every operation keeps the invariant of the block. -/
theorem exec_inv {i : Instr} {s t : State} (h : BlockInv s) (ht : exec i s = .next t) : BlockInv t := by
  cases i with
  | reset => exact execReset_inv h ht
  | bufInit => exact execBufInit_inv h ht
  | bufWrite _ => exact execBufWrite_inv h ht
  | bufRead => exact execBufRead_inv h ht
  | bufEmpty | bufStatus | crc8 _ | dispatch _ _ _ => cases ht; exact h
  | encPut _ _ => exact execEncPut_inv h ht
  | encStart _ _ => exact execEncStart_inv h ht
  | encEmit => exact execEncEmit_inv h ht
  | parserFeed _ => exact execParserFeed_inv h ht
  | parserAbort => cases ht; exact h.withParser (ParserInv.toHeader h.parserInv (.inl rfl))
  | feedH1Hit | feedH1Miss _ | feedH2Hit | feedH2Ab | feedH2Miss _ | feedType _ | feedLenOk _ | feedLenOver _
  | feedPayload _ | feedCrc _ => exact execParserFeed_inv h (execParserFeed_of_takeRow ht)
  | dispatchHit _ _ => obtain ⟨-, rfl⟩ := execDispatchHit_cases ht; exact h
  | dispatchDefault _ _ => obtain ⟨-, rfl⟩ := execDispatchDefault_cases ht; exact h
  | frame _ _ _ => exact feedAll_inv h ht

/-- What each of the operations keeps, they keep one after the other. -/
theorem execAll_keeps {P : State → Prop} {l : List Instr} (hP : ∀ i ∈ l, ∀ s t, P s → exec i s = .next t → P t)
    {s t : State} (hs : P s) (h : execAll l s = .next t) : P t := by
  induction l generalizing s with
  | nil => cases h; exact hs
  | cons i l ih =>
    obtain ⟨hi, hl⟩ := List.forall_mem_cons.mp hP
    obtain ⟨u, hu, ht⟩ := andThen_eq_next.mp h
    exact ih hl (hi s u hs hu) ht

theorem execAll_inv {l : List Instr} {s t : State} (h : BlockInv s) (ht : execAll l s = .next t) : BlockInv t :=
  execAll_keeps (P := BlockInv) (fun _ _ _ _ => exec_inv) h ht

theorem execAll_cfg {l : List Instr} {s t : State} (h : execAll l s = .next t) : t.cfg = s.cfg :=
  execAll_keeps (P := fun u => u.cfg = s.cfg) (fun _ _ _ _ hu h => (exec_cfg h).trans hu) rfl h

/-! ### In a state of the invariant an operation completes (R39 to R41) -/

theorem execBufWrite_completes {s : State} (h : QueueInv s.cfg s.queue) (b : Byte) :
    ∃ t, execBufWrite b s = .next t := by
  cases hfull : s.queue.full with
  | true => exact ⟨_, execBufWrite_full b hfull⟩
  | false => exact ⟨_, execBufWrite_room b hfull h.2.1⟩

theorem execBufRead_completes {s : State} (h : QueueInv s.cfg s.queue) : ∃ t, execBufRead s = .next t := by
  cases hempty : s.queue.isEmpty with
  | true => exact ⟨_, execBufRead_empty hempty⟩
  | false => exact ⟨_, execBufRead_nonempty hempty h.1⟩

theorem execEncPut_completes (i b : Byte) (s : State) : ∃ t, execEncPut i b s = .next t := by
  rw [execEncPut]
  split <;> exact ⟨_, rfl⟩

theorem execEncStart_completes (y : Byte) (n : BitVec 9) (s : State) : ∃ t, execEncStart y n s = .next t := by
  rw [execEncStart]
  split
  · exact ⟨_, rfl⟩
  · split <;> exact ⟨_, rfl⟩

/-- On an idle encoder a ready sink takes nothing (R63). -/
theorem execEncEmit_idle {s : State} (h : s.enc.busy = false) : execEncEmit s = .next s := by
  rw [execEncEmit, if_neg (by simp [h])]

theorem execEncEmit_completes {s : State} (h : EncoderInv s.cfg s.enc) : ∃ t, execEncEmit s = .next t := by
  cases hbusy : s.enc.busy with
  | true =>
    obtain ⟨-, -, hlen, -⟩ := h
    exact ⟨_, execEncEmit_busy hbusy (Encoder.endRead_le (hlen hbusy).1 _)⟩
  | false => exact ⟨s, execEncEmit_idle hbusy⟩

/-- The cells a fed byte touches exist (R40). -/
theorem execParserFeed_completes {s : State} (h : ParserInv s.cfg s.parser) (b : Byte) :
    ∃ t, execParserFeed b s = .next t := by
  obtain ⟨-, -, -, -, -, htype, hlenOk, -, hpayload, -⟩ := classify_spec s.cfg s.parser.state b
  obtain ⟨-, hcursor, hzero, hone, hmiddle, -⟩ := h
  refine feedEffect_completes _ b s ⟨?_, fun _ => hcursor⟩
  rintro (hr | hr | hr)
  · have := hzero (htype.mp hr)
    omega
  · have := hone (hlenOk.mp hr).1
    omega
  · have := hmiddle (hpayload.mp hr)
    omega

theorem feedAll_completes {l : List Byte} {s : State} (h : BlockInv s) : ∃ t, feedAll l s = .next t := by
  induction l generalizing s with
  | nil => exact ⟨s, rfl⟩
  | cons b l ih =>
    obtain ⟨u, hu⟩ := execParserFeed_completes h.parserInv b
    obtain ⟨t, ht⟩ := ih (execParserFeed_inv h hu)
    exact ⟨t, andThen_eq_next.mpr ⟨u, hu, ht⟩⟩

/-- The rows that the block takes where they are selected, and that are refused elsewhere (R65 to R67; log 8). -/
def isRowByName : Instr → Bool
  | .feedH1Hit | .feedH1Miss _ | .feedH2Hit | .feedH2Ab | .feedH2Miss _ | .feedType _ | .feedLenOk _
  | .feedLenOver _ | .feedPayload _ | .feedCrc _ | .dispatchHit _ _ | .dispatchDefault _ _ => true
  | _ => false

/-- In a state of the invariant every operation but a row asked for by name completes. -/
theorem exec_completes {i : Instr} {s : State} (h : BlockInv s) (hi : isRowByName i = false) :
    ∃ t, exec i s = .next t := by
  cases i with
  | reset | bufInit | bufEmpty | bufStatus | crc8 _ | parserAbort | dispatch _ _ _ => exact ⟨_, rfl⟩
  | bufWrite b => exact execBufWrite_completes h.queueInv b
  | bufRead => exact execBufRead_completes h.queueInv
  | encPut i b => exact execEncPut_completes i b s
  | encStart y n => exact execEncStart_completes y n s
  | encEmit => exact execEncEmit_completes h.encoderInv
  | parserFeed b => exact execParserFeed_completes h.parserInv b
  | feedH1Hit | feedH1Miss _ | feedH2Hit | feedH2Ab | feedH2Miss _ | feedType _ | feedLenOk _ | feedLenOver _
  | feedPayload _ | feedCrc _ | dispatchHit _ _ | dispatchDefault _ _ => cases hi
  | frame y p ck => exact feedAll_completes h

theorem execAll_completes {l : List Instr} (hl : ∀ i ∈ l, isRowByName i = false) {s : State} (h : BlockInv s) :
    ∃ t, execAll l s = .next t := by
  induction l generalizing s with
  | nil => exact ⟨s, rfl⟩
  | cons i l ih =>
    obtain ⟨hi, hl⟩ := List.forall_mem_cons.mp hl
    obtain ⟨u, hu⟩ := exec_completes h hi
    obtain ⟨t, ht⟩ := ih hl (exec_inv h hu)
    exact ⟨t, andThen_eq_next.mpr ⟨u, hu, ht⟩⟩

/-! ### A frame in flight (R41, R102) -/

/-- Outside the encoder's family only the reset changes anything of the encoder or of `TX`. -/
theorem exec_outbound_kept {i : Instr} {s t : State} (h : exec i s = .next t) (hi : family i ≠ .encoder)
    (hreset : i ≠ .reset) : t.enc = s.enc ∧ t.tx = s.tx := by
  cases i with
  | reset => exact absurd rfl hreset
  | encPut _ _ | encStart _ _ | encEmit => exact absurd rfl hi
  | crc8 _ => cases h; exact ⟨rfl, rfl⟩
  | _ =>
    obtain ⟨henc, htx, -⟩ := pathsShareNoState.1 s t _ s.enc s.tx (by simp [family]) h
    exact ⟨henc, htx⟩

/-- Settles O27: the requests of the sender are refused, a byte sent moves `enc_busy` and `enc_idx` alone, and what is
not the encoder's does not reach it. -/
theorem frameInFlightCannotBeChanged : Obligations.FrameInFlightCannotBeChanged := by
  intro s t i hbusy h hreset
  cases i with
  | encPut k b =>
    rcases execEncPut_cases h with ⟨hidle, -⟩ | ⟨-, rfl⟩
    · simp [hbusy] at hidle
    · exact ⟨rfl, rfl, rfl, rfl, fun _ => ⟨rfl, rfl⟩, fun _ _ _ => rfl, nofun⟩
  | encStart y n =>
    rcases execEncStart_cases h with ⟨hidle, -⟩ | ⟨-, rfl⟩
    · simp [hbusy] at hidle
    · exact ⟨rfl, rfl, rfl, rfl, fun _ => ⟨rfl, rfl⟩, nofun, fun _ _ _ => rfl⟩
  | encEmit =>
    rcases execEncEmit_cases h with ⟨hidle, -⟩ | ⟨-, -, rfl⟩
    · simp [hbusy] at hidle
    · by_cases hlast : s.enc.idx = 4 + s.enc.len.toNat
      · rw [Encoder.sent_last hlast]
        exact ⟨rfl, rfl, rfl, rfl, fun hne => absurd rfl hne, nofun, nofun⟩
      · rw [Encoder.sent_more hlast]
        exact ⟨rfl, rfl, rfl, rfl, fun hne => absurd rfl hne, nofun, nofun⟩
  | _ =>
    obtain ⟨henc, htx⟩ := exec_outbound_kept h (by simp [family]) hreset
    exact ⟨by rw [henc], by rw [henc], by rw [henc], by rw [henc], fun _ => ⟨henc, htx⟩, nofun, nofun⟩

/-! ### A write and a read on one edge (R48) -/

theorem ByteQueue.not_isEmpty_of_full {q : ByteQueue} (h : q.full = true) : q.isEmpty = false := by
  simp only [ByteQueue.isEmpty, h, Bool.not_true, Bool.false_and]

/-- The state after an edge with a write and a read, both judged on the queue before it. -/
def State.afterWriteRead (b : Byte) (s : State) : State :=
  ((if !s.queue.full then s else s.raise (.bufferFull b)).withQueue
      (s.queue.edge s.cfg b (!s.queue.full) (!s.queue.isEmpty))).withOut
    { s.out with
      wrOk := !s.queue.full, rd := if !s.queue.isEmpty then some (s.storageAt s.queue.head) else none }

theorem State.afterWriteRead_enc (b : Byte) (s : State) : (s.afterWriteRead b).enc = s.enc := by
  rw [State.afterWriteRead]
  split <;> rfl

theorem bufWriteRead_cases {b : Byte} {s t : State} (h : bufWriteRead b s = .next t) : t = s.afterWriteRead b := by
  obtain ⟨-, h⟩ := withCells_eq_next.mp h
  obtain ⟨-, h⟩ := withCells_eq_next.mp h
  cases h
  rfl

section SameEdge

variable {s : State} (b : Byte) (h : QueueShape s.cfg s.queue)

include h

/-- Where the indices are in range the edge completes. -/
theorem bufWriteRead_eq : bufWriteRead b s = .next (s.afterWriteRead b) := by
  obtain ⟨hhead, htail, -⟩ := h
  have hbound (p : Bool) {i : Nat} (hi : i < s.cfg.capacity) :
      (if p = true then i + 1 else 0) ≤ memSize s.cfg .storage := by
    split
    · exact hi
    · exact Nat.zero_le _
  rw [bufWriteRead, withCells_of_le _ (hbound _ htail), withCells_of_le _ (hbound _ hhead)]
  rfl

/-- A push to a queue that holds a byte leaves the oldest one in place. -/
theorem ByteQueue.push_oldest (hfull : s.queue.full = false) (hempty : s.queue.isEmpty = false) :
    (s.queue.push s.cfg b).isEmpty = false ∧
      heldByte .storage (s.queue.push s.cfg b).storage s.queue.head = s.storageAt s.queue.head := by
  have hcount : s.queue.count s.cfg ≠ 0 := (ByteQueue.isEmpty_iff_count h).not.mp (by simp [hempty])
  obtain ⟨hshape, -, hold, -⟩ := ByteQueue.push_spec b h hfull
  constructor
  · rw [Bool.eq_false_iff, Ne, ByteQueue.isEmpty_iff_count hshape, ByteQueue.count_push b h hfull]
    exact Nat.succ_ne_zero _
  · have hkept := hold 0 (Nat.pos_of_ne_zero hcount)
    rw [Nat.add_zero, Nat.mod_eq_of_lt h.1] at hkept
    exact heldByte_congr hkept

/-- On a queue with room the edge is the read, then the write. -/
theorem bufWriteRead_eq_readThenWrite (hfull : s.queue.full = false) :
    bufWriteRead b s = andThen (execBufRead s) (execBufWrite b) := by
  cases hempty : s.queue.isEmpty with
  | true =>
    rw [bufWriteRead_eq b h, State.afterWriteRead, hempty, hfull, execBufRead_empty hempty, andThen_next]
    exact (execBufWrite_room (s := s.withOut { s.out with rd := none }) b hfull h.2.1).symm
  | false =>
    rw [bufWriteRead_eq b h, State.afterWriteRead, hempty, hfull, Bool.not_false,
      (ByteQueue.edge_both b h hfull hempty).1, execBufRead_nonempty hempty h.1, andThen_next]
    exact (execBufWrite_room (s := (s.withQueue (s.queue.pop s.cfg)).withOut
      { s.out with rd := some (s.storageAt s.queue.head) }) b rfl h.2.1).symm

/-- On a queue that holds a byte the edge is the write, then the read. -/
theorem bufWriteRead_eq_writeThenRead (hempty : s.queue.isEmpty = false) :
    bufWriteRead b s = andThen (execBufWrite b s) execBufRead := by
  cases hfull : s.queue.full with
  | true =>
    rw [bufWriteRead_eq b h, State.afterWriteRead, hempty, hfull, execBufWrite_full b hfull, andThen_next]
    exact (execBufRead_nonempty (s := (s.raise (.bufferFull b)).withOut { s.out with wrOk := false }) hempty h.1).symm
  | false =>
    obtain ⟨hne, holdest⟩ := ByteQueue.push_oldest b h hfull hempty
    rw [bufWriteRead_eq b h, State.afterWriteRead, hempty, hfull, Bool.not_false,
      (ByteQueue.edge_both b h hfull hempty).2, execBufWrite_room b hfull h.2.1, andThen_next, ← holdest]
    exact (execBufRead_nonempty (s := (s.withQueue (s.queue.push s.cfg b)).withOut
      { s.out with wrOk := true }) hne h.1).symm

end SameEdge

/-! ### One edge as operations (R47, R48) -/

theorem andThen_congr {r : Result} {f g : State → Result} (h : ∀ t, r = .next t → f t = g t) :
    andThen r f = andThen r g := by
  cases r with
  | next t => exact h t rfl
  | fault _ | refused _ => rfl

/-- One operation is a sequence of one. -/
theorem execAll_singleton (i : Instr) (s : State) : execAll [i] s = exec i s := andThen_pure _

theorem queueEdge_enc {wr : Option Byte} {rd : Bool} {s t : State} (h : queueEdge wr rd s = .next t) :
    t.enc = s.enc := by
  cases wr <;> cases rd
  case none.false => cases h; rfl
  case some.false b => exact (exec_outbound_kept (i := .bufWrite b) h nofun nofun).1
  case none.true => exact (exec_outbound_kept (i := .bufRead) h nofun nofun).1
  case some.true b => exact bufWriteRead_cases h ▸ s.afterWriteRead_enc b

/-- A read that finds a byte presents the oldest one, whatever is written on the same edge. -/
theorem queueEdge_rd {wr : Option Byte} {s t : State} (hempty : s.queue.isEmpty = false)
    (h : queueEdge wr true s = .next t) : t.out.rd = some (s.storageAt s.queue.head) := by
  cases wr with
  | none =>
    rcases execBufRead_cases h with ⟨he, -⟩ | ⟨-, -, rfl⟩
    · simp [hempty] at he
    · rfl
  | some b =>
    rw [bufWriteRead_cases h, State.afterWriteRead, hempty]
    rfl

/-- The operation an edge's sender requests (R62). -/
def senderOps (e : Edge) : List Instr :=
  if e.e = 0b10 then [.encPut e.putIdx e.putData] else if e.e = 0b01 then [.encStart e.typeIn e.lenIn] else []

theorem senderEdge_eq_execAll (e : Edge) : senderEdge e = execAll (senderOps e) := by
  funext s
  rw [senderEdge, senderOps, apply_ite (execAll · s), apply_ite (execAll · s), execAll_singleton, execAll_singleton]
  rfl

theorem encoderOps_of_busy {e : Edge} {s : State} (h : s.enc.busy = true) :
    encoderOps e s = senderOps e ++ if e.t = 1 then [.encEmit] else [] := by
  rw [encoderOps, if_pos h]
  rfl

theorem encoderOps_of_idle {e : Edge} {s : State} (h : s.enc.busy = false) :
    encoderOps e s = (if e.t = 1 then [.encEmit] else []) ++ senderOps e := by
  rw [encoderOps, if_neg (by simp [h])]
  rfl

/-- The encoder's part of an edge is the encoder's operations, in the order `enc_busy` gives (log 7): a byte asked of an
idle encoder is no operation (R63). -/
theorem encoderEdge_eq_execAll (e : Edge) (s : State) : encoderEdge e s = execAll (encoderOps e s) s := by
  rw [encoderEdge, senderEdge_eq_execAll]
  cases hbusy : s.enc.busy with
  | true =>
    rw [encoderOps_of_busy hbusy, execAll_append]
    by_cases ht : e.t = 1
    · rw [if_pos (by simp [ht]), if_pos ht]
      exact congrArg _ (funext fun u => (execAll_singleton .encEmit u).symm)
    · rw [if_neg (by simpa using ht), if_neg ht]
      exact (andThen_pure _).symm
  | false =>
    have hemit : exec .encEmit s = .next s := execEncEmit_idle hbusy
    rw [encoderOps_of_idle hbusy, if_neg (by simp)]
    by_cases ht : e.t = 1
    · rw [if_pos ht, List.singleton_append, execAll_cons, hemit, andThen_next]
    · rw [if_neg ht, List.nil_append]

/-- The operations an edge requests of the encoder are judged on the encoder alone. -/
theorem encoderOps_congr {s t : State} (e : Edge) (h : t.enc = s.enc) : encoderOps e t = encoderOps e s := by
  simp only [encoderOps, h]

/-- The parser's part of an edge, run after the queue's part (`u`), is the parser's operations judged before it: the
byte that the glue feeds is the one the read returned (R123). -/
theorem parserEdge_eq_execAll {e : Edge} {s u : State} (hr : e.r = 0) (hcfg : u.cfg = s.cfg)
    (hrd : readRequested e s = true → s.cfg.integrated = true → u.out.rd = some (s.storageAt s.queue.head)) :
    parserEdge e (readRequested e s) u = execAll (parserOps e s) u := by
  have hreset : ¬ e.r = 1 := by simp [hr]
  rw [parserEdge, parserOps, fedBytes, hcfg]
  cases habort : edgeAborts e with
  | true => exact (execAll_singleton .parserAbort u).symm
  | false =>
    simp only [hreset, decide_false, Bool.or_self, Bool.false_eq_true, if_false]
    cases hint : s.cfg.integrated with
    | true =>
      cases hread : readRequested e s with
      | true =>
        simp only [if_true, feedRead, hrd hread hint]
        exact (execAll_singleton (.parserFeed _) u).symm
      | false => rfl
    | false =>
      simp only [Bool.false_eq_true, if_false]
      split
      · exact (execAll_singleton (.parserFeed _) u).symm
      · rfl

/-- Operations of the parser leave the encoder as it is (R3). -/
theorem execAll_parser_enc {l : List Instr} (hl : ∀ i ∈ l, family i = .parser) {s t : State}
    (h : execAll l s = .next t) : t.enc = s.enc := by
  refine execAll_keeps (P := fun u => u.enc = s.enc) (fun i hi u v hu hv => ?_) rfl h
  have hfamily := hl i hi
  exact (exec_outbound_kept hv (by rw [hfamily]; nofun) (by rintro rfl; cases hfamily)).1.trans hu

theorem queueOps_spec (e : Edge) (s : State) : ∀ i ∈ queueOps e s, family i = .queue ∧ isRowByName i = false := by
  have hwrite : ∀ i ∈ (edgeWrites e).toList.map Instr.bufWrite, family i = .queue ∧ isRowByName i = false := by
    simp [family, isRowByName]
  have hread : ∀ i ∈ (if readRequested e s then [Instr.bufRead] else []),
      family i = .queue ∧ isRowByName i = false := by
    split <;> simp [family, isRowByName]
  intro i hi
  simp only [queueOps] at hi
  split at hi
  · exact (List.mem_append.mp hi).elim (hwrite i) (hread i)
  · exact (List.mem_append.mp hi).elim (hread i) (hwrite i)

theorem parserOps_spec (e : Edge) (s : State) : ∀ i ∈ parserOps e s, family i = .parser ∧ isRowByName i = false := by
  rw [parserOps]
  split <;> simp [family, isRowByName]

theorem encoderOps_spec (e : Edge) (s : State) :
    ∀ i ∈ encoderOps e s, family i = .encoder ∧ isRowByName i = false := by
  have hsender : ∀ i ∈ senderOps e, family i = .encoder ∧ isRowByName i = false := by
    rw [senderOps]
    (repeat' split) <;> simp [family, isRowByName]
  have hsink : ∀ i ∈ (if e.t = 1 then [Instr.encEmit] else []), family i = .encoder ∧ isRowByName i = false := by
    split <;> simp [family, isRowByName]
  intro i hi
  cases hbusy : s.enc.busy with
  | true => exact (List.mem_append.mp (encoderOps_of_busy hbusy ▸ hi)).elim (hsender i) (hsink i)
  | false => exact (List.mem_append.mp (encoderOps_of_idle hbusy ▸ hi)).elim (hsink i) (hsender i)

/-- The edge after its queue part, as operations. -/
theorem runEdge_eq {e : Edge} {s : State} (hr : e.r = 0) :
    runEdge e s =
      andThen (queueEdge (edgeWrites e) (readRequested e s) s) (execAll (parserOps e s ++ encoderOps e s)) := by
  rw [runEdge, if_neg (by simp [hr])]
  refine andThen_congr fun u hu => ?_
  have hrd (hread : readRequested e s = true) (hint : s.cfg.integrated = true) :
      u.out.rd = some (s.storageAt s.queue.head) := by
    rw [hread] at hu
    refine queueEdge_rd ?_ hu
    simp only [readRequested, hint, if_true, Bool.and_eq_true, Bool.not_eq_true'] at hread
    exact hread.2
  rw [parserEdge_eq_execAll hr (queueEdge_cfg hu) hrd, execAll_append]
  refine andThen_congr fun v hv => ?_
  have henc : v.enc = s.enc :=
    (execAll_parser_enc (fun i hi => (parserOps_spec e s i hi).1) hv).trans (queueEdge_enc hu)
  rw [encoderEdge_eq_execAll, encoderOps_congr e henc]

/-! ### Edges on which some ports are idle, in the separate block -/

/-- Without a ready sink the encoder's operations are the sender's. -/
theorem encoderOps_sender {e : Edge} {s : State} (ht : e.t = 0) : encoderOps e s = senderOps e := by
  cases hbusy : s.enc.busy with
  | true => rw [encoderOps_of_busy hbusy, ht, if_neg (by decide), List.append_nil]
  | false => rw [encoderOps_of_idle hbusy, ht, if_neg (by decide), List.nil_append]

/-- Without a request of the sender they are the sink's. -/
theorem encoderOps_sink {e : Edge} {s : State} (he : e.e = 0) :
    encoderOps e s = if e.t = 1 then [.encEmit] else [] := by
  have hsender : senderOps e = [] := by
    rw [senderOps, he]
    rfl
  cases hbusy : s.enc.busy with
  | true => rw [encoderOps_of_busy hbusy, hsender, List.nil_append]
  | false => rw [encoderOps_of_idle hbusy, hsender, List.append_nil]

theorem encoderOps_nil {e : Edge} {s : State} (he : e.e = 0) (ht : e.t = 0) : encoderOps e s = [] := by
  rw [encoderOps_sink he, ht, if_neg (by decide)]

section Separate

variable {s : State} {e : Edge} (hint : s.cfg.integrated = false)

include hint

theorem readRequested_separate : readRequested e s = (e.c == 1) := by
  simp [readRequested, hint]

theorem parserOps_nil (hf : e.f = 0) : parserOps e s = [] := by
  simp [parserOps, fedBytes, edgeAborts, hint, hf]

/-- A byte offered on port F without an abort is fed (R61). -/
theorem parserOps_feed {b : Byte} (hr : e.r = 0) (hf : e.f = 0b01#2 ++ b) : parserOps e s = [.parserFeed b] := by
  obtain ⟨habort, hrequest, hbyte⟩ := Laws.EncodeRoundTrip.feed_append b
  simp only [parserOps, fedBytes, edgeAborts, hf, habort, hrequest, hbyte, hint, hr, if_true]
  rfl

/-- An edge with requests for the byte queue alone is its queue part. -/
theorem runEdge_queue (hr : e.r = 0) (hf : e.f = 0) (he : e.e = 0) (ht : e.t = 0) :
    runEdge e s = queueEdge (edgeWrites e) (e.c == 1) s := by
  rw [runEdge_eq hr, parserOps_nil hint hf, encoderOps_nil he ht, readRequested_separate hint]
  exact andThen_pure _

/-- An edge without a request for the byte queue is the operations of the parser and of the encoder. -/
theorem runEdge_no_queue (hr : e.r = 0) (hp : e.p = 0) (hc : e.c = 0) :
    runEdge e s = execAll (parserOps e s ++ encoderOps e s) s := by
  rw [runEdge_eq hr, readRequested_separate hint, edgeWrites, hp, hc]
  rfl

end Separate

/-- A word with a request on port P offers its byte (R59). -/
theorem edgeWrites_request {e : Edge} {b : Byte} (hp : e.p = 1#1 ++ b) : edgeWrites e = some b := by
  obtain ⟨hrequest, hbyte⟩ := Laws.EncodeRoundTrip.one_append b
  rw [edgeWrites, hp, if_pos hrequest, hbyte]

/-- An abort is its own operation, whatever the other bits of port F carry (R61, R121). -/
theorem parserOps_abort {e : Edge} {b : BitVec 9} (hf : e.f = 1#1 ++ b) (s : State) :
    parserOps e s = [.parserAbort] := by
  have habort : (1#1 ++ b).getLsbD 9 = true := by
    rw [BitVec.getLsbD_append]
    rfl
  rw [parserOps, edgeAborts, hf, if_pos habort]

/-- Settles O14: with room the edge is the read and then the write, with a byte queued the write and then the read. -/
theorem sameEdgeWriteAndReadIsSerial : Obligations.SameEdgeWriteAndReadIsSerial := by
  intro s b hqueue
  have h := QueueInv.shape hqueue
  refine ⟨fun hint => ?_, fun hroom => ?_, fun hpos => ?_, _, bufWriteRead_eq b h, rfl, ?_, ?_⟩
  · rw [runEdge_queue hint rfl rfl rfl rfl, edgeWrites_request rfl]
    rfl
  · refine bufWriteRead_eq_readThenWrite b h (Bool.eq_false_iff.mpr fun hfull => ?_)
    exact hroom.ne ((ByteQueue.full_iff_count h).mp hfull)
  · refine bufWriteRead_eq_writeThenRead b h (Bool.eq_false_iff.mpr fun hempty => ?_)
    exact hpos.ne' ((ByteQueue.isEmpty_iff_count h).mp hempty)
  · rw [State.afterWriteRead]
    cases s.queue.isEmpty <;> rfl
  · rfl

/-- Settles O54: the idle ports request nothing, and one operation is a sequence of one. -/
theorem edgeWithOneRequestIsTheOperation : Obligations.EdgeWithOneRequestIsTheOperation := by
  intro s hint
  refine ⟨fun b => ?_, runEdge_queue hint rfl rfl rfl rfl, fun b => ?_, fun b => ?_, fun i b => ?_, fun y n => ?_, ?_⟩
  · rw [runEdge_queue hint rfl rfl rfl rfl, edgeWrites_request rfl]
    rfl
  · rw [runEdge_no_queue hint rfl rfl rfl, parserOps_feed hint rfl rfl, encoderOps_nil rfl rfl]
    exact execAll_singleton _ s
  · rw [runEdge_no_queue hint rfl rfl rfl, parserOps_abort rfl, encoderOps_nil rfl rfl]
    exact execAll_singleton _ s
  · rw [runEdge_no_queue hint rfl rfl rfl, parserOps_nil hint rfl, encoderOps_sender rfl]
    exact execAll_singleton (.encPut i b) s
  · rw [runEdge_no_queue hint rfl rfl rfl, parserOps_nil hint rfl, encoderOps_sender rfl]
    exact execAll_singleton (.encStart y n) s
  · rw [runEdge_no_queue hint rfl rfl rfl, parserOps_nil hint rfl, encoderOps_sink rfl]
    exact execAll_singleton .encEmit s

/-! ### The whole edge as operations -/

/-- Two operations are a sequence of two. -/
theorem execAll_pair (i j : Instr) (s : State) : execAll [i, j] s = andThen (exec i s) (exec j) :=
  congrArg (andThen (exec i s)) (funext (execAll_singleton j))

/-- The byte queue's part of an edge is its operations, in the serial order of R48. -/
theorem queueEdge_eq_execAll (e : Edge) {s : State} (h : QueueShape s.cfg s.queue) :
    queueEdge (edgeWrites e) (readRequested e s) s = execAll (queueOps e s) s := by
  unfold queueOps
  cases edgeWrites e with
  | none =>
    cases readRequested e s with
    | false => cases s.queue.full <;> rfl
    | true => cases s.queue.full <;> exact (execAll_singleton .bufRead s).symm
  | some b =>
    cases readRequested e s with
    | false => cases s.queue.full <;> exact (execAll_singleton (.bufWrite b) s).symm
    | true =>
      cases hfull : s.queue.full with
      | true =>
        exact (bufWriteRead_eq_writeThenRead b h (ByteQueue.not_isEmpty_of_full hfull)).trans
          (execAll_pair (.bufWrite b) .bufRead s).symm
      | false => exact (bufWriteRead_eq_readThenWrite b h hfull).trans (execAll_pair .bufRead (.bufWrite b) s).symm

/-- An edge without a reset is the operations its ports request, one after the other. -/
theorem runEdge_eq_execAll {e : Edge} {s : State} (hr : e.r = 0) (h : QueueShape s.cfg s.queue) :
    runEdge e s = execAll (queueOps e s ++ parserOps e s ++ encoderOps e s) s := by
  rw [runEdge_eq hr, queueEdge_eq_execAll e h, ← execAll_append, List.append_assoc]

/-! ### Every step keeps the invariant -/

theorem runEdge_inv {e : Edge} {s t : State} (h : BlockInv s) (ht : runEdge e s = .next t) : BlockInv t := by
  by_cases hr : e.r = 1
  · rw [runEdge, if_pos hr] at ht
    exact execReset_inv h ht
  · have hzero : e.r = 0 := e.r.eq_zero_or_eq_one.resolve_right hr
    rw [runEdge_eq_execAll hzero (QueueInv.shape h.queueInv)] at ht
    exact execAll_inv h ht

theorem runCmd_inv {w : Cmd} {s t : State} (h : BlockInv s) (ht : runCmd w s = .next t) : BlockInv t := by
  rcases runCmd_cases ht with rfl | ⟨i, -, -, ht⟩ | ⟨bytes, -, -, ht⟩
  · exact h
  · exact exec_inv h ht
  · exact feedAll_inv h ht

/-- Settles O46: a step is one request or one edge, and both are operations, which keep the invariant. -/
theorem stepKeepsTheInvariant : Obligations.StepKeepsTheInvariant := by
  intro s t h ht
  unfold step at ht
  split at ht
  · cases ht
    exact h
  · rename_i x rest _
    have hfetched : BlockInv (s.fetched rest) := h
    cases x with
    | cmd w => exact runCmd_inv hfetched ht
    | edge e => exact runEdge_inv hfetched ht

/-! ### The part of the state that a family of operations works on -/

/-- `x` with the part of `s` that the operations of a family work on: what they read and write. The build, which every
operation reads, is that of `s`, and the faults raised in `s` follow those raised in `x`. -/
def State.withPartOf (F : Family) (x s : State) : State :=
  match F with
  | .system => { s with raised := x.raised ++ s.raised }
  | .queue =>
    { x with
      cfg := s.cfg, queue := s.queue, raised := x.raised ++ s.raised
      counters := { x.counters with ovf := s.counters.ovf }
      out := { x.out with wrOk := s.out.wrOk, rd := s.out.rd, isEmpty := s.out.isEmpty, status := s.out.status } }
  | .checksum => { x with cfg := s.cfg, raised := x.raised ++ s.raised, out := { x.out with crc := s.out.crc } }
  | .encoder =>
    { x with
      cfg := s.cfg, enc := s.enc, tx := s.tx, resetEra := s.resetEra, raised := x.raised ++ s.raised
      out := { x.out with encPutOk := s.out.encPutOk, encOk := s.out.encOk, txByte := s.out.txByte } }
  | .parser =>
    { x with
      cfg := s.cfg, parser := s.parser, disp := s.disp, raised := x.raised ++ s.raised
      counters := { x.counters with oversize := s.counters.oversize }
      out := { x.out with disp := s.out.disp, oversizeEvt := s.out.oversizeEvt } }
  | .registry =>
    { x with
      cfg := s.cfg, disp := s.disp, raised := x.raised ++ s.raised, out := { x.out with disp := s.out.disp } }

section PartOf

variable (x : State)

theorem raise_bufferFull_withPartOf (b : Byte) (s : State) :
    (x.withPartOf .queue s).raise (.bufferFull b) = x.withPartOf .queue (s.raise (.bufferFull b)) := by
  simp only [State.raise, State.withPartOf, List.append_assoc]

theorem raise_oversizeLength_withPartOf (y b : Byte) (s : State) :
    (x.withPartOf .parser s).raise (.oversizeLength y b) = x.withPartOf .parser (s.raise (.oversizeLength y b)) := by
  simp only [State.raise, State.withPartOf, List.append_assoc]

theorem execBufWrite_withPartOf (b : Byte) : Commutes (x.withPartOf .queue) (execBufWrite b) := fun s => by
  rw [execBufWrite, execBufWrite, andThen_ite, andThen_withCells, raise_bufferFull_withPartOf]
  rfl

theorem execBufRead_withPartOf : Commutes (x.withPartOf .queue) execBufRead := fun s => by
  rw [execBufRead, execBufRead, andThen_ite, andThen_withCells]
  rfl

theorem feedEffect_withPartOf (r : FeedRow) (b : Byte) : Commutes (x.withPartOf .parser) (feedEffect r b) := by
  intro s
  cases r with
  | h1Hit | h1Miss | h2Hit | h2Ab | h2Miss => rfl
  | lenOver => rw [feedEffect, feedEffect, feedLenOverEffect, feedLenOverEffect, raise_oversizeLength_withPartOf]; rfl
  | type => rw [feedEffect, feedEffect, feedTypeEffect, feedTypeEffect, andThen_withCells]; rfl
  | lenOk => rw [feedEffect, feedEffect, feedLenOkEffect, feedLenOkEffect, andThen_withCells]; rfl
  | payload => rw [feedEffect, feedEffect, feedPayloadEffect, feedPayloadEffect, andThen_withCells]; rfl
  | crc =>
    rw [feedEffect, feedEffect, feedCrcEffect, feedCrcEffect, andThen_withCells, apply_ite (State.goto · _),
      apply_ite (State.goto · _), andThen_next, apply_ite (x.withPartOf .parser)]
    rfl

theorem execParserFeed_withPartOf (b : Byte) : Commutes (x.withPartOf .parser) (execParserFeed b) :=
  fun s => feedEffect_withPartOf x (s.rowOf b) b s

theorem takeRow_withPartOf (r : FeedRow) (b : Byte) : Commutes (x.withPartOf .parser) (takeRow r b) := fun s => by
  rw [takeRow, takeRow, andThen_ite, feedEffect_withPartOf]
  rfl

/-- What commutes with each of two operations commutes with both, one after the other. -/
theorem Commutes.andThen {f : State → State} {m n : State → Result} (hm : Commutes f m) (hn : Commutes f n) :
    Commutes f fun s => andThen (m s) n := fun s => by
  show Machine.andThen (m (f s)) n = _
  rw [hm s, andThen_assoc, andThen_assoc]
  exact andThen_congr fun t _ => hn t

theorem feedAll_withPartOf (bs : List Byte) : Commutes (x.withPartOf .parser) (feedAll bs) := by
  induction bs with
  | nil => exact fun _ => rfl
  | cons b bs ih => exact (execParserFeed_withPartOf x b).andThen ih

/-- Every operation works on the part of its family: what it does there does not depend on the rest of the state, and
the rest it leaves as it is. -/
theorem exec_withPartOf (i : Instr) : Commutes (x.withPartOf (family i)) (exec i) := by
  intro s
  cases i with
  | reset | bufInit | bufEmpty | bufStatus | crc8 _ | parserAbort | dispatch _ _ _ => rfl
  | bufWrite b => exact execBufWrite_withPartOf x b s
  | bufRead => exact execBufRead_withPartOf x s
  | encPut j b => rw [exec, exec, execEncPut, execEncPut, andThen_ite]; rfl
  | encStart y n => rw [exec, exec, execEncStart, execEncStart, andThen_ite, andThen_ite]; rfl
  | encEmit => rw [exec, exec, execEncEmit, execEncEmit, andThen_ite, andThen_withCells]; rfl
  | parserFeed b => exact execParserFeed_withPartOf x b s
  | feedH1Hit | feedH1Miss _ | feedH2Hit | feedH2Ab | feedH2Miss _ | feedType _ | feedLenOk _ | feedLenOver _
  | feedPayload _ | feedCrc _ => exact takeRow_withPartOf x _ _ s
  | dispatchHit y p => rw [exec, exec, execDispatchHit, execDispatchHit, andThen_ite]; rfl
  | dispatchDefault y p => rw [exec, exec, execDispatchDefault, execDispatchDefault, andThen_ite]; rfl
  | frame y p ck => exact feedAll_withPartOf x (frameBytes y p ck) s

theorem execAll_withPartOf {F : Family} {l : List Instr} (hl : ∀ i ∈ l, family i = F) :
    Commutes (x.withPartOf F) (execAll l) := by
  induction l with
  | nil => exact fun _ => rfl
  | cons i l ih =>
    obtain ⟨rfl, hl⟩ := List.forall_mem_cons.mp hl
    exact (exec_withPartOf x i).andThen (ih hl)

end PartOf

/-- The state with no fault recorded. -/
def State.unraised (s : State) : State := { s with raised := [] }

theorem State.withPartOf_unraised (F : Family) (s : State) : s.withPartOf F s.unraised = s := by
  cases F <;> simp only [State.withPartOf, State.unraised, List.append_nil]

/-- An operation that works on a part does the same from every state that has this part. -/
theorem Commutes.onPart {F : Family} {m : State → Result} (hm : ∀ x, Commutes (State.withPartOf F x) m)
    {s x t : State} (hx : x.withPartOf F s = x) (h : m x = .next t) :
    ∃ p, m s = .next p ∧ t = x.withPartOf F p ∧
      ∀ y : State, y.withPartOf F s = y → m y = .next (y.withPartOf F p) := by
  rw [← hx, hm x s] at h
  obtain ⟨p, hp, ht⟩ := andThen_eq_next.mp h
  exact ⟨p, hp, (Host.Outcome.next.inj ht).symm, fun y hy => by simpa only [hy] using (hm y).next hp⟩

/-! ### Parts that are apart -/

theorem SameButFaultOrder.refl (s : State) : SameButFaultOrder s s := ⟨rfl, .refl _⟩

theorem SameButFaultOrder.symm {s t : State} (h : SameButFaultOrder s t) : SameButFaultOrder t s := by
  obtain ⟨heq, hperm⟩ := h
  exact ⟨by rw [heq], hperm.symm⟩

theorem SameButFaultOrder.trans {s t u : State} (h : SameButFaultOrder s t) (g : SameButFaultOrder t u) :
    SameButFaultOrder s u := by
  obtain ⟨heq, hperm⟩ := h
  obtain ⟨geq, gperm⟩ := g
  exact ⟨by rw [geq, heq], gperm.trans hperm⟩

theorem SameButFaultOrder.withPartOf {s t : State} (h : SameButFaultOrder s t) (F : Family) (p : State) :
    SameButFaultOrder (s.withPartOf F p) (t.withPartOf F p) := by
  obtain ⟨heq, hperm⟩ := h
  rw [heq]
  cases F <;> exact ⟨rfl, hperm.append_right _⟩

/-- Two families work on parts that have nothing in common but the build and the record of faults. -/
structure Apart (F G : Family) : Prop where
  keepsRight : ∀ {s p : State}, p.cfg = s.cfg → (s.withPartOf F p).withPartOf G s.unraised = s.withPartOf F p
  keepsLeft : ∀ {s p : State}, p.cfg = s.cfg → (s.withPartOf G p).withPartOf F s.unraised = s.withPartOf G p
  swap : ∀ {s p q : State}, p.cfg = s.cfg → q.cfg = s.cfg →
    SameButFaultOrder ((s.withPartOf F p).withPartOf G q) ((s.withPartOf G q).withPartOf F p)

theorem Apart.symm {F G : Family} (h : Apart F G) : Apart G F :=
  ⟨h.keepsLeft, h.keepsRight, fun hp hq => SameButFaultOrder.symm (h.swap hq hp)⟩

theorem perm_append_right_comm {α : Type} (l m n : List α) : (l ++ n ++ m).Perm (l ++ m ++ n) := by
  rw [List.append_assoc, List.append_assoc]
  exact List.perm_append_comm.append_left l

theorem apart_queue_parser : Apart .queue .parser where
  keepsRight h := by simp only [State.withPartOf, State.unraised, List.append_nil, h]
  keepsLeft h := by simp only [State.withPartOf, State.unraised, List.append_nil, h]
  swap hp hq := ⟨by simp only [State.withPartOf, hp, hq], perm_append_right_comm _ _ _⟩

theorem apart_queue_encoder : Apart .queue .encoder where
  keepsRight h := by simp only [State.withPartOf, State.unraised, List.append_nil, h]
  keepsLeft h := by simp only [State.withPartOf, State.unraised, List.append_nil, h]
  swap hp hq := ⟨by simp only [State.withPartOf, hp, hq], perm_append_right_comm _ _ _⟩

theorem apart_parser_encoder : Apart .parser .encoder where
  keepsRight h := by simp only [State.withPartOf, State.unraised, List.append_nil, h]
  keepsLeft h := by simp only [State.withPartOf, State.unraised, List.append_nil, h]
  swap hp hq := ⟨by simp only [State.withPartOf, hp, hq], perm_append_right_comm _ _ _⟩

/-- The operations of the two lists are each of one family, and the families are apart. -/
def ListsApart (l m : List Instr) : Prop :=
  ∃ F G, Apart F G ∧ (∀ i ∈ l, family i = F) ∧ ∀ i ∈ m, family i = G

theorem ListsApart.symm {l m : List Instr} (h : ListsApart l m) : ListsApart m l := by
  obtain ⟨F, G, hFG, hl, hm⟩ := h
  exact ⟨G, F, hFG.symm, hm, hl⟩

/-- Lists of operations on parts that are apart may change places. -/
theorem execAll_swap {l m : List Instr} (h : ListsApart l m) {s t : State} (ht : execAll (l ++ m) s = .next t) :
    ∃ u, execAll (m ++ l) s = .next u ∧ SameButFaultOrder t u := by
  obtain ⟨F, G, hFG, hl, hm⟩ := h
  rw [execAll_append] at ht
  obtain ⟨v, hv, ht⟩ := andThen_eq_next.mp ht
  obtain ⟨p, hp, rfl, hpart⟩ := Commutes.onPart (fun x => execAll_withPartOf x hl) (s.withPartOf_unraised F) hv
  have hpcfg : p.cfg = s.cfg := execAll_cfg (s := s.unraised) hp
  obtain ⟨q, hq, rfl, hqpart⟩ := Commutes.onPart (fun x => execAll_withPartOf x hm) (hFG.keepsRight hpcfg) ht
  have hqcfg : q.cfg = s.cfg := execAll_cfg (s := s.unraised) hq
  refine ⟨(s.withPartOf G q).withPartOf F p, ?_, hFG.swap hpcfg hqcfg⟩
  rw [execAll_append, hqpart s (s.withPartOf_unraised G)]
  exact hpart _ (hFG.keepsLeft hqcfg)

/-- No operation reads the record of faults. -/
theorem exec_sameButFaultOrder {i : Instr} {s s' t : State} (h : SameButFaultOrder s s') (ht : exec i s = .next t) :
    ∃ t', exec i s' = .next t' ∧ SameButFaultOrder t t' := by
  have hs' : s'.withPartOf (family i) s.unraised = s' := by
    have hunraised : s.unraised = s'.unraised := by
      rw [h.1]
      rfl
    rw [hunraised, State.withPartOf_unraised]
  obtain ⟨p, -, rfl, hpart⟩ := Commutes.onPart (fun x => exec_withPartOf x i) (s.withPartOf_unraised (family i)) ht
  exact ⟨_, hpart s' hs', SameButFaultOrder.withPartOf h _ p⟩

theorem execAll_sameButFaultOrder {l : List Instr} {s s' t : State} (h : SameButFaultOrder s s')
    (ht : execAll l s = .next t) : ∃ t', execAll l s' = .next t' ∧ SameButFaultOrder t t' := by
  induction l generalizing s s' with
  | nil => cases ht; exact ⟨s', rfl, h⟩
  | cons i l ih =>
    obtain ⟨u, hu, ht⟩ := andThen_eq_next.mp ht
    obtain ⟨u', hu', h⟩ := exec_sameButFaultOrder h hu
    obtain ⟨t', ht', h⟩ := ih h ht
    exact ⟨t', andThen_eq_next.mpr ⟨u', hu', ht'⟩, h⟩

/-- Lists of operations on parts that are apart may be taken in any order. -/
theorem execAll_perm {parts parts' : List (List Instr)} (hperm : parts.Perm parts')
    (hapart : parts.Pairwise ListsApart) {s t : State} (ht : execAll parts.flatten s = .next t) :
    ∃ u, execAll parts'.flatten s = .next u ∧ SameButFaultOrder t u := by
  induction hperm generalizing s t with
  | nil => exact ⟨t, ht, SameButFaultOrder.refl t⟩
  | cons l _ ih =>
    rw [List.flatten_cons, execAll_append] at ht
    obtain ⟨v, hv, ht⟩ := andThen_eq_next.mp ht
    obtain ⟨u, hu, h⟩ := ih hapart.of_cons ht
    exact ⟨u, by rw [List.flatten_cons, execAll_append, hv]; exact hu, h⟩
  | swap l m parts =>
    rw [List.flatten_cons, List.flatten_cons, ← List.append_assoc, execAll_append] at ht
    obtain ⟨v, hv, ht⟩ := andThen_eq_next.mp ht
    obtain ⟨v', hv', h⟩ := execAll_swap (List.rel_of_pairwise_cons hapart List.mem_cons_self) hv
    obtain ⟨u, hu, h⟩ := execAll_sameButFaultOrder h ht
    exact ⟨u, by rw [List.flatten_cons, List.flatten_cons, ← List.append_assoc, execAll_append, hv']; exact hu, h⟩
  | trans hperm _ ih ih' =>
    obtain ⟨v, hv, h⟩ := ih hapart ht
    obtain ⟨u, hu, h'⟩ := ih' ((hperm.pairwise_iff ListsApart.symm).mp hapart) hv
    exact ⟨u, hu, SameButFaultOrder.trans h h'⟩

/-! ### An edge as its operations in any order -/

/-- Settles O60: the edge is the operations of its parts, which complete, and the parts are apart. -/
theorem edgeEqualsItsOperationsInAnyOrder : Obligations.EdgeEqualsItsOperationsInAnyOrder := by
  intro s e h hr
  have hqueue := queueOps_spec e s
  have hparser := parserOps_spec e s
  have hencoder := encoderOps_spec e s
  have hrow : ∀ i ∈ queueOps e s ++ parserOps e s ++ encoderOps e s, isRowByName i = false := by
    simp only [List.forall_mem_append]
    exact ⟨⟨fun i hi => (hqueue i hi).2, fun i hi => (hparser i hi).2⟩, fun i hi => (hencoder i hi).2⟩
  obtain ⟨t, ht⟩ := execAll_completes hrow h
  refine ⟨t, (runEdge_eq_execAll hr (QueueInv.shape h.queueInv)).trans ht, ht, fun parts hperm => ?_⟩
  have hapart : [queueOps e s, parserOps e s, encoderOps e s].Pairwise ListsApart := by
    have hq := fun i hi => (hqueue i hi).1
    have hp := fun i hi => (hparser i hi).1
    have he := fun i hi => (hencoder i hi).1
    simp only [List.pairwise_cons, List.forall_mem_cons, List.Pairwise.nil, List.not_mem_nil, false_imp_iff,
      implies_true, and_true]
    exact ⟨⟨⟨_, _, apart_queue_parser, hq, hp⟩, ⟨_, _, apart_queue_encoder, hq, he⟩⟩,
      ⟨_, _, apart_parser_encoder, hp, he⟩⟩
  exact execAll_perm hperm.symm hapart (by simpa using ht)

/-! ### Draining the queue (R50, R123, R73) -/

/-- `s` with another queue, and another byte returned by the read: what `BUF.READ` changes. -/
def State.withRead (q : ByteQueue) (rd : Option Byte) (s : State) : State :=
  (s.withQueue q).withOut { s.out with rd := rd }

/-- What changes nothing of the part an operation works on commutes with it. -/
theorem exec_commutes_of_outside {i : Instr} {f : State → State}
    (hf : ∀ x s, f (State.withPartOf (family i) x s) = State.withPartOf (family i) (f x) s) :
    Commutes f (exec i) := by
  intro s
  conv_lhs => rw [← s.withPartOf_unraised (family i), hf, exec_withPartOf]
  conv_rhs => rw [← s.withPartOf_unraised (family i), exec_withPartOf, andThen_assoc]
  exact andThen_congr fun t _ => congrArg Host.Outcome.next (hf s t).symm

theorem execParserFeed_withRead (q : ByteQueue) (rd : Option Byte) (b : Byte) :
    Commutes (State.withRead q rd) (execParserFeed b) :=
  exec_commutes_of_outside (i := .parserFeed b) fun _ _ => rfl

theorem feedAll_withRead (q : ByteQueue) (rd : Option Byte) (l : List Byte) :
    Commutes (State.withRead q rd) (feedAll l) := by
  induction l with
  | nil => exact fun _ => rfl
  | cons b l ih => exact (execParserFeed_withRead q rd b).andThen ih

/-- `RX.STEP` on a queue that holds a byte feeds the oldest one, and takes it from the queue. -/
theorem rxStep_nonempty {s u : State} (hempty : s.queue.isEmpty = false) (hhead : s.queue.head < s.cfg.capacity)
    (hu : execParserFeed (s.storageAt s.queue.head) s = .next u) :
    rxStep s = .next (u.withRead (s.queue.pop s.cfg) (some (s.storageAt s.queue.head))) := by
  rw [rxStep, if_neg (by simp [hempty]), execBufRead_nonempty hempty hhead, andThen_next]
  exact (execParserFeed_withRead _ _ _).next hu

/-- As many `RX.STEP`s as bytes are queued feed the queued bytes in order. -/
theorem rxSteps_of_feedAll {c : Config} {n : Nat} {s u : State} (hc : s.cfg = c) (h : QueueShape c s.queue)
    (hn : s.queue.count c = n) (hu : feedAll (s.queue.queued c) s = .next u) :
    ∃ q rd, rxSteps n s = .next (u.withRead q rd) ∧ q.queued c = [] ∧ q.tail = s.queue.tail ∧
      q.storage = s.queue.storage := by
  induction n generalizing s u with
  | zero =>
    have hnil : s.queue.queued c = [] := by rw [← List.length_eq_zero_iff, ByteQueue.length_queued, hn]
    rw [hnil] at hu
    cases hu
    exact ⟨s.queue, s.out.rd, rfl, hnil, rfl, rfl⟩
  | succ n ih =>
    have hempty : s.queue.isEmpty = false := by
      rw [Bool.eq_false_iff, Ne, ByteQueue.isEmpty_iff_count h, hn]
      exact Nat.succ_ne_zero n
    obtain ⟨hshape, hqueued, -⟩ := ByteQueue.pop_spec h hempty
    have hcount : (s.queue.pop c).count c = n := by
      have := ByteQueue.count_pop h hempty
      omega
    rw [hqueued, feedAll_cons] at hu
    obtain ⟨v, hv, hu⟩ := andThen_eq_next.mp hu
    have hstep := rxStep_nonempty hempty (hc ▸ h.1) hv
    rw [hc] at hstep
    obtain ⟨q, rd, hrun, hq⟩ := ih (s := v.withRead (s.queue.pop c) (some (s.storageAt s.queue.head)))
      ((exec_cfg (i := .parserFeed _) hv).trans hc) hshape hcount ((feedAll_withRead _ _ _).next hu)
    refine ⟨q, rd, ?_, hq⟩
    rw [rxSteps, hstep]
    exact hrun

/-- Settles O56: `DRAIN` is as many `RX.STEP`s as bytes are queued, and changes the queue and the byte returned beside
what the feeding changes. -/
theorem drainFeedsTheQueuedBytesInOrder : Obligations.DrainFeedsTheQueuedBytesInOrder := by
  intro s h
  obtain ⟨u, hu⟩ := feedAll_completes (l := s.queue.queued s.cfg) h
  obtain ⟨hcfg, -, henc, htx, -⟩ := feedAll_sameOutside hu
  obtain ⟨q, rd, hrun, hnil, htail, hstorage⟩ := rxSteps_of_feedAll rfl (QueueInv.shape h.queueInv) rfl hu
  refine ⟨u.withRead q rd, u, hrun, hu, hcfg ▸ hnil, rfl, rfl, rfl, rfl, hcfg, henc, htx, htail, fun i => ?_⟩
  show heldByte .storage q.storage i = _
  rw [hstorage]
  rfl

end Sys2Proof.Machine

/-! 30_encoding.md: the words of the requests and the operations they decode to (R56, R59 to R65), idle words (R59 to
R64), and the one row that a fed byte takes (R66). -/

namespace Sys2Proof.Machine

/-! ### Decode and encode -/

/-- Settles O57: each operation is read back from its own request. -/
theorem decodeReadsBackEncode : Obligations.DecodeReadsBackEncode := by
  intro c i h
  cases i with
  | reset | bufInit | bufRead | bufEmpty | bufStatus | crc8 _ | encPut _ _ | encStart _ _ | encEmit | parserAbort
  | dispatch _ _ _ => rfl
  | bufWrite b => exact Laws.EncodeRoundTrip.bufWrite b c h
  | parserFeed b => exact Laws.EncodeRoundTrip.parserFeed b c h
  | feedH1Hit => exact Laws.EncodeRoundTrip.feedH1Hit c h
  | feedH1Miss b => exact Laws.EncodeRoundTrip.feedH1Miss b c h
  | feedH2Hit => exact Laws.EncodeRoundTrip.feedH2Hit c h
  | feedH2Ab => exact Laws.EncodeRoundTrip.feedH2Ab c h
  | feedH2Miss b => exact Laws.EncodeRoundTrip.feedH2Miss b c h
  | feedType b => exact Laws.EncodeRoundTrip.feedType b c h
  | feedLenOk b => exact Laws.EncodeRoundTrip.feedLenOk b c h
  | feedLenOver b => exact Laws.EncodeRoundTrip.feedLenOver b c h
  | feedPayload b => exact Laws.EncodeRoundTrip.feedPayload b c h
  | feedCrc b => exact Laws.EncodeRoundTrip.feedCrc b c h
  | dispatchHit t p => exact Laws.EncodeRoundTrip.dispatchHit t p c h
  | dispatchDefault t p => exact Laws.EncodeRoundTrip.dispatchDefault t p c h
  | frame t p ck => exact Laws.EncodeRoundTrip.frame t p ck c h

/-- Settles O59: each of the words is the request of its operation. -/
theorem wordsFromTheTablesDecode : Obligations.WordsFromTheTablesDecode := by
  have hdecode (i : Instr) (hi : i.wellFormed Config.sample = true) :
      decode Config.sample (encode i) = .ok i.selected := decodeReadsBackEncode Config.sample i hi
  exact ⟨hdecode (.bufWrite 0x7E) rfl, hdecode (.parserFeed 0xAB) rfl, hdecode .parserAbort rfl,
    hdecode (.encStart 0x10 3) rfl, hdecode .feedH1Hit rfl, hdecode (.feedPayload 0x03) rfl,
    Laws.EncodeRoundTrip.decodeWire_frameBytes 0x10 [0x01, 0x02, 0x03] 0x2C (by decide)⟩

/-! ### The classification words (R65, R66) -/

section ClassWord

variable (c : Config) {n : BitVec 3} (b : Byte)

/-- The word of a state's number and a byte decodes to the row that classification takes. -/
theorem decode_classWord {st : ParserState} (hn : ParserState.ofNumber n = some st) :
    decode c (.w (n ++ b)) = .ok ((classify c st b).instr b) := by
  obtain ⟨hstate, hbyte⟩ := Laws.EncodeRoundTrip.class_append n b
  simp only [decode, decodeW, hstate, hbyte, hn]

/-- The word of a number that names no state decodes to nothing (U5, log 16). -/
theorem decode_classWord_none (hn : ParserState.ofNumber n = none) :
    decode c (.w (n ++ b)) = .error .noParserState := by
  obtain ⟨hstate, -⟩ := Laws.EncodeRoundTrip.class_append n b
  simp only [decode, decodeW, hstate, hn]

theorem instr_classify_awaitHeader1 :
    (classify c .awaitHeader1 b).instr b = if b = 0xAB then .feedH1Hit else .feedH1Miss b :=
  apply_ite (FeedRow.instr b) _ _ _

theorem instr_classify_awaitHeader2 :
    (classify c .awaitHeader2 b).instr b =
      if b = 0xCD then .feedH2Hit else if b = 0xAB then .feedH2Ab else .feedH2Miss b :=
  (apply_ite (FeedRow.instr b) _ _ _).trans (congrArg (ite _ _) (apply_ite (FeedRow.instr b) _ _ _))

theorem instr_classify_readLength :
    (classify c .readLength b).instr b = if b.toNat ≤ c.maxPayload then .feedLenOk b else .feedLenOver b :=
  apply_ite (FeedRow.instr b) _ _ _

end ClassWord

/-- Settles O58: a number names its state, and the state and the byte give the row of the table. -/
theorem classificationWordsDecode : Obligations.ClassificationWordsDecode := by
  intro c n b
  have hn : n = 0 ∨ n = 1 ∨ n = 2 ∨ n = 3 ∨ n = 4 ∨ n = 5 ∨ n = 6 ∨ n = 7 := by
    revert n
    decide
  rcases hn with rfl | rfl | rfl | rfl | rfl | rfl | rfl | rfl
  · exact (decode_classWord c b rfl).trans (congrArg _ (instr_classify_awaitHeader1 c b))
  · exact (decode_classWord c b rfl).trans (congrArg _ (instr_classify_awaitHeader2 c b))
  · exact decode_classWord c b (st := .readType) rfl
  · exact (decode_classWord c b rfl).trans (congrArg _ (instr_classify_readLength c b))
  · exact decode_classWord c b (st := .readPayload) rfl
  · exact decode_classWord c b (st := .readCrc) rfl
  · exact decode_classWord_none c b rfl
  · exact decode_classWord_none c b rfl

/-! ### A fed byte takes one row (R66, R105) -/

/-- The byte that a row's instruction stands for: a row for one fixed byte has it in its name and not as an operand. -/
abbrev FeedRow.Names (r : FeedRow) (b : Byte) : Prop :=
  (r = .h1Hit → b = hdr1) ∧ (r = .h2Hit → b = hdr2) ∧ (r = .h2Ab → b = hdr1)

/-- The instruction of a row is the row asked for by name. -/
theorem exec_instr {r : FeedRow} {b : Byte} (h : FeedRow.Names r b) (s : State) :
    exec (r.instr b) s = takeRow r b s := by
  obtain ⟨h1, h2, h3⟩ := h
  cases r with
  | h1Hit => rw [h1 rfl]; rfl
  | h2Hit => rw [h2 rfl]; rfl
  | h2Ab => rw [h3 rfl]; rfl
  | h1Miss | h2Miss | type | lenOk | lenOver | payload | crc => rfl

/-- The row selected is one whose instruction stands for the byte. -/
theorem rowOf_names (s : State) (b : Byte) : FeedRow.Names (s.rowOf b) b := by
  obtain ⟨h1Hit, -, h2Hit, h2Ab, -⟩ := classify_spec s.cfg s.parser.state b
  exact ⟨fun hr => (h1Hit.mp hr).2, fun hr => (h2Hit.mp hr).2, fun hr => (h2Ab.mp hr).2.2⟩

/-- Settles O36: the row is the one that the state and the byte select. -/
theorem feedTakesExactlyOneRow : Obligations.FeedTakesExactlyOneRow := by
  intro s b
  have hrow : exec (.parserFeed b) s = exec ((s.rowOf b).instr b) s :=
    ((exec_instr (rowOf_names s b) s).trans (takeRow_of_selected rfl)).symm
  refine ⟨s.rowOf b, hrow, fun h => ?_, fun r' hne hnames => ?_⟩
  · obtain ⟨t, ht⟩ := execParserFeed_completes h.parserInv b
    obtain ⟨hcfg, hqueue, henc, htx, hera, hschedule, hovf⟩ := feedEffect_sameOutside ht
    exact ⟨t, ht, hrow.symm.trans ht, hcfg, hqueue, henc, htx, hovf, hera, hschedule⟩
  · rw [exec_instr hnames]
    exact takeRow_of_not_selected hne.symm

/-! ### Steps on requests (R58, R153) -/

theorem step_cmd {s : State} {w : Cmd} {rest : List Input} (h : s.schedule = .cmd w :: rest) :
    step s = runCmd w (s.fetched rest) := by
  simp only [step, h, runInput]

theorem step_edge {s : State} {e : Edge} {rest : List Input} (h : s.schedule = .edge e :: rest) :
    step s = runEdge e (s.fetched rest) := by
  simp only [step, h, runInput]

theorem step_nothing_scheduled {s : State} (h : s.schedule = []) : step s = .next (s.fetched []) := by
  simp only [step, h]

/-- In the separate block every request is an input but those for `DISPATCH` (R126). -/
theorem isInput_separate {c : Config} {w : Cmd} (hc : c.integrated = false) (hd : ∀ t p, w ≠ .d t p)
    (hi : ∀ t p n, w ≠ .invokeDispatch t p n) : isInput c w = true := by
  cases w with
  | d t p => exact absurd rfl (hd t p)
  | invokeDispatch t p n => exact absurd rfl (hi t p n)
  | r _ | p _ | e _ _ _ _ _ | t _ | observeEmpty | observeStatus | applyCrc8 _ => rfl
  | c _ | f _ | w _ | wire _ => simp only [isInput, hc, Bool.not_false, Bool.true_or]

/-- `parser_abort` is an input of either block (R61). -/
theorem isInput_abort (c : Config) (b : BitVec 9) : isInput c (.f (1#1 ++ b)) = true := by
  have habort : (1#1 ++ b).getLsbD 9 = true := by
    rw [BitVec.getLsbD_append]
    rfl
  simp only [isInput, habort, Bool.or_true]

/-- Settles O52: a step takes the request off the schedule and runs what it decodes to. -/
theorem stepRunsTheDecodedInstruction : Obligations.StepRunsTheDecodedInstruction := by
  refine ⟨fun s w rest i h hinput hdecode => ?_, fun _ _ => isInput_separate,
    fun c x b y i d t n => ⟨rfl, rfl, isInput_abort c b, rfl, rfl⟩, fun _ => step_nothing_scheduled⟩
  rw [step_cmd h]
  exact runCmd_decoded hinput hdecode

/-! ### Idle words and the reserved request (R59 to R64) -/

/-- A request that is idle or reserved changes nothing, whether it is an input of the build or not. -/
theorem runCmd_idle_or_reserved {w : Cmd} {s : State}
    (h : decode s.cfg w = .error .idle ∨ decode s.cfg w = .error .reservedEncRequest) : runCmd w s = .next s := by
  cases hinput : isInput s.cfg w with
  | false => exact runCmd_not_input hinput
  | true => rcases h with h | h <;> simp only [runCmd, hinput, h, if_true, runRejected]

/-- Without `wr_en` no byte is written, whatever `wr_data` carries (R59). -/
theorem decodeP_idle (b : Byte) : decodeP (0#1 ++ b) = .error .idle := by
  rw [decodeP, BitVec.getLsbD_append]
  rfl

/-- Without `parser_abort` and `feed_valid` no byte is fed, whatever `feed_data` carries (R61). -/
theorem decodeF_idle (b : Byte) : decodeF (0#2 ++ b) = .error .idle := by
  rw [decodeF, BitVec.getLsbD_append, BitVec.getLsbD_append]
  rfl

/-- An edge on which no port carries a request changes nothing, in either build. -/
theorem runEdge_idle {e : Edge} {s : State} (hr : e.r = 0) (hp : e.p.getLsbD 8 = false) (hc : e.c = 0)
    (habort : e.f.getLsbD 9 = false) (hfeed : e.f.getLsbD 8 = false) (he : e.e = 0b00 ∨ e.e = 0b11) (ht : e.t = 0)
    (hrun : e.rxRun = 0) : runEdge e s = .next s := by
  have hwrite : edgeWrites e = none := by rw [edgeWrites, hp, if_neg Bool.false_ne_true]
  have hread : readRequested e s = false := by simp [readRequested, hc, hrun]
  have hparser : parserOps e s = [] := by
    simp only [parserOps, fedBytes, edgeAborts, habort, hfeed, hread, Bool.false_eq_true, if_false, ite_self,
      List.map_nil]
  have hsender : senderOps e = [] := by rcases he with he | he <;> simp [senderOps, he]
  rw [runEdge_eq hr, hwrite, hread, hparser, encoderOps_sender ht, hsender]
  rfl

/-- Settles O53: such words select no operation, and an edge that carries no others requests none. -/
theorem idleAndReservedWordsChangeNothing : Obligations.IdleAndReservedWordsChangeNothing := by
  intro s rest
  refine ⟨fun w h hw => ?_, fun e h hr hp hc habort hfeed he ht hrun => ?_⟩
  · rw [step_cmd h]
    apply runCmd_idle_or_reserved
    rcases hw with rfl | ⟨b, rfl⟩ | rfl | ⟨b, rfl⟩ | ⟨x, i, b, y, n, rfl, rfl | rfl⟩ | rfl
    · exact .inl rfl
    · exact .inl (decodeP_idle b)
    · exact .inl rfl
    · exact .inl (decodeF_idle b)
    · exact .inl rfl
    · exact .inr rfl
    · exact .inl rfl
  · rw [step_edge h]
    exact runEdge_idle hr hp hc habort hfeed he ht hrun

end Sys2Proof.Machine

/-! 40_buffer.md: the operations of the byte queue (R76 to R81, R86), the FIFO law (R82), and the full-capacity law and the
two situations with equal indices (R83, R84). -/

namespace Sys2Proof.Machine

/-! ### An empty and an initialised queue (R18, R76) -/

theorem ByteQueue.isEmpty_iff {q : ByteQueue} : q.isEmpty = true ↔ q.full = false ∧ q.head = q.tail := by
  simp only [ByteQueue.isEmpty, Bool.and_eq_true, Bool.not_eq_true', beq_iff_eq]

theorem ByteQueue.isEmpty_iff_queued {c : Config} {q : ByteQueue} (h : QueueShape c q) :
    q.isEmpty = true ↔ q.queued c = [] := by
  rw [ByteQueue.isEmpty_iff_count h, ← ByteQueue.length_queued, List.length_eq_zero_iff]

theorem ByteQueue.full_iff_length_queued {c : Config} {q : ByteQueue} (h : QueueShape c q) :
    q.full = true ↔ (q.queued c).length = c.capacity := by
  rw [ByteQueue.full_iff_count h, ByteQueue.length_queued]

@[simp] theorem ByteQueue.count_init (c : Config) (q : ByteQueue) : q.init.count c = 0 := by
  simp [ByteQueue.init, ByteQueue.count]

@[simp] theorem ByteQueue.queued_init (c : Config) (q : ByteQueue) : q.init.queued c = [] := by
  simp [ByteQueue.queued]

theorem ByteQueue.init_shape {c : Config} {q : ByteQueue} (hcap : 1 ≤ c.capacity) (hwf : q.storage.wf) :
    QueueShape c q.init :=
  ⟨hcap, hcap, fun _ => rfl, hwf⟩

/-! ### Bytes written within the capacity -/

/-- `t` is `s` after the bytes `l` were written and every one of them accepted (R78, R82). -/
structure Accepted (s : State) (l : List Byte) (t : State) : Prop where
  cfg : t.cfg = s.cfg
  shape : QueueShape t.cfg t.queue
  queued : t.queue.queued t.cfg = s.queue.queued s.cfg ++ l
  counters : t.counters = s.counters
  wrOk : t.out.wrOk = (s.out.wrOk || !l.isEmpty)

theorem Accepted.nil {s : State} (h : QueueShape s.cfg s.queue) : Accepted s [] s :=
  ⟨rfl, h, (List.append_nil _).symm, rfl, (Bool.or_false _).symm⟩

theorem Accepted.append {s t u : State} {l m : List Byte} (hl : Accepted s l t) (hm : Accepted t m u) :
    Accepted s (l ++ m) u where
  cfg := hm.cfg.trans hl.cfg
  shape := hm.shape
  queued := by rw [hm.queued, hl.queued, List.append_assoc]
  counters := hm.counters.trans hl.counters
  wrOk := by cases l <;> simp [hm.wrOk, hl.wrOk]

theorem Accepted.wrOk_of_ne_nil {s t : State} {l : List Byte} (h : Accepted s l t) (hne : l ≠ []) :
    t.out.wrOk = true := by
  simp [h.wrOk, hne]

/-- After bytes accepted by an empty queue, `full` says that there are `CAPACITY` of them. -/
theorem Accepted.full_iff {s t : State} {l : List Byte} (h : Accepted s l t) (hs : s.queue.queued s.cfg = []) :
    t.queue.full = true ↔ l.length = s.cfg.capacity := by
  rw [ByteQueue.full_iff_length_queued h.shape, h.queued, hs, h.cfg, List.nil_append]

/-- A queue with room accepts a byte. -/
theorem execBufWrite_accepts {s : State} (b : Byte) (h : QueueShape s.cfg s.queue) (hfull : s.queue.full = false) :
    ∃ t, execBufWrite b s = .next t ∧ Accepted s [b] t := by
  obtain ⟨hshape, hqueued, -⟩ := ByteQueue.push_spec b h hfull
  obtain ⟨-, htail, -⟩ := h
  exact ⟨_, execBufWrite_room b hfull htail, rfl, hshape, hqueued, rfl, (Bool.or_true _).symm⟩

/-- Bytes for which there is room are all accepted. -/
theorem writeAll_accepts {s : State} (l : List Byte) (h : QueueShape s.cfg s.queue)
    (hlen : (s.queue.queued s.cfg).length + l.length ≤ s.cfg.capacity) :
    ∃ t, writeAll l s = .next t ∧ Accepted s l t := by
  induction l generalizing s with
  | nil => exact ⟨s, rfl, Accepted.nil h⟩
  | cons b l ih =>
    rw [List.length_cons] at hlen
    have hfull : s.queue.full = false := by
      rw [Bool.eq_false_iff, Ne, ByteQueue.full_iff_length_queued h]
      omega
    obtain ⟨t, ht, hb⟩ := execBufWrite_accepts b h hfull
    have hroom : (t.queue.queued t.cfg).length + l.length ≤ t.cfg.capacity := by
      rw [hb.queued, hb.cfg, List.length_append, List.length_singleton]
      omega
    obtain ⟨u, hu, hl⟩ := ih hb.shape hroom
    refine ⟨u, ?_, hb.append hl⟩
    rw [writeAll, ht, andThen_next, hu]

/-! ### Bytes read back -/

/-- Reading a queue that holds a byte takes the oldest one. -/
theorem execBufRead_takes {s : State} {b : Byte} {l : List Byte} (h : QueueShape s.cfg s.queue)
    (hq : s.queue.queued s.cfg = b :: l) :
    ∃ t, execBufRead s = .next t ∧ t.cfg = s.cfg ∧ QueueShape t.cfg t.queue ∧ t.out.rd = some b ∧
      t.queue.queued t.cfg = l := by
  have hempty : s.queue.isEmpty = false := by
    rw [Bool.eq_false_iff, Ne, ByteQueue.isEmpty_iff_queued h, hq]
    exact List.cons_ne_nil b l
  obtain ⟨hshape, hpop, -⟩ := ByteQueue.pop_spec h hempty
  obtain ⟨hbyte, hrest⟩ := List.cons.inj (hpop.symm.trans hq)
  exact ⟨_, execBufRead_nonempty hempty h.1, rfl, hshape, congrArg some hbyte, hrest⟩

/-- As many reads as bytes are queued return them all, oldest first, and leave the queue empty. -/
theorem readAll_queued {s : State} {l : List Byte} (h : QueueShape s.cfg s.queue)
    (hq : s.queue.queued s.cfg = l) (got : List Byte) :
    ∃ u, readAll l.length s got = (.next u, got ++ l) ∧ QueueShape u.cfg u.queue ∧ u.queue.queued u.cfg = [] := by
  induction l generalizing s got with
  | nil => exact ⟨s, by rw [List.append_nil]; rfl, h, hq⟩
  | cons b l ih =>
    obtain ⟨t, ht, -, hshape, hrd, hrest⟩ := execBufRead_takes h hq
    obtain ⟨u, hu, hempty⟩ := ih hshape hrest (got ++ [b])
    refine ⟨u, ?_, hempty⟩
    simp only [List.length_cons, readAll, ht, hrd, Option.toList_some, hu, List.append_assoc, List.singleton_append]

/-! ### The FIFO law (R82) -/

/-- A write keeps the invariant of the queue. -/
theorem execBufWrite_queueInv {b : Byte} {s t : State} (h : QueueInv s.cfg s.queue) (ht : execBufWrite b s = .next t) :
    QueueInv t.cfg t.queue := by
  rcases execBufWrite_cases ht with ⟨-, rfl⟩ | ⟨hfull, -, rfl⟩
  · exact h
  · exact ByteQueue.push_inv b h hfull

/-- A read keeps the invariant of the queue. -/
theorem execBufRead_queueInv {s t : State} (h : QueueInv s.cfg s.queue) (ht : execBufRead s = .next t) :
    QueueInv t.cfg t.queue := by
  rcases execBufRead_cases ht with ⟨-, rfl⟩ | ⟨hempty, -, rfl⟩
  · exact h
  · exact ByteQueue.pop_inv h hempty

/-- A write on the list: the byte joins it at the end while there are fewer than `CAPACITY`. -/
theorem execBufWrite_refines {s : State} (b : Byte) (h : QueueShape s.cfg s.queue) :
    ∃ t, execBufWrite b s = .next t ∧
      if (s.queue.queued s.cfg).length < s.cfg.capacity then
        t.out.wrOk = true ∧ t.queue.queued t.cfg = s.queue.queued s.cfg ++ [b]
      else t.out.wrOk = false ∧ t.queue.queued t.cfg = s.queue.queued s.cfg := by
  have hiff := ByteQueue.full_iff_length_queued h
  cases hfull : s.queue.full with
  | true =>
    refine ⟨_, execBufWrite_full b hfull, ?_⟩
    rw [if_neg (hiff.mp hfull).not_lt]
    exact ⟨rfl, rfl⟩
  | false =>
    obtain ⟨t, ht, hb⟩ := execBufWrite_accepts b h hfull
    have hle : (s.queue.queued s.cfg).length ≤ s.cfg.capacity := by
      rw [ByteQueue.length_queued]
      exact ByteQueue.count_le (Nat.zero_lt_of_lt h.1)
    have hne : (s.queue.queued s.cfg).length ≠ s.cfg.capacity := hiff.not.mp (by simp [hfull])
    refine ⟨t, ht, ?_⟩
    rw [if_pos (lt_of_le_of_ne hle hne)]
    exact ⟨hb.wrOk_of_ne_nil (List.cons_ne_nil b []), hb.queued⟩

/-- A read on the list: its first byte, if it has one, is returned and leaves it. -/
theorem execBufRead_refines {s : State} (h : QueueShape s.cfg s.queue) :
    ∃ t, execBufRead s = .next t ∧ t.out.rd = (s.queue.queued s.cfg).head? ∧
      t.queue.queued t.cfg = (s.queue.queued s.cfg).tail := by
  cases hq : s.queue.queued s.cfg with
  | nil => exact ⟨_, execBufRead_empty ((ByteQueue.isEmpty_iff_queued h).mpr hq), rfl, hq⟩
  | cons b l =>
    obtain ⟨t, ht, -, -, hrd, hrest⟩ := execBufRead_takes h hq
    exact ⟨t, ht, hrd, hrest⟩

/-- Settles O11: each operation is that of the list, and accepted bytes join the queued ones, which are read in order. -/
theorem queueRefinesAList : Obligations.QueueRefinesAList := by
  intro s hinv
  have h := QueueInv.shape hinv
  refine ⟨⟨_, rfl, ByteQueue.queued_init _ _⟩, fun b => ?_, ?_, fun l hlen => ?_⟩
  · obtain ⟨t, ht, hlist⟩ := execBufWrite_refines b h
    exact ⟨t, ht, execBufWrite_queueInv hinv ht, hlist⟩
  · obtain ⟨t, ht, hrd, hrest⟩ := execBufRead_refines h
    refine ⟨t, ht, execBufRead_queueInv hinv ht, ?_⟩
    generalize s.queue.queued s.cfg = l at hrd hrest ⊢
    cases l <;> exact ⟨hrd, hrest⟩
  · obtain ⟨t, ht, hl⟩ := writeAll_accepts l h hlen
    obtain ⟨u, hu, -, hempty⟩ := readAll_queued hl.shape hl.queued []
    rw [List.length_append] at hu
    exact ⟨t, u, ht, hu, hempty⟩

/-! ### The full-capacity law (R83, R84) -/

/-- Writing at most `CAPACITY` bytes after `BUF.INIT`: all are accepted. -/
theorem writeAll_after_bufInit {s : State} {l : List Byte} (hcap : 1 ≤ s.cfg.capacity) (hwf : s.queue.storage.wf)
    (hlen : l.length ≤ s.cfg.capacity) :
    ∃ t, writeAll l (s.withQueue s.queue.init) = .next t ∧ Accepted (s.withQueue s.queue.init) l t :=
  writeAll_accepts l (ByteQueue.init_shape hcap hwf) (by simpa using hlen)

/-- After `BUF.INIT` a queue accepts `CAPACITY` bytes, and is full of them. -/
theorem writeAll_capacity {s : State} {l : List Byte} (hcap : 1 ≤ s.cfg.capacity) (hwf : s.queue.storage.wf)
    (hlen : l.length = s.cfg.capacity) :
    ∃ t, writeAll l (s.withQueue s.queue.init) = .next t ∧ Accepted (s.withQueue s.queue.init) l t ∧
      t.queue.full = true ∧ t.queue.head = t.queue.tail ∧ t.queue.queued t.cfg = l := by
  obtain ⟨t, ht, hl⟩ := writeAll_after_bufInit hcap hwf hlen.le
  have hfull : t.queue.full = true := (hl.full_iff (ByteQueue.queued_init _ _)).mpr hlen
  obtain ⟨-, -, hequal, -⟩ := hl.shape
  exact ⟨t, ht, hl, hfull, hequal hfull, hl.queued.trans (by simp)⟩

/-- Settles O12: all the bytes are accepted, and `full` holds exactly when they are `CAPACITY`. -/
theorem exactlyCapacityWritesSucceed : Obligations.ExactlyCapacityWritesSucceed := by
  intro s s0 l b hcap hwf hinit hlen
  cases hinit
  obtain ⟨t, ht, hl, hfull, hequal, hqueued⟩ := writeAll_capacity hcap hwf hlen
  have hne : l ≠ [] := List.length_pos_iff.mp (hlen ▸ hcap)
  refine ⟨t, ht, hl.counters, hl.wrOk_of_ne_nil hne, hfull, hequal, hqueued, fun l' hpre hproper => ?_,
    _, execBufWrite_full b hfull, rfl, rfl⟩
  obtain ⟨u, hu, hl'⟩ := writeAll_after_bufInit hcap hwf (hpre.length_le.trans hlen.le)
  refine ⟨u, hu, ?_, hl'.wrOk_of_ne_nil⟩
  rw [Bool.eq_false_iff, Ne, hl'.full_iff (ByteQueue.queued_init _ _)]
  exact fun hlen' => hproper (hpre.eq_of_length (hlen'.trans hlen.symm))

/-- Settles O13, from the full-capacity law and the reading of what is queued. -/
theorem fullAndEmptyHaveEqualIndices : Obligations.FullAndEmptyHaveEqualIndices := by
  intro s s0 l hcap hwf hinit hlen
  cases hinit
  obtain ⟨t, ht, hl, hfull, hequal, hqueued⟩ := writeAll_capacity hcap hwf hlen
  obtain ⟨u, hu, hshape, hdrained⟩ := readAll_queued hl.shape hqueued []
  have hempty := (ByteQueue.isEmpty_iff_queued hshape).mpr hdrained
  obtain ⟨hnotFull, hindices⟩ := ByteQueue.isEmpty_iff.mp hempty
  exact ⟨t, u, ht, hequal, ByteQueue.not_isEmpty_of_full hfull, hfull, hu, hindices, hempty, hnotFull⟩

/-! ### Each operation (R76 to R81) -/

/-- Settles O5: the indices and `full` are all that is written. -/
theorem bufInitEmptiesTheQueue : Obligations.BufInitEmptiesTheQueue := by
  intro s
  exact ⟨_, rfl, rfl, rfl, rfl, fun _ => rfl, rfl, ByteQueue.count_init _ _, rfl, rfl, rfl, rfl, rfl, rfl, rfl, rfl, rfl,
    rfl⟩

/-- The cells after the accepted byte is stored. -/
theorem storageAt_push {s : State} (b : Byte) (hwf : s.queue.storage.wf) (i : Nat) :
    (s.withQueue (s.queue.push s.cfg b)).storageAt i = if s.queue.tail = i then b else s.storageAt i :=
  heldByte_write .storage hwf s.queue.tail i b

/-- Settles O6: the accepted case of the write, with the cells as read after a write. -/
theorem bufWriteAppends : Obligations.BufWriteAppends := by
  intro s b hfull htail hwf
  refine ⟨_, execBufWrite_room b hfull htail, rfl, ?_, fun i hi => ?_, rfl, rfl, rfl, rfl, rfl, rfl, rfl, rfl, rfl, rfl, rfl,
    rfl, rfl⟩
  · rw [State.withOut_storageAt, storageAt_push b hwf, if_pos rfl]
  · rw [State.withOut_storageAt, storageAt_push b hwf, if_neg hi.symm]

/-- Settles O7: the refused case of the write raises F1 and completes. -/
theorem bufWriteOnFullQueueIsCounted : Obligations.BufWriteOnFullQueueIsCounted := by
  intro s b hfull
  exact ⟨_, execBufWrite_full b hfull, rfl, rfl, rfl, rfl, rfl, rfl, rfl, rfl, rfl, rfl, rfl, rfl, rfl⟩

/-- Settles O8: the emptiness test uses `full`, and the read moves `head` and `full` alone. -/
theorem bufReadTakesTheOldest : Obligations.BufReadTakesTheOldest := by
  intro s
  refine ⟨rfl, fun h => execBufRead_empty (ByteQueue.isEmpty_iff.mpr h), fun h hhead => ?_⟩
  have hempty : s.queue.isEmpty = false := Bool.eq_false_iff.mpr (ByteQueue.isEmpty_iff.not.mpr h)
  exact ⟨_, execBufRead_nonempty hempty hhead, rfl, rfl, rfl, rfl, fun _ => rfl, rfl, rfl, rfl, rfl, rfl, rfl, rfl, rfl,
    rfl, rfl⟩

/-- Settles O9: the answers are `ByteQueue.isEmpty` and `ByteQueue.count`, written out. -/
theorem statusReadsArePure : Obligations.StatusReadsArePure := by
  intro s
  exact ⟨rfl, rfl⟩

end Sys2Proof.Machine

/-! 41_checksum.md: the checksum (R87, R88), its unreflected form (R89), its table (R90) and its algebra (R92). -/

namespace Sys2Proof.Machine

/-! ### One shift and one step -/

theorem repeat_eq_iterate {α : Type} (f : α → α) (n : Nat) (a : α) : Nat.repeat f n a = f^[n] a := by
  induction n with
  | zero => rfl
  | succ n ih => rw [Function.iterate_succ_apply', ← ih, Nat.repeat]

theorem crc8Shift_xor (a b : Byte) : crc8Shift (a ^^^ b) = crc8Shift a ^^^ crc8Shift b := by
  simp only [crc8Shift, BitVec.getLsbD_xor, BitVec.ushiftRight_xor_distrib]
  generalize a >>> 1 = x, b >>> 1 = y, rev8 crcPoly = p
  cases a.getLsbD 0 <;> cases b.getLsbD 0
  case false.false => rfl
  case false.true => exact BitVec.xor_assoc x y p
  case true.false => show x ^^^ y ^^^ p = x ^^^ p ^^^ y; ac_rfl
  case true.true =>
    calc x ^^^ y = x ^^^ y ^^^ (p ^^^ p) := by rw [BitVec.xor_self, BitVec.xor_zero]
      _ = x ^^^ p ^^^ (y ^^^ p) := by ac_rfl

/-- A shift loses nothing: the bit shifted out comes back as the top bit of the reflected polynomial. -/
theorem crc8Shift_eq_zero : ∀ {c : Byte}, crc8Shift c = 0 → c = 0 := by
  decide +kernel

theorem crc8Shift_injective : Function.Injective crc8Shift := fun a b h =>
  BitVec.xor_eq_zero_iff.mp (crc8Shift_eq_zero (by rw [crc8Shift_xor, h]; exact BitVec.xor_self))

theorem crc8Step_eq_iterate (c b : Byte) : crc8Step c b = crc8Shift^[8] (c ^^^ b) :=
  repeat_eq_iterate crc8Shift 8 (c ^^^ b)

theorem crc8Step_eq_zero_left (c b : Byte) : crc8Step c b = crc8Step 0 (c ^^^ b) := by
  simp [crc8Step]

@[simp] theorem crc8Step_self (c : Byte) : crc8Step c c = 0 := by
  rw [crc8Step_eq_zero_left, BitVec.xor_self]
  rfl

/-- R92 (a): a step is linear over exclusive or. -/
theorem crc8Step_xor (c1 c2 b1 b2 : Byte) :
    crc8Step (c1 ^^^ c2) (b1 ^^^ b2) = crc8Step c1 b1 ^^^ crc8Step c2 b2 := by
  have hshifts (n : Nat) (a b : Byte) : crc8Shift^[n] (a ^^^ b) = crc8Shift^[n] a ^^^ crc8Shift^[n] b := by
    induction n with
    | zero => rfl
    | succ n ih => simp only [Function.iterate_succ_apply', ih, crc8Shift_xor]
  have hargs : c1 ^^^ c2 ^^^ (b1 ^^^ b2) = (c1 ^^^ b1) ^^^ (c2 ^^^ b2) := by ac_rfl
  rw [crc8Step_eq_iterate, hargs, hshifts, ← crc8Step_eq_iterate, ← crc8Step_eq_iterate]

theorem crc8Step_injective_left (b : Byte) : Function.Injective fun c => crc8Step c b := by
  intro c1 c2 h
  simp only [crc8Step_eq_iterate] at h
  exact (BitVec.xor_left_inj b).mp (crc8Shift_injective.iterate 8 h)

theorem crc8Step_injective_right (c : Byte) : Function.Injective fun b => crc8Step c b := by
  intro b1 b2 h
  simp only [crc8Step_eq_iterate] at h
  exact (BitVec.xor_right_inj c).mp (crc8Shift_injective.iterate 8 h)

/-! ### The checksum of a sequence (R87, R88) -/

theorem crc8_append (s l : List Byte) : crc8 (s ++ l) = l.foldl crc8Step (crc8 s) :=
  List.foldl_append

theorem crc8_concat (s : List Byte) (b : Byte) : crc8 (s ++ [b]) = crc8Step (crc8 s) b :=
  crc8_append s [b]

theorem foldl_crc8Step_injective (l : List Byte) : Function.Injective fun c => l.foldl crc8Step c := by
  induction l with
  | nil => exact Function.injective_id
  | cons b l ih => exact ih.comp (crc8Step_injective_left b)

@[simp] theorem crc8_replicate_zero (n : Nat) : crc8 (List.replicate n 0) = 0 := by
  induction n with
  | zero => rfl
  | succ n ih => rw [List.replicate_succ', crc8_concat, ih, crc8Step_self]

/-- Settles O15: the register stays 0 as long as the bytes are 0. -/
theorem crc8PresentsTheChecksum : Obligations.Crc8PresentsTheChecksum := by
  refine ⟨fun _ _ => rfl, fun n l => ⟨crc8_replicate_zero n, ?_⟩, by decide +kernel⟩
  rw [crc8_append, crc8_replicate_zero]
  rfl

/-- Settles O16: the checksum is the running register. -/
theorem crc8IsIncremental : Obligations.Crc8IsIncremental :=
  ⟨rfl, crc8_concat, fun _ => rfl⟩

/-! ### The unreflected form (R89) -/

theorem rev8_rev8 (v : Byte) : rev8 (rev8 v) = v := BitVec.reverse_reverse_eq

theorem rev8_xor (a b : Byte) : rev8 (a ^^^ b) = rev8 a ^^^ rev8 b := by
  ext i hi
  simp [rev8, BitVec.getElem_reverse]

theorem rev8_shiftLeft_one (v : Byte) : rev8 (v <<< 1) = rev8 v >>> 1 := by
  ext i hi
  simp [rev8, BitVec.getElem_reverse, BitVec.getLsbD_reverse, Nat.add_comm]

/-- Reversal turns a shift of the unreflected form into one of the reflected form. -/
theorem rev8_crc8ShiftMsb (c : Byte) : rev8 (crc8ShiftMsb c) = crc8Shift (rev8 c) := by
  have hbit : (rev8 c).getLsbD 0 = c.getLsbD 7 := BitVec.getLsbD_reverse
  rw [crc8ShiftMsb, crc8Shift, hbit]
  split
  · rw [rev8_xor, rev8_shiftLeft_one]
  · rw [rev8_shiftLeft_one]

/-- Reversal turns a step of the unreflected form, on a reversed byte, into `crc8Step`. -/
theorem rev8_repeat_crc8ShiftMsb (c b : Byte) :
    rev8 (Nat.repeat crc8ShiftMsb 8 (c ^^^ rev8 b)) = crc8Step (rev8 c) b := by
  have hshifts : Function.Semiconj rev8 crc8ShiftMsb^[8] crc8Shift^[8] :=
    Function.Semiconj.iterate_right rev8_crc8ShiftMsb 8
  rw [repeat_eq_iterate, hshifts, rev8_xor, rev8_rev8, crc8Step_eq_iterate]

/-- Settles O17: reversal carries each step of the one form to the step of the other. -/
theorem crc8EqualsUnreflectedForm : Obligations.Crc8EqualsUnreflectedForm := fun _ =>
  List.foldl_hom rev8 (init := crcInit) fun c b => (rev8_repeat_crc8ShiftMsb c b).symm

/-! ### The table (R90) -/

/-- The printed table, entry by entry, is `T[v] = crc8_step(0x00, v)`. -/
theorem crcTable_eq_map : crcTable = (List.range 256).map fun v => crc8Step 0 (byteOf v) := by
  decide +kernel

theorem crcTable_getElem? (v : Byte) : crcTable[v.toNat]? = some (crc8Step 0 v) := by
  rw [crcTable_eq_map, List.getElem?_map, List.getElem?_range v.isLt]
  simp [byteOf]

/-- Settles O18: a step depends on `c ^ b` alone, and the table lists the steps from 0. -/
theorem crcStepIsTableLookup : Obligations.CrcStepIsTableLookup :=
  ⟨by simp [crcTable_eq_map], fun c b => by rw [crcTable_getElem?, ← crc8Step_eq_zero_left]⟩

/-! ### The algebra (R92) -/

theorem foldl_crc8Step_xor {s e : List Byte} (h : s.length = e.length) (c d : Byte) :
    (List.zipWith (· ^^^ ·) s e).foldl crc8Step (c ^^^ d) = s.foldl crc8Step c ^^^ e.foldl crc8Step d := by
  induction s generalizing e c d with
  | nil => cases e with
    | nil => rfl
    | cons => cases h
  | cons x s ih => cases e with
    | nil => cases h
    | cons y e =>
      rw [List.zipWith_cons_cons, List.foldl_cons, crc8Step_xor, ih (Nat.succ.inj h), List.foldl_cons, List.foldl_cons]

/-- With the bytes around it fixed, the checksum tells any two values of one byte apart. -/
theorem crc8_injective_at (s l : List Byte) : Function.Injective fun b => crc8 (s ++ b :: l) := by
  simp only [crc8_append, List.foldl_cons]
  exact (foldl_crc8Step_injective l).comp (crc8Step_injective_right (crc8 s))

theorem one_shiftLeft_ne_zero : ∀ k < 8, (1 : Byte) <<< k ≠ 0 := by decide

/-- Exclusive or with a single bit changes a byte. -/
theorem xor_one_shiftLeft_ne (b : Byte) {k : Nat} (hk : k < 8) : b ^^^ (1 : Byte) <<< k ≠ b := fun h =>
  one_shiftLeft_ne_zero k hk ((BitVec.xor_right_inj b).mp (h.trans BitVec.xor_zero.symm))

/-- R92 (c): a sequence with exactly one bit set does not have the checksum of the sequence of zeros. -/
theorem crc8_single_bit_ne_zero (m n : Nat) {k : Nat} (hk : k < 8) :
    crc8 (List.replicate m 0 ++ [(1 : Byte) <<< k] ++ List.replicate n 0) ≠ 0 := by
  have hzeros : crc8 (List.replicate m 0 ++ 0 :: List.replicate n 0) = 0 := by
    rw [← List.replicate_succ, List.replicate_append_replicate, crc8_replicate_zero]
  rw [List.append_assoc]
  exact ((crc8_injective_at _ _).ne (one_shiftLeft_ne_zero k hk)).trans_eq hzeros

theorem crc8_modify_bit_ne {s : List Byte} {j k : Nat} (hj : j < s.length) (hk : k < 8) :
    crc8 (s.modify j (· ^^^ (1 : Byte) <<< k)) ≠ crc8 s := by
  have hsplit : s.take j ++ s[j] :: s.drop (j + 1) = s := by simp
  rw [List.modify_eq_take_cons_drop hj]
  exact ((crc8_injective_at _ _).ne (xor_one_shiftLeft_ne s[j] hk)).trans_eq (congrArg crc8 hsplit)

/-- R92 (e): the checksum of the type byte and a length byte of 0 is two looks at the table. -/
theorem crcTable_twice {t u : Byte} (h : crcTable[t.toNat]? = some u) : crcTable[u.toNat]? = some (crc8 [t, 0]) := by
  rw [crcTable_getElem?, Option.some_inj] at h
  have hlen : crc8Step u 0 = crc8Step 0 u := by rw [crc8Step_eq_zero_left]; simp
  rw [crcTable_getElem?, ← hlen, ← h]
  rfl

/-- Settles O19: a step is linear and one-to-one in each argument, and a byte equal to the register gives 0. -/
theorem crc8Algebra : Obligations.Crc8Algebra := by
  refine ⟨crc8Step_xor, fun s e h => foldl_crc8Step_xor h 0 0,
    fun b => Finite.injective_iff_bijective.mp (crc8Step_injective_left b),
    fun c => Finite.injective_iff_bijective.mp (crc8Step_injective_right c),
    fun m n k hk => crc8_single_bit_ne_zero m n hk,
    fun s j k hj hk => ⟨crc8_modify_bit_ne hj hk, xor_one_shiftLeft_ne (crc8 s) hk⟩, fun s => ?_,
    fun t u => crcTable_twice⟩
  rw [crc8_concat, crc8Step_self]

end Sys2Proof.Machine

/-! 42_encoder.md: the function `encode` (R94), the operations of the encoder (R95 to R98), a started frame emitted
whole (R99), `ENCODE` (R73), and the round trip through a fresh parser (R103). -/

namespace Sys2Proof.Machine

open Laws.EncodeRoundTrip (byteOf_toNat)

/-! ### The function encode (R94) -/

theorem encodeFrame_too_long {m : Nat} {p : List Byte} (h : m < p.length) (t : Byte) : encodeFrame m t p = none :=
  if_pos h

theorem encodeFrame_fits {m : Nat} {p : List Byte} (h : p.length ≤ m) (t : Byte) :
    encodeFrame m t p = some (frameBytes t p (frameChecksum t p)) :=
  if_neg h.not_gt

/-- What `encode` gives is the frame of a payload within `MAX_PAYLOAD`. -/
theorem of_encodeFrame_eq_some {m : Nat} {t : Byte} {p f : List Byte} (h : encodeFrame m t p = some f) :
    p.length ≤ m ∧ f = frameBytes t p (frameChecksum t p) := by
  rcases Nat.lt_or_ge m p.length with hlong | hfits
  · rw [encodeFrame_too_long hlong] at h
    cases h
  · rw [encodeFrame_fits hfits] at h
    exact ⟨hfits, (Option.some.inj h).symm⟩

@[simp] theorem length_frameBytes (t : Byte) (p : List Byte) (ck : Byte) :
    (frameBytes t p ck).length = p.length + 5 := by
  simp [frameBytes]

/-- Settles O20: the length byte is `byteOf p.length`. -/
theorem encodeBuildsTheFrame : Obligations.EncodeBuildsTheFrame := fun _ t p hm =>
  ⟨fun hlong => encodeFrame_too_long hlong t, fun hfits =>
    ⟨byteOf p.length, byteOf_toNat (hfits.trans hm), encodeFrame_fits hfits t, length_frameBytes t p _⟩⟩

/-! ### Staging a byte (R95) -/

theorem execEncPut_refused {i : Byte} {s : State} (b : Byte)
    (h : ¬ (s.enc.busy = false ∧ i.toNat < s.cfg.maxPayload)) :
    execEncPut i b s = .next (s.withOut { s.out with encPutOk := false }) := by
  obtain ⟨t, ht⟩ := execEncPut_completes i b s
  rcases execEncPut_cases ht with ⟨hidle, hi, -⟩ | ⟨-, rfl⟩
  · exact absurd ⟨hidle, hi⟩ h
  · exact ht

/-- The cells after a byte is staged. -/
theorem payloadAt_stage {s : State} (hwf : s.enc.payload.wf) (i b : Byte) (j : Nat) :
    (s.withEnc (s.enc.stage i b)).payloadAt j = if i.toNat = j then b else s.payloadAt j :=
  heldByte_write .encPayload hwf i.toNat j b

/-- What the encoder takes from the cells after a byte is staged: no free draw from the staged one. -/
theorem stagedAt_stage {s : State} (hwf : s.enc.payload.wf) (i b : Byte) (j : Nat) :
    (s.withEnc (s.enc.stage i b)).stagedAt j = if i.toNat = j then b else s.stagedAt j := by
  simp only [State.stagedAt, payloadAt_stage hwf, State.withEnc_enc, State.withEnc_resetEra, Encoder.isStaged_stage,
    eq_comm (a := j)]
  by_cases hj : i.toNat = j
  · simp only [if_pos hj, if_true]
  · simp only [if_neg hj]

/-- Settles O21: the accepted case with the cells as read after staging, and the refused one. -/
theorem encPutStagesOrRefuses : Obligations.EncPutStagesOrRefuses := by
  refine fun s i b => ⟨fun ⟨hidle, hi⟩ hwf => ?_, execEncPut_refused b⟩
  refine ⟨_, execEncPut_accepted b hidle hi, rfl, ?_, ?_, fun j hj => ⟨?_, ?_⟩, rfl, rfl, rfl, rfl, rfl, rfl, rfl, rfl,
    rfl, rfl, rfl, rfl, rfl⟩
  · rw [State.withOut_payloadAt, payloadAt_stage hwf, if_pos rfl]
  · rw [State.withOut_stagedAt, stagedAt_stage hwf, if_pos rfl]
  · rw [State.withOut_payloadAt, payloadAt_stage hwf, if_neg hj.symm]
  · rw [State.withOut_stagedAt, stagedAt_stage hwf, if_neg hj.symm]

/-! ### Starting a frame (R96) -/

theorem execEncStart_refused {n : BitVec 9} {s : State} (y : Byte)
    (h : s.enc.busy = true ∨ s.cfg.maxPayload < n.toNat) :
    execEncStart y n s = .next (s.withOut { s.out with encOk := false }) := by
  obtain ⟨t, ht⟩ := execEncStart_completes y n s
  rcases execEncStart_cases ht with ⟨hidle, hn, -⟩ | ⟨-, rfl⟩
  · rcases h with hbusy | hlong
    · simp [hbusy] at hidle
    · exact absurd hn hlong.not_ge
  · exact ht

theorem lowByte_eq_extractLsb' (n : BitVec 9) : lowByte n = n.extractLsb' 0 8 :=
  BitVec.setWidth_eq_extractLsb' (by decide)

/-- Settles O22: both refusals, and the accepted case, which writes the registers of the encoder but no cell. -/
theorem encStartLatchesOrRefuses : Obligations.EncStartLatchesOrRefuses := fun _ t n =>
  ⟨fun hbusy => execEncStart_refused t (.inl hbusy), fun hlong => execEncStart_refused t (.inr hlong),
    fun hidle hn => ⟨_, execEncStart_accepted t hidle hn, rfl, rfl, lowByte_eq_extractLsb' n, rfl, rfl,
      fun _ => ⟨rfl, rfl⟩, rfl, rfl, rfl, rfl, rfl, rfl, rfl, rfl, rfl⟩⟩

/-! ### Sending a byte (R97, R98) -/

theorem State.encByte_payload {s : State} {k : Nat} (h4 : 4 ≤ k) (hk : k < 4 + s.enc.len.toNat) :
    s.encByte k = s.stagedAt (k - 4) := by
  rw [State.encByte, if_neg (by omega), if_neg (by omega), if_neg (by omega), if_neg (by omega),
    if_pos (show k < checksumIdx s.enc.len from hk)]

theorem State.encByte_checksum {s : State} {k : Nat} (hk : k = 4 + s.enc.len.toNat) :
    s.encByte k = crc8 ([s.enc.type, s.enc.len] ++ s.stagedRange s.enc.len.toNat) := by
  rw [State.encByte, if_neg (by omega), if_neg (by omega), if_neg (by omega), if_neg (by omega),
    if_neg (show ¬ k < checksumIdx s.enc.len from hk.not_lt)]

/-- The state after a busy encoder's byte is taken (R97). -/
def State.afterEmit (s : State) : State := (s.emitTx (s.encByte s.enc.idx)).withEnc s.enc.sent

/-- A busy encoder with a length within `MAX_PAYLOAD` sends its byte. -/
theorem execEncEmit_sends {s : State} (hbusy : s.enc.busy = true) (hlen : s.enc.len.toNat ≤ s.cfg.maxPayload) :
    execEncEmit s = .next s.afterEmit :=
  execEncEmit_busy hbusy (Encoder.endRead_le hlen _)

/-- Sending a byte moves `enc_busy` and `enc_idx` alone. -/
theorem Encoder.sent_eq (e : Encoder) :
    e.sent = { e with
      busy := if e.idx = 4 + e.len.toNat then false else e.busy
      idx := if e.idx = 4 + e.len.toNat then e.idx else e.idx + 1 } := by
  by_cases hlast : e.idx = 4 + e.len.toNat
  · simp only [Encoder.sent_last hlast, if_pos hlast]
  · simp only [Encoder.sent_more hlast, if_neg hlast]

/-- Sending a byte changes no cell and no flag of a staged one. -/
theorem cells_afterEmit (s : State) (j : Nat) :
    s.afterEmit.payloadAt j = s.payloadAt j ∧ s.afterEmit.stagedAt j = s.stagedAt j := by
  rw [State.afterEmit, Encoder.sent_eq]
  exact ⟨rfl, rfl⟩

/-- Settles O23: the byte sent is `encByte` of the index, case by case, and `sent` says what moves. -/
theorem encEmitSendsTheNextByte : Obligations.EncEmitSendsTheNextByte := by
  intro s hbusy hlen
  have henc : s.afterEmit.enc = _ := Encoder.sent_eq s.enc
  have hbyte {k : Nat} : s.enc.idx = k → s.encByte s.enc.idx = s.encByte k := congrArg s.encByte
  refine ⟨_, s.encByte s.enc.idx, execEncEmit_sends hbusy hlen, rfl, rfl, hbyte, hbyte, hbyte, hbyte,
    State.encByte_payload, State.encByte_checksum, ?_, by rw [henc], by rw [henc], by rw [henc], cells_afterEmit s,
    rfl, rfl, rfl, rfl, rfl, rfl, rfl, rfl⟩
  rw [henc, hbusy]
  simp

/-- Settles O24: `tx_valid` is `enc_busy`, and `tx_data` is the byte sent. -/
theorem sinkTakesTxDataWhenValid : Obligations.SinkTakesTxDataWhenValid := fun _ =>
  ⟨rfl, execEncEmit_idle, fun hbusy hlen => ⟨_, _, execEncEmit_sends hbusy hlen, if_pos hbusy, rfl⟩⟩

/-! ### A started frame (R99) -/

/-- The frame in flight depends on the latched registers and on what the encoder takes from the cells. -/
theorem State.frameInFlight_congr {s t : State} (htype : t.enc.type = s.enc.type) (hlen : t.enc.len = s.enc.len)
    (hcells : ∀ j, t.stagedAt j = s.stagedAt j) : t.frameInFlight = s.frameInFlight := by
  have hrange (n : Nat) : t.stagedRange n = s.stagedRange n := rangeOf_congr fun j _ _ => hcells j
  simp only [State.frameInFlight, htype, hlen, hrange]

/-- The encoder of `s` is sending the frame `f`: its first `k` bytes have joined `tx`, and byte `k` is next. -/
structure SendingAt (f tx : List Byte) (k : Nat) (s : State) : Prop where
  busy : s.enc.busy = true
  fits : s.enc.len.toNat ≤ s.cfg.maxPayload
  frame : s.frameInFlight = f
  idx : s.enc.idx = k
  sent : s.tx = tx ++ f.take k

theorem SendingAt.length {f tx : List Byte} {k : Nat} {s : State} (h : SendingAt f tx k s) :
    f.length = s.enc.len.toNat + 5 :=
  h.frame ▸ s.length_frameInFlight

/-- The byte that joins `TX` is the next one of the frame. -/
theorem SendingAt.tx_afterEmit {f tx : List Byte} {k : Nat} {s : State} (h : SendingAt f tx k s) (hk : k < f.length) :
    s.afterEmit.tx = tx ++ f.take (k + 1) := by
  have hnext : f[k]? = some (s.encByte k) := by
    rw [← h.frame]
    exact s.getElem?_frameInFlight (h.length ▸ hk)
  show s.tx ++ [s.encByte s.enc.idx] = _
  rw [h.sent, h.idx, List.append_assoc, List.take_add_one, hnext, Option.toList_some]

/-- A byte that is not the last is sent, and the next one stands ready. -/
theorem SendingAt.emit {f tx : List Byte} {k : Nat} {s : State} (h : SendingAt f tx k s) (hk : k + 1 < f.length) :
    execEncEmit s = .next s.afterEmit ∧ SendingAt f tx (k + 1) s.afterEmit := by
  have hmore : s.enc.idx ≠ 4 + s.enc.len.toNat := by
    have hidx := h.idx
    have hlen := h.length
    omega
  have henc : s.afterEmit.enc = { s.enc with idx := s.enc.idx + 1 } := Encoder.sent_more hmore
  refine ⟨execEncEmit_sends h.busy h.fits, ?_, ?_, ?_, ?_, h.tx_afterEmit (by omega)⟩
  · rw [henc]
    exact h.busy
  · rw [henc]
    exact h.fits
  · rw [← h.frame]
    exact State.frameInFlight_congr (by rw [henc]) (by rw [henc]) fun j => (cells_afterEmit s j).2
  · rw [henc, ← h.idx]

/-- The last byte is sent, and the encoder is idle. -/
theorem SendingAt.emit_last {f tx : List Byte} {k : Nat} {s : State} (h : SendingAt f tx k s) (hk : k + 1 = f.length) :
    ∃ u, execEncEmit s = .next u ∧ u.enc.busy = false ∧ u.tx = tx ++ f := by
  have hlast : s.enc.idx = 4 + s.enc.len.toNat := by
    have hidx := h.idx
    have hlen := h.length
    omega
  refine ⟨_, execEncEmit_sends h.busy h.fits, congrArg Encoder.busy (Encoder.sent_last hlast), ?_⟩
  rw [h.tx_afterEmit (by omega), hk, List.take_length]

/-- As long as the last byte is not reached, `n` times `ENC.EMIT` sends the next `n` bytes. -/
theorem SendingAt.emit_many {f tx : List Byte} {k n : Nat} {s : State} (h : SendingAt f tx k s)
    (hn : k + n < f.length) :
    ∃ u, emitAll n s = .next u ∧ SendingAt f tx (k + n) u := by
  induction n generalizing k s with
  | zero => exact ⟨s, rfl, h⟩
  | succ n ih =>
    obtain ⟨hemit, hnext⟩ := h.emit (by omega)
    obtain ⟨u, hu, hsent⟩ := ih hnext (by omega)
    refine ⟨u, ?_, by rwa [Nat.add_comm n, ← Nat.add_assoc]⟩
    rw [emitAll, hemit, andThen_next, hu]

/-- The last of `n + 1` times `ENC.EMIT`, taken apart. -/
theorem emitAll_succ (n : Nat) (s : State) : emitAll (n + 1) s = andThen (emitAll n s) execEncEmit := by
  induction n generalizing s with
  | zero => exact andThen_pure _
  | succ n ih =>
    calc emitAll (n + 2) s
        = andThen (execEncEmit s) (emitAll (n + 1)) := rfl
      _ = andThen (execEncEmit s) fun u => andThen (emitAll n u) execEncEmit := congrArg _ (funext ih)
      _ = andThen (emitAll (n + 1) s) execEncEmit := (andThen_assoc _ _ _).symm

/-- A frame that starts to be sent is sent whole, and the last byte makes the encoder idle. -/
theorem SendingAt.emit_whole {f tx : List Byte} {n : Nat} {s : State} (h : SendingAt f tx 0 s)
    (hn : f.length = n + 5) :
    ∃ u, emitAll (n + 5) s = .next u ∧ u.enc.busy = false ∧ u.tx = tx ++ f := by
  obtain ⟨u, hu, hlast⟩ := h.emit_many (n := n + 4) (by omega)
  obtain ⟨v, hv, hidle, htx⟩ := hlast.emit_last (by omega)
  exact ⟨v, by rw [emitAll_succ, hu, andThen_next, hv], hidle, htx⟩

/-- A 9-bit length that is at most 255 loses nothing where it is latched. -/
theorem lowByte_toNat {n : BitVec 9} (h : n.toNat ≤ 255) : (lowByte n).toNat = n.toNat := by
  rw [lowByte, BitVec.toNat_setWidth, Nat.mod_eq_of_lt (by omega)]

/-- An accepted `ENC.START t, n` begins to send the frame of `t` and of the first `n` staged bytes. -/
theorem sendingAt_start {s : State} (t : Byte) {n : BitVec 9} (hn : n.toNat ≤ s.cfg.maxPayload)
    (hmax : s.cfg.maxPayload ≤ 255) :
    SendingAt (frameBytes t (s.stagedRange n.toNat) (frameChecksum t (s.stagedRange n.toNat))) s.tx 0
      ((s.withEnc (s.enc.start t n)).withOut { s.out with encOk := true }) := by
  have hlen : (lowByte n).toNat = n.toNat := lowByte_toNat (hn.trans hmax)
  refine ⟨rfl, hlen.trans_le hn, ?_, rfl, (List.append_nil _).symm⟩
  rw [← hlen]
  rfl

theorem length_stagedRange (s : State) (n : Nat) : (s.stagedRange n).length = n := length_rangeOf _ _ _

/-- Settles O25: the start begins a frame, and each `ENC.EMIT` sends its next byte. -/
theorem startedFrameIsEmittedWhole : Obligations.StartedFrameIsEmittedWhole := by
  intro s t n hidle hn hmax
  have hstart := sendingAt_start t hn hmax
  have hlen := length_stagedRange s n.toNat
  have hframe (ck : Byte) : (frameBytes t (s.stagedRange n.toNat) ck).length = n.toNat + 5 := by
    rw [length_frameBytes, hlen]
  obtain ⟨s2, hs2, hdone, htx⟩ := hstart.emit_whole (hframe _)
  refine ⟨_, s2, _, execEncStart_accepted t hidle hn, rfl, encodeFrame_fits (hlen.trans_le hn) t, hs2, htx, hdone,
    fun k hk => ?_⟩
  obtain ⟨u, hu, hsending⟩ := hstart.emit_many (n := k) (by rwa [hframe, Nat.zero_add])
  rw [Nat.zero_add] at hsending
  exact ⟨u, hu, hsending.busy, hsending.sent⟩

/-! ### The pseudo-operation ENCODE (R73) -/

theorem rangeOf_zero_succ (f : Nat → Byte) (n : Nat) : rangeOf f 0 (n + 1) = rangeOf f 0 n ++ [f n] := by
  simp [rangeOf, List.range'_1_concat]

/-- The payload grown by the byte staged at its end. -/
theorem stagedRange_stage {s : State} (hwf : s.enc.payload.wf) (i b : Byte) :
    (s.withEnc (s.enc.stage i b)).stagedRange (i.toNat + 1) = s.stagedRange i.toNat ++ [b] := by
  rw [State.stagedRange, rangeOf_zero_succ, stagedAt_stage hwf, if_pos rfl, State.stagedRange]
  congr 1
  exact rangeOf_congr fun j _ hj => by rw [stagedAt_stage hwf, if_neg (by omega)]

/-- Puts of the bytes `p` from cell `i` on are all accepted, and the payload is then grown by `p`. -/
theorem stageAll_stages {p : List Byte} {i : Nat} {s : State} (hidle : s.enc.busy = false) (hwf : s.enc.payload.wf)
    (hfits : i + p.length ≤ s.cfg.maxPayload) (hmax : s.cfg.maxPayload ≤ 255) :
    ∃ u, stageAll i p s = .next u ∧ u.stagedRange (i + p.length) = s.stagedRange i ++ p ∧ u.enc.busy = false ∧
      u.cfg = s.cfg ∧ u.tx = s.tx := by
  induction p generalizing i s with
  | nil => exact ⟨s, rfl, (List.append_nil _).symm, hidle, rfl, rfl⟩
  | cons b p ih =>
    rw [List.length_cons] at hfits ⊢
    have hi : (byteOf i).toNat = i := byteOf_toNat (by omega)
    obtain ⟨u, hu, hrange, hidle', hcfg, htx⟩ :=
      ih (i := i + 1) (s := (s.withEnc (s.enc.stage (byteOf i) b)).withOut { s.out with encPutOk := true }) hidle
        (Memory.wf_write hwf _ _) (by show i + 1 + p.length ≤ s.cfg.maxPayload; omega) hmax
    refine ⟨u, ?_, ?_, hidle', hcfg, htx⟩
    · rw [stageAll, execEncPut_accepted b hidle (by omega), andThen_next, hu]
    · have hgrown : (s.withEnc (s.enc.stage (byteOf i) b)).stagedRange (i + 1) = s.stagedRange i ++ [b] := by
        simpa only [hi] using stagedRange_stage hwf (byteOf i) b
      calc u.stagedRange (i + (p.length + 1))
          = u.stagedRange (i + 1 + p.length) := by rw [Nat.add_assoc, Nat.add_comm 1]
        _ = s.stagedRange i ++ [b] ++ p := hrange.trans (congrArg (· ++ p) hgrown)
        _ = s.stagedRange i ++ b :: p := by rw [List.append_assoc, List.singleton_append]

/-- The 9-bit length that `ENCODE` starts with: a length that needs more bits is still longer than any payload. -/
theorem encodeOp_length_toNat (n : Nat) : (BitVec.ofNat 9 (min n 511)).toNat = min n 511 := by
  rw [BitVec.toNat_ofNat, Nat.mod_eq_of_lt (by omega)]

/-- `ENCODE` of a payload within `MAX_PAYLOAD` sends its frame. -/
theorem encodeOp_fits {s : State} (t : Byte) {p : List Byte} (hidle : s.enc.busy = false)
    (hmax : s.cfg.maxPayload ≤ 255) (hwf : s.enc.payload.wf) (hfits : p.length ≤ s.cfg.maxPayload) :
    ∃ u, encodeOp t p s = .next u ∧ u.enc.busy = false ∧ u.tx = s.tx ++ frameBytes t p (frameChecksum t p) := by
  obtain ⟨s1, hs1, hrange, hidle1, hcfg, htx⟩ := stageAll_stages (p := p) (i := 0) hidle hwf (by omega) hmax
  rw [Nat.zero_add] at hrange
  have hlen : (BitVec.ofNat 9 (min p.length 511)).toNat = p.length := (encodeOp_length_toNat _).trans (by omega)
  have hn : (BitVec.ofNat 9 (min p.length 511)).toNat ≤ s1.cfg.maxPayload := by rw [hlen, hcfg]; exact hfits
  have hstart := sendingAt_start t hn (hcfg ▸ hmax)
  rw [hlen, show s1.stagedRange p.length = p from hrange, htx] at hstart
  obtain ⟨u, hu, hdone, hsent⟩ := hstart.emit_whole (length_frameBytes _ _ _)
  refine ⟨u, ?_, hdone, hsent⟩
  rw [encodeOp, if_pos hfits, hs1, andThen_next, execEncStart_accepted t hidle1 hn, andThen_next]
  exact hu

/-- `ENCODE` of a longer payload sends nothing: the puts are skipped and the start is refused. -/
theorem encodeOp_too_long {s : State} (t : Byte) {p : List Byte} (hmax : s.cfg.maxPayload ≤ 255)
    (hlong : s.cfg.maxPayload < p.length) :
    encodeOp t p s = .next (s.withOut { s.out with encOk := false }) := by
  have hn : s.cfg.maxPayload < (BitVec.ofNat 9 (min p.length 511)).toNat := by
    rw [encodeOp_length_toNat]
    omega
  rw [encodeOp, if_neg hlong.not_ge, andThen_next, execEncStart_refused t (.inr hn)]
  rfl

/-- Settles O26: the payload that fits is staged, started and sent; the longer one is refused by the start. -/
theorem encodeDeliversTheFunction : Obligations.EncodeDeliversTheFunction := by
  intro s t p hidle hmax hwf
  rcases Nat.lt_or_ge s.cfg.maxPayload p.length with hlong | hfits
  · rw [encodeFrame_too_long hlong]
    exact ⟨_, encodeOp_too_long t hmax hlong, hidle, (List.append_nil _).symm⟩
  · rw [encodeFrame_fits hfits]
    exact encodeOp_fits t hidle hmax hwf hfits

/-! ### The round trip (R103) -/

/-- A fed byte takes no event back. -/
theorem execParserFeed_disp_prefix {b : Byte} {s t : State} (h : execParserFeed b s = .next t) : s.disp <+: t.disp := by
  rw [execParserFeed] at h
  generalize s.rowOf b = r at h
  cases r with
  | h1Hit | h1Miss | h2Hit | h2Ab | h2Miss | lenOver => cases h; exact List.prefix_rfl
  | type | lenOk | payload =>
    obtain ⟨-, h⟩ := withCells_eq_next.mp h
    cases h
    exact List.prefix_rfl
  | crc =>
    obtain ⟨-, h⟩ := withCells_eq_next.mp h
    cases h
    split
    · exact List.prefix_append _ _
    · exact List.prefix_rfl

theorem feedAll_disp_prefix {l : List Byte} {s t : State} (h : feedAll l s = .next t) : s.disp <+: t.disp :=
  feedAll_keeps (P := fun u => s.disp <+: u.disp) (fun _ _ _ hs hu => hs.trans (execParserFeed_disp_prefix hu))
    List.prefix_rfl h

/-- Where fed bytes emit no event, the first `k` of them emit none either. -/
theorem feedAll_take_disp {l : List Byte} {s t : State} (h : feedAll l s = .next t) (hdisp : t.disp = s.disp)
    (k : Nat) :
    ∃ u, feedAll (l.take k) s = .next u ∧ u.disp = s.disp := by
  rw [← List.take_append_drop k l, feedAll_append] at h
  obtain ⟨u, hu, ht⟩ := andThen_eq_next.mp h
  refine ⟨u, hu, ((feedAll_disp_prefix hu).eq_of_length_le ?_).symm⟩
  rw [← hdisp]
  exact (feedAll_disp_prefix ht).length_le

/-- The bytes of a frame before its checksum, fed to a fresh parser: they are stored, and nothing else comes of them. -/
theorem feedAll_beforeChecksum {s : State} (t : Byte) {p : List Byte} (h : s.parser.state = .awaitHeader1)
    (hwf : s.parser.frameBuffer.wf) (hmax : s.cfg.maxPayload ≤ 255) (hp : p.length ≤ s.cfg.maxPayload) :
    ∃ u, feedAll ([hdr1, hdr2, t, byteOf p.length] ++ p) s = .next u ∧ u.parser.state = .readCrc ∧
      u.frameRange 2 u.parser.cursor = p ∧ u.disp = s.disp ∧ u.out = s.out ∧ FrameFedFrame s u t p := by
  obtain ⟨u, hu, hheld, hstate, htype, hlen, hdisp, hout, hraised, hcounters⟩ :=
    feedAll_upTo_crc (t := t) h hwf (hp.trans hmax) hp
  obtain ⟨hcfg, hqueue, henc, htx, hera, hsched, -⟩ := feedAll_sameOutside hu
  have hstored := hheld.frameRange
  have hpayload := hheld.frameRange_two
  obtain ⟨hcursor, -, -, hbeyond⟩ := hheld
  rw [hcursor] at hstored
  exact ⟨u, hu, hstate, hpayload, hdisp, hout, htype, hlen ▸ byteOf_toNat (hp.trans hmax), hcursor, hstored,
    hbeyond, hcfg, hqueue, henc, hcounters, htx, hraised, hera, hsched⟩

/-- A whole frame fed to a fresh parser, whatever its checksum byte: it is stored, and dispatched where the
byte matches. -/
theorem feedAll_frameBytes {s : State} (t : Byte) {p : List Byte} (ck : Byte) (h : s.parser.state = .awaitHeader1)
    (hwf : s.parser.frameBuffer.wf) (hmax : s.cfg.maxPayload ≤ 255) (hp : p.length ≤ s.cfg.maxPayload) :
    ∃ u, feedAll (frameBytes t p ck) s =
        .next ((if frameChecksum t p = ck then u.dispatchTo t p p.length else u).goto .awaitHeader1) ∧
      u.disp = s.disp ∧ u.out = s.out ∧ FrameFedFrame s u t p := by
  obtain ⟨u, hu, hstate, hpayload, hdisp, hout, hfed⟩ := feedAll_beforeChecksum t h hwf hmax hp
  refine ⟨u, ?_, hdisp, hout, hfed⟩
  obtain ⟨htype, hlen, hcursor, hstored, -, hcfg, -⟩ := hfed
  have hroom : u.parser.cursor ≤ u.cfg.maxPayload + 2 := by rw [hcursor, hcfg]; omega
  have hchecksum : crc8 (u.frameRange 0 u.parser.cursor) = frameChecksum t p := by rw [hcursor, hstored]; rfl
  rw [frameBytes, feedAll_append, hu, andThen_next, feedAll_cons, execParserFeed_crc ck hstate hroom, hchecksum, htype,
    hpayload, hlen]
  rfl

/-- Settles O40: the matching checksum byte dispatches the frame, and no byte before it emits anything. -/
theorem encodedFrameIsDispatchedOnce : Obligations.EncodedFrameIsDispatchedOnce := by
  intro s t p f hstate hwf hmax hf
  obtain ⟨hp, rfl⟩ := of_encodeFrame_eq_some hf
  refine ⟨rfl, ?_, fun k hk => ?_⟩
  · obtain ⟨u, hu, hdisp, hout, hfed⟩ := feedAll_frameBytes t (frameChecksum t p) hstate hwf hmax hp
    rw [if_pos rfl] at hu
    have hcfg : u.cfg = s.cfg := (feedAll_sameOutside hu).1
    refine ⟨_, hu, hu, ?_, ?_, rfl, hfed⟩
    · rw [State.goto_disp, State.dispatchTo_disp, hdisp, hcfg]
    · rw [State.goto_out, State.dispatchTo_out, hout, hcfg]
  · obtain ⟨u, hu, -, -, hdisp, -⟩ := feedAll_beforeChecksum t hstate hwf hmax hp
    have hproper : k ≤ ([hdr1, hdr2, t, byteOf p.length] ++ p).length := by
      simp only [length_frameBytes] at hk
      simp only [List.length_append, List.length_cons, List.length_nil]
      omega
    rw [frameBytes, List.take_append_of_le_length hproper]
    exact feedAll_take_disp hu hdisp k

end Sys2Proof.Machine

/-! 43_parser.md: the rows of the classification table (R106 to R115), the laws of resynchronisation and corruption
(R120), `PARSER.ABORT` (R121), and the glue of the integrated block (R123). -/

namespace Sys2Proof.Machine

/-! ### Corruption (R120 (c)) -/

/-- A whole frame with a checksum byte that does not match, fed to a fresh parser, is stored and not dispatched. -/
theorem execFrame_mismatch {s : State} {t : Byte} {p : List Byte} {ck : Byte} (h : s.parser.state = .awaitHeader1)
    (hwf : s.parser.frameBuffer.wf) (hmax : s.cfg.maxPayload ≤ 255) (hp : p.length ≤ s.cfg.maxPayload)
    (hck : frameChecksum t p ≠ ck) :
    ∃ u, exec (.frame t p ck) s = .next (u.goto .awaitHeader1) ∧ u.disp = s.disp ∧ u.out = s.out ∧
      FrameFedFrame s u t p := by
  obtain ⟨u, hu, hfed⟩ := feedAll_frameBytes t ck h hwf hmax hp
  rw [if_neg hck] at hu
  exact ⟨u, hu, hfed⟩

/-- A flipped bit of the type byte changes the checksum (R91, R92 (c)). -/
theorem frameChecksum_flip_type (t : Byte) (p : List Byte) {k : Nat} (hk : k < 8) :
    frameChecksum (t ^^^ (1 : Byte) <<< k) p ≠ frameChecksum t p :=
  crc8_modify_bit_ne (s := [t, byteOf p.length] ++ p) (j := 0) (Nat.zero_lt_succ _) hk

/-- A flipped bit of a payload byte changes the checksum (R91, R92 (c)). -/
theorem frameChecksum_flip_payload (t : Byte) {p : List Byte} {j k : Nat} (hj : j < p.length) (hk : k < 8) :
    frameChecksum t (p.modify j (· ^^^ (1 : Byte) <<< k)) ≠ frameChecksum t p := by
  rw [frameChecksum, List.length_modify]
  exact crc8_modify_bit_ne (s := [t, byteOf p.length] ++ p) (j := j + 2) (Nat.add_lt_add_right hj 2) hk

/-- Settles O42: each of the three flips makes the checksum byte differ from the frame's checksum. -/
theorem flippedBitIsNotDispatched : Obligations.FlippedBitIsNotDispatched := by
  intro s t p k hk h hwf hmax hp
  refine ⟨?_, ?_, fun j hj => ?_⟩
  · obtain ⟨u, hu, hdisp, -⟩ := execFrame_mismatch h hwf hmax hp (frameChecksum_flip_type t p hk)
    exact ⟨_, hu, hdisp, rfl⟩
  · obtain ⟨u, hu, hdisp, -⟩ := execFrame_mismatch h hwf hmax hp (xor_one_shiftLeft_ne (frameChecksum t p) hk).symm
    exact ⟨_, hu, hdisp, rfl⟩
  · obtain ⟨u, hu, hdisp, -⟩ :=
      execFrame_mismatch h hwf hmax ((List.length_modify _ _ _).trans_le hp) (frameChecksum_flip_payload t hj hk)
    exact ⟨_, hu, hdisp, rfl⟩

/-! ### Resynchronisation (R120 (a), (b)) -/

theorem State.goto_self {s : State} {st : ParserState} (h : s.parser.state = st) : s.goto st = s := by
  subst h
  rfl

@[simp] theorem State.goto_goto (s : State) (st st' : ParserState) : (s.goto st).goto st' = s.goto st' := rfl

/-- A second `HDR1` is the new candidate header (R109): doubling it makes no difference. -/
theorem feedAll_doubled_hdr1 {s : State} (l : List Byte) (h : s.parser.state = .awaitHeader1) :
    feedAll (hdr1 :: hdr1 :: l) s = feedAll (hdr1 :: l) s := by
  rw [feedAll_cons, feedAll_cons hdr1 l s, execParserFeed_h1 _ h, if_pos rfl, andThen_next, feedAll_cons,
    execParserFeed_h2 _ rfl, if_neg (by decide), if_pos rfl, andThen_next, State.goto_goto, andThen_next]

/-- Settles O38: the second 0xAB is the header of a frame without payload, whose checksum byte matches. -/
theorem doubledHeaderByteResynchronises : Obligations.DoubledHeaderByteResynchronises := by
  intro s T h hwf
  obtain ⟨u, hu, hheld, hstate, htype, hlen, hdisp, -, hraised, hcounters⟩ :=
    feedAll_upTo_crc (t := T) (p := []) h hwf (Nat.zero_le _) (Nat.zero_le _)
  have hcfg : u.cfg = s.cfg := (feedAll_sameOutside hu).1
  have hroom : u.parser.cursor ≤ u.cfg.maxPayload + 2 := by rw [hheld.1]; exact Nat.le_add_left 2 _
  have hmatch : crc8 (u.frameRange 0 u.parser.cursor) = crc8 [T, 0x00] := congrArg crc8 hheld.frameRange
  have hcrc := execParserFeed_crc (crc8 [T, 0x00]) hstate hroom
  rw [if_pos hmatch, htype, hheld.frameRange_two, hlen] at hcrc
  have hframe : feedAll ([hdr1, hdr2, T, 0x00] ++ [crc8 [T, 0x00]]) s =
      .next ((u.dispatchTo T [] 0).goto .awaitHeader1) := by
    have hstart : feedAll [hdr1, hdr2, T, 0x00] s = .next u := hu
    rw [feedAll_append, hstart, andThen_next, feedAll_cons, hcrc, andThen_next, feedAll_nil]
    rfl
  refine ⟨_, (feedAll_doubled_hdr1 _ h).trans hframe, ?_, rfl, hraised, hcounters⟩
  rw [State.goto_disp, State.dispatchTo_disp, hdisp, hcfg]

/-- A parser that was fresh in `s` and has met no header since: with what it has seen of a candidate header, the bytes
left hold no header. -/
def HuntingHeader (s u : State) (l : List Byte) : Prop :=
  (u = s ∧ ¬ [hdr1, hdr2] <:+: l) ∨ (u = s.goto .awaitHeader2 ∧ ¬ [hdr1, hdr2] <:+: hdr1 :: l)

/-- A parser that meets no header goes on hunting for one (R106, R107, R109, R110). -/
theorem HuntingHeader.feed {s u : State} {b : Byte} {l : List Byte} (h : s.parser.state = .awaitHeader1)
    (hunt : HuntingHeader s u (b :: l)) : ∃ v, execParserFeed b u = .next v ∧ HuntingHeader s v l := by
  have htail {a : Byte} {m : List Byte} (hm : ¬ [hdr1, hdr2] <:+: a :: m) : ¬ [hdr1, hdr2] <:+: m := fun hi =>
    hm (hi.trans (List.suffix_cons a m).isInfix)
  rcases hunt with ⟨rfl, hnone⟩ | ⟨rfl, hnone⟩
  · refine ⟨_, execParserFeed_h1 b h, ?_⟩
    split
    · subst b
      exact .inr ⟨rfl, hnone⟩
    · exact .inl ⟨State.goto_self h, htail hnone⟩
  · have hne : b ≠ hdr2 := by
      rintro rfl
      exact hnone (List.prefix_append [hdr1, hdr2] l).isInfix
    refine ⟨_, execParserFeed_h2 b rfl, ?_⟩
    rw [if_neg hne]
    split
    · subst b
      exact .inr ⟨rfl, htail hnone⟩
    · exact .inl ⟨State.goto_self h, htail (htail hnone)⟩

/-- Bytes that hold no header leave the parser hunting for one. -/
theorem HuntingHeader.feedMany {s u : State} {l : List Byte} (h : s.parser.state = .awaitHeader1)
    (hunt : HuntingHeader s u l) : ∃ v, feedAll l u = .next v ∧ HuntingHeader s v [] := by
  induction l generalizing u with
  | nil => exact ⟨u, rfl, hunt⟩
  | cons b l ih =>
    obtain ⟨v, hv, hunt⟩ := hunt.feed h
    obtain ⟨w, hw, hunt⟩ := ih hunt
    exact ⟨w, by rw [feedAll_cons, hv, andThen_next, hw], hunt⟩

/-- Settles O39: the parser only ever moves between AwaitHeader1 and AwaitHeader2. -/
theorem bytesWithoutAHeaderAreDiscarded : Obligations.BytesWithoutAHeaderAreDiscarded := by
  intro s l h hnone
  have hunt : HuntingHeader s s l := .inl ⟨rfl, fun ⟨a, z, hl⟩ => hnone a z hl.symm⟩
  obtain ⟨t, ht, hunt⟩ := hunt.feedMany h
  exact ⟨t, ht, hunt.imp And.left And.left⟩

/-! ### The rows of the classification table (R65, R106 to R115) -/

/-- The row that a parser state and a byte select: the word of the state's number and the byte decodes to it, and where
the parser is in that state it is what feeding the byte does. -/
theorem row_of_state {s : State} {n : BitVec 3} {st : ParserState} (b : Byte) (h : s.parser.state = st)
    (hn : ParserState.ofNumber n = some st) :
    decode s.cfg (.w (n ++ b)) = .ok ((classify s.cfg st b).instr b) ∧
      exec ((classify s.cfg st b).instr b) s = execParserFeed b s := by
  subst h
  exact ⟨decode_classWord s.cfg b hn, (exec_instr (rowOf_names s b) s).trans (takeRow_of_selected rfl)⟩

/-- Settles O28: the parser waits for the second header byte, or for the first one as before. -/
theorem rowsOfAwaitHeader1 : Obligations.RowsOfAwaitHeader1 := by
  intro s h
  obtain ⟨hword, hexec⟩ := row_of_state (n := 0) hdr1 h rfl
  refine ⟨hword, hexec.trans (execParserFeed_h1 hdr1 h), fun b hb => ?_⟩
  have hne : b ≠ hdr1 := hb
  obtain ⟨hword, hexec⟩ := row_of_state (n := 0) b h rfl
  rw [instr_classify_awaitHeader1, if_neg hb] at hword hexec
  rw [execParserFeed_h1 b h, if_neg hne, State.goto_self h] at hexec
  exact ⟨hword, hexec⟩

/-- Settles O29: the header is complete, or its first byte came again, or the parser waits for one anew. -/
theorem rowsOfAwaitHeader2 : Obligations.RowsOfAwaitHeader2 := by
  intro s h
  obtain ⟨hword2, hexec2⟩ := row_of_state (n := 1) hdr2 h rfl
  obtain ⟨hword1, hexec1⟩ := row_of_state (n := 1) hdr1 h rfl
  rw [execParserFeed_h2 hdr1 h, if_neg (by decide), if_pos rfl, State.goto_self h] at hexec1
  refine ⟨hword2, hexec2.trans (execParserFeed_h2 hdr2 h), hword1, hexec1, fun b hb2 hb1 => ?_⟩
  have hne2 : b ≠ hdr2 := hb2
  have hne1 : b ≠ hdr1 := hb1
  obtain ⟨hword, hexec⟩ := row_of_state (n := 1) b h rfl
  rw [instr_classify_awaitHeader2, if_neg hb2, if_neg hb1] at hword hexec
  rw [execParserFeed_h2 b h, if_neg hne2, if_neg hne1] at hexec
  exact ⟨hword, hexec⟩

/-- A row that stores its byte at `cursor` changes no other cell and nothing outside the parser (R40). -/
theorem storeRowFrame_of_put {s : State} {p : Parser} {b : Byte} (hwf : s.parser.frameBuffer.wf)
    (hbuffer : p.frameBuffer = (s.parser.put b).frameBuffer) (hcursor : p.cursor = (s.parser.put b).cursor) :
    StoreRowFrame s (s.withParser p) b := by
  have hcell (i : Nat) : (s.withParser p).frameAt i = if s.parser.cursor = i then b else s.frameAt i := by
    simp only [State.frameAt, State.withParser_parser, hbuffer]
    exact heldByte_write _ hwf _ _ _
  exact ⟨(hcell _).trans (if_pos rfl), fun i hi => (hcell i).trans (if_neg hi.symm), hcursor,
    rfl, rfl, rfl, rfl, rfl, rfl, rfl, rfl, rfl, rfl⟩

/-- Settles O30: the byte is stored and latched, whatever it is. -/
theorem typeRowStoresTheType : Obligations.TypeRowStoresTheType := by
  intro s b h hroom hwf
  obtain ⟨hword, hexec⟩ := row_of_state (n := 2) b h rfl
  exact ⟨hword, _, hexec.trans (execParserFeed_type b h hroom), rfl, rfl, rfl, storeRowFrame_of_put hwf rfl rfl⟩

/-- Settles O31: the byte is stored and latched, and 0 skips the payload. -/
theorem lengthRowStoresTheLength : Obligations.LengthRowStoresTheLength := by
  intro s b h hb hroom hwf
  obtain ⟨hword, hexec⟩ := row_of_state (n := 3) b h rfl
  rw [instr_classify_readLength, if_pos hb] at hword hexec
  exact ⟨hword, _, hexec.trans (execParserFeed_lenOk h hb hroom), rfl, rfl, rfl, storeRowFrame_of_put hwf rfl rfl⟩

/-- Settles O33: the byte is stored, and the incremented cursor tells the last one. -/
theorem payloadRowStoresTheByte : Obligations.PayloadRowStoresTheByte := by
  intro s b h hroom hwf
  obtain ⟨hword, hexec⟩ := row_of_state (n := 4) b h rfl
  exact ⟨hword, _, hexec.trans (execParserFeed_payload b h hroom), rfl, rfl, rfl, storeRowFrame_of_put hwf rfl rfl⟩

theorem selOf_of_some {c : Config} {t : Byte} {k : Nat} (h : c.handler t = some k) : selOf c t = .handler k := by
  rw [selOf, h]

theorem selOf_of_none {c : Config} {t : Byte} (h : c.handler t = none) : selOf c t = .fallback := by
  rw [selOf, h]

/-- Settles O34: the event, where there is one, is that of `DISPATCH` for the frame held. -/
theorem crcRowDispatchesOnAMatch : Obligations.CrcRowDispatchesOnAMatch := by
  intro s b h hroom
  obtain ⟨hword, hexec⟩ := row_of_state (n := 5) b h rfl
  rw [execParserFeed_crc b h hroom] at hexec
  refine ⟨hword, _, hexec, ?_⟩
  by_cases hmatch : crc8 (s.frameRange 0 s.parser.cursor) = b
  · simp only [if_pos hmatch]
    exact ⟨rfl, ⟨_, rfl, rfl, rfl, rfl, rfl, fun _ => selOf_of_some, selOf_of_none⟩,
      rfl, rfl, rfl, rfl, rfl, rfl, rfl, rfl⟩
  · simp only [if_neg hmatch]
    exact ⟨rfl, ⟨rfl, rfl⟩, rfl, rfl, rfl, rfl, rfl, rfl, rfl, rfl⟩

/-- The cause of a fed byte is F2 exactly where the byte takes the row `FEED.LEN_OVER` (R135). -/
theorem causeOf_parserFeed_eq_oversizeLength {s : State} {b : Byte} :
    causeOf (.parserFeed b) s = some .oversizeLength ↔ s.parser.state = .readLength ∧ s.cfg.maxPayload < b.toNat := by
  obtain ⟨-, -, -, -, -, -, -, hlenOver, -⟩ := classify_spec s.cfg s.parser.state b
  rw [← hlenOver]
  show _ ↔ s.rowOf b = .lenOver
  cases hrow : s.rowOf b with
  | crc =>
    simp only [causeOf, hrow]
    (repeat' split) <;> simp
  | h1Hit | h1Miss | h2Hit | h2Ab | h2Miss | type | lenOk | lenOver | payload => simp [causeOf, hrow]

/-- The row `FEED.LEN_OVER` raises F2 and forces AwaitHeader1 (R113). -/
theorem execFeedLenOver_spec {s : State} {b : Byte} (h : s.parser.state = .readLength)
    (hb : s.cfg.maxPayload < b.toNat) :
    decode s.cfg (.w (0b011#3 ++ b)) = .ok (.feedLenOver b) ∧
      exec (.feedLenOver b) s = .next ((s.raise (.oversizeLength s.parser.type b)).goto .awaitHeader1) := by
  obtain ⟨hword, hexec⟩ := row_of_state (n := 3) b h rfl
  rw [instr_classify_readLength, if_neg (Nat.not_le.mpr hb)] at hword hexec
  exact ⟨hword, hexec.trans (execParserFeed_lenOver h hb)⟩

/-- A single operation that records F2 fed a length byte beyond `MAX_PAYLOAD` to the parser, by name or not. -/
theorem exec_raises_oversizeLength {i : Instr} {s t : State} {y b : Byte} (h : exec i s = .next t)
    (hframe : ∀ y p ck, i ≠ .frame y p ck) (hraised : t.raised = s.raised ++ [.oversizeLength y b]) :
    (i = .parserFeed b ∨ i = .feedLenOver b) ∧ causeOf (.parserFeed b) s = some .oversizeLength ∧
      y = s.parser.type := by
  have hreset : i ≠ .reset := by
    rintro rfl
    cases h
    simp at hraised
  rcases oneOperationRaisesAtMostOneFault s t i h hreset hframe with
    ⟨hnone, -⟩ | ⟨b', -, -, hrecord, -⟩ | ⟨b', hi, hcause, hrecord, -⟩
  · simp [hnone] at hraised
  · simp [hrecord] at hraised
  · rw [hraised, List.append_cancel_left_eq] at hrecord
    obtain ⟨rfl, rfl⟩ : y = s.parser.type ∧ b = b' := by simpa using hrecord
    exact ⟨hi, hcause, rfl⟩

/-- Settles O32: the row raises F2 and stores nothing, and F2 is the cause of no other operation. -/
theorem oversizeLengthAbandonsTheFrame : Obligations.OversizeLengthAbandonsTheFrame := by
  refine ⟨fun s b h hb => ?_, fun s t i y b h hframe hraised => ?_⟩
  · obtain ⟨hword, hexec⟩ := execFeedLenOver_spec h hb
    have hbyte := b.isLt
    exact ⟨by omega, hword, _, hexec, rfl, rfl, rfl, rfl, rfl, rfl, rfl, rfl, fun _ => rfl,
      rfl, rfl, rfl, rfl, rfl, rfl, rfl⟩
  · obtain ⟨hi, hcause, htype⟩ := exec_raises_oversizeLength h hframe hraised
    obtain ⟨hstate, hlength⟩ := causeOf_parserFeed_eq_oversizeLength.mp hcause
    exact ⟨hi, hstate, hlength, htype⟩

/-! ### `PARSER.ABORT` (R121) -/

/-- With `parser_abort` the word is the abort, whatever the other bits carry (R61). -/
theorem decodeF_abort (b : BitVec 9) : decodeF (1#1 ++ b) = .ok .parserAbort := by
  rw [decodeF, BitVec.getLsbD_append]
  rfl

/-- Settles O35: an abort is a change of `state`. -/
theorem abortForcesAwaitHeader1 : Obligations.AbortForcesAwaitHeader1 := fun _ => ⟨decodeF_abort, rfl⟩

/-! ### The integrated block (R123) -/

theorem rxStep_empty {s : State} (hempty : s.queue.isEmpty = true) : rxStep s = .next s := if_pos hempty

/-- `RX.STEP` on a queue that holds a byte is `BUF.READ` and the feeding of the oldest byte. -/
theorem rxStep_eq_readThenFeed {s : State} (hempty : s.queue.isEmpty = false) :
    rxStep s = execAll [.bufRead, .parserFeed (s.storageAt s.queue.head)] s := by
  rw [rxStep, if_neg (by simp [hempty]), execAll_pair]
  refine andThen_congr fun u hu => ?_
  rw [feedRead, queueEdge_rd (wr := none) hempty hu]
  rfl

/-- A word without a request on port P writes nothing (R59). -/
theorem edgeWrites_idle {e : Edge} (hp : e.p = 0) : edgeWrites e = none := by
  rw [edgeWrites, hp]
  rfl

theorem edgeAborts_idle {e : Edge} (hf : e.f = 0) : edgeAborts e = false := by
  rw [edgeAborts, hf]
  rfl

theorem execAll_concat (l : List Instr) (i : Instr) (s : State) :
    execAll (l ++ [i]) s = andThen (execAll l s) (exec i) :=
  (execAll_append l [i] s).trans (congrArg (andThen _) (funext (execAll_singleton i)))

section Integrated

variable {s : State} {e : Edge} (hint : s.cfg.integrated = true)

include hint

theorem readRequested_integrated : readRequested e s = (e.rxRun == 1 && !edgeAborts e && !s.queue.isEmpty) := by
  rw [readRequested, if_pos hint]

/-- With `rx_run` and no abort the glue reads a queue that is not empty (R123). -/
theorem readRequested_rxRun (hrun : e.rxRun = 1) (habort : edgeAborts e = false) :
    readRequested e s = !s.queue.isEmpty := by
  rw [readRequested_integrated hint, hrun, habort]
  rfl

/-- Without an abort the parser is fed what the glue reads, and nothing else (R61, R123). -/
theorem parserOps_integrated (hr : e.r = 0) (habort : edgeAborts e = false) :
    parserOps e s = if readRequested e s then [.parserFeed (s.storageAt s.queue.head)] else [] := by
  have hreset : ¬ e.r = 1 := by simp [hr]
  simp only [parserOps, fedBytes, habort, hreset, hint, decide_false, Bool.or_self, Bool.false_eq_true, if_false,
    if_true]
  split <;> rfl

/-- `rx_run` alone is `RX.STEP`. -/
theorem runEdge_rxRun : runEdge { Edge.idle with rxRun := 1 } s = rxStep s := by
  rw [runEdge_eq rfl, edgeWrites_idle rfl, parserOps_integrated hint rfl (edgeAborts_idle rfl),
    encoderOps_nil rfl rfl, readRequested_rxRun hint rfl (edgeAborts_idle rfl)]
  cases hempty : s.queue.isEmpty with
  | true => exact (rxStep_empty hempty).symm
  | false => exact (rxStep_eq_readThenFeed hempty).symm

/-- An abort keeps the glue from reading (R121, R123). -/
theorem runEdge_rxRun_abort (b : BitVec 9) :
    runEdge { Edge.idle with rxRun := 1, f := 1#1 ++ b } s = exec .parserAbort s := by
  have hread : readRequested { Edge.idle with rxRun := 1, f := 1#1 ++ b } s = false := by
    rw [readRequested_integrated hint, edgeAborts, BitVec.getLsbD_append]
    rfl
  rw [runEdge_eq rfl, edgeWrites_idle rfl, parserOps_abort rfl, encoderOps_nil rfl rfl, hread]
  exact execAll_singleton .parserAbort s

/-- `rd_en` and `feed_valid` reach nothing (R60, R61). -/
theorem runEdge_outside (b : BitVec 9) : runEdge { Edge.idle with c := 1, f := 0#1 ++ b } s = .next s := by
  have habort : edgeAborts { Edge.idle with c := 1, f := 0#1 ++ b } = false := by
    rw [edgeAborts, BitVec.getLsbD_append]
    rfl
  have hread : readRequested { Edge.idle with c := 1, f := 0#1 ++ b } s = false := readRequested_integrated hint
  rw [runEdge_eq rfl, edgeWrites_idle rfl, parserOps_integrated hint rfl habort, encoderOps_nil rfl rfl, hread]
  rfl

/-- A lone read and whatever would feed the parser are no inputs of the integrated block (R60, R61, R123). -/
theorem isInput_outside {w : Cmd}
    (hw : (∃ x, w = .c x) ∨ (∃ b : BitVec 9, w = .f (0#1 ++ b)) ∨ (∃ x, w = .w x) ∨ ∃ l, w = .wire l) :
    isInput s.cfg w = false := by
  have hclosed : (!s.cfg.integrated) = false := congrArg not hint
  rcases hw with ⟨x, rfl⟩ | ⟨b, rfl⟩ | ⟨x, rfl⟩ | ⟨l, rfl⟩
  · exact hclosed
  · rw [isInput, hclosed, BitVec.getLsbD_append]
    rfl
  · exact hclosed
  · exact hclosed

end Integrated

/-- `s` with another queue, and a write accepted: what an accepted `BUF.WRITE` changes. -/
def State.withWrite (q : ByteQueue) (s : State) : State := (s.withQueue q).withOut { s.out with wrOk := true }

/-- An accepted write and the feeding of a byte may be taken in either order (R3). -/
theorem execAll_bufWrite_parserFeed (b x : Byte) {s : State} (hfull : s.queue.full = false)
    (htail : s.queue.tail < s.cfg.capacity) :
    execAll [.bufWrite b, .parserFeed x] s = execAll [.parserFeed x, .bufWrite b] s := by
  have hwrite {v : State} (hq : v.queue = s.queue) (hc : v.cfg = s.cfg) :
      exec (.bufWrite b) v = .next (v.withWrite (s.queue.push s.cfg b)) := by
    rw [← hq, ← hc]
    exact execBufWrite_room b (hq ▸ hfull) (hq ▸ hc ▸ htail)
  have hfeed : Commutes (State.withWrite (s.queue.push s.cfg b)) (execParserFeed x) :=
    exec_commutes_of_outside (i := .parserFeed x) fun _ _ => rfl
  rw [execAll_pair, execAll_pair, hwrite rfl rfl, andThen_next]
  refine (hfeed s).trans (andThen_congr fun v hv => ?_)
  obtain ⟨hcfg, hqueue, -⟩ := feedEffect_sameOutside hv
  exact (hwrite hqueue hcfg).symm

/-- A write beside `rx_run` is the two one after the other: the write first on a full queue (R48, R123). -/
theorem runEdge_write_rxRun {s : State} (hint : s.cfg.integrated = true) (h : QueueShape s.cfg s.queue) (b : Byte) :
    runEdge { Edge.idle with rxRun := 1, p := 1#1 ++ b } s =
      if s.queue.full then andThen (exec (.bufWrite b) s) rxStep else andThen (rxStep s) (exec (.bufWrite b)) := by
  rw [runEdge_eq_execAll rfl h, queueOps, edgeWrites_request rfl, parserOps_integrated hint rfl (edgeAborts_idle rfl),
    encoderOps_nil rfl rfl, readRequested_rxRun hint rfl (edgeAborts_idle rfl), List.append_nil]
  cases hfull : s.queue.full with
  | true =>
    have hempty : s.queue.isEmpty = false := ByteQueue.not_isEmpty_of_full hfull
    rw [hempty]
    refine andThen_congr fun u hu => ?_
    obtain rfl := Host.Outcome.next.inj ((execBufWrite_full b hfull).symm.trans hu)
    exact (rxStep_eq_readThenFeed (s := (s.raise (.bufferFull b)).withOut { s.out with wrOk := false }) hempty).symm
  | false =>
    cases hempty : s.queue.isEmpty with
    | true =>
      rw [rxStep_empty hempty]
      exact execAll_singleton (.bufWrite b) s
    | false =>
      obtain ⟨hhead, htail, -⟩ := h
      have hread : exec .bufRead s = _ := execBufRead_nonempty hempty hhead
      rw [rxStep_eq_readThenFeed hempty, ← execAll_concat]
      refine andThen_congr fun u hu => ?_
      obtain rfl := Host.Outcome.next.inj (hread.symm.trans hu)
      exact execAll_bufWrite_parserFeed b _ rfl htail

/-- Settles O55: the glue alone reads and feeds, and the write beside it is apart from the feeding. -/
theorem integratedBlockReadsAndFeeds : Obligations.IntegratedBlockReadsAndFeeds := by
  intro s hint
  refine ⟨runEdge_rxRun hint, rxStep_empty, fun hempty hhead => ?_, runEdge_rxRun_abort hint,
    fun b h => runEdge_write_rxRun hint (QueueInv.shape h.queueInv) b, fun rest w hs hw => ?_, runEdge_outside hint⟩
  · have hread : exec .bufRead s = _ := execBufRead_nonempty hempty hhead
    refine ⟨_, hread, ?_⟩
    rw [rxStep_eq_readThenFeed hempty, execAll_pair, hread, andThen_next]
  · rw [step_cmd hs]
    exact runCmd_not_input (isInput_outside (s := s.fetched rest) hint hw)

end Sys2Proof.Machine

/-! 44_dispatch.md: `DISPATCH` and its two cases (R126, R127, R132), and where the events of a fed byte and of a step
come from (R125, R131). -/

namespace Sys2Proof.Machine

/-! ### `DISPATCH` (R126, R127, R132) -/

/-- Settles O44: the event is that of the handler the type has, or of the fallback. -/
theorem dispatchEmitsOneEvent : Obligations.DispatchEmitsOneEvent := by
  refine fun s t p n => ⟨fun k hk => ?_, fun hnone => ?_⟩
  · have hevent (m : Nat) : s.dispatchTo t p m = s.emitDisp { sel := .handler k, t := t, n := m, p := p } := by
      rw [State.dispatchTo, selOf_of_some hk]
    refine ⟨congrArg _ (hevent n), ?_, ?_, rfl, rfl⟩
    · rw [exec, execDispatchHit, if_pos (by rw [hk]; rfl), hevent]
    · rw [exec, execDispatchDefault, if_neg (by rw [hk]; nofun)]
  · have hevent (m : Nat) : s.dispatchTo t p m = s.emitDisp { sel := .fallback, t := t, n := m, p := p } := by
      rw [State.dispatchTo, selOf_of_none hnone]
    refine ⟨congrArg _ (hevent n), ?_, ?_, rfl, rfl⟩
    · rw [exec, execDispatchDefault, if_pos (by rw [hnone]; rfl), hevent]
    · rw [exec, execDispatchHit, if_neg (by rw [hnone]; nofun)]

/-! ### The event of a fed byte (R125, R131) -/

/-- The event of the frame that a parser in ReadCrc holds (R115, R125). -/
def State.heldEvent (s : State) : DispEvent where
  sel := selOf s.cfg s.parser.type
  t := s.parser.type
  n := s.parser.declaredLength.toNat
  p := s.frameRange 2 s.parser.cursor

/-- A fed byte emits nothing, or in ReadCrc, where it is the checksum of the bytes held, the event of the frame held. -/
theorem execParserFeed_disp {b : Byte} {s t : State} (h : execParserFeed b s = .next t) :
    t.disp = s.disp ∨
      s.parser.state = .readCrc ∧ crc8 (s.frameRange 0 s.parser.cursor) = b ∧ t.disp = s.disp ++ [s.heldEvent] := by
  rcases feedEffect_cases h with ⟨-, rfl⟩ | ⟨-, rfl⟩ | ⟨-, rfl⟩ | ⟨-, -, rfl⟩ | ⟨-, -, rfl⟩ | ⟨-, rfl⟩ | ⟨-, -, rfl⟩ |
    ⟨hrow, -, rfl⟩
  iterate 7 exact .inl rfl
  obtain ⟨-, -, -, -, -, -, -, -, -, hcrc⟩ := classify_spec s.cfg s.parser.state b
  by_cases hmatch : crc8 (s.frameRange 0 s.parser.cursor) = b
  · rw [if_pos hmatch]
    exact .inr ⟨hcrc.mp hrow, hmatch, rfl⟩
  · rw [if_neg hmatch]
    exact .inl rfl

theorem rangeOf_two_cells (f : Nat → Byte) (n : Nat) :
    rangeOf f 0 (n + 2) = [f 0, f 1] ++ rangeOf f 2 (n + 2) := rfl

/-- A written cell of `frame_buffer` lists what is read of it. -/
theorem State.lookup_eq_frameAt {s : State} {i : Nat} (h : (s.parser.frameBuffer.lookup i).isSome = true) :
    s.parser.frameBuffer.lookup i = some (s.frameAt i) := by
  obtain ⟨v, hv⟩ := Option.isSome_iff_exists.mp h
  rw [State.frameAt, heldByte_of_lookup hv, hv]

theorem handler_eq_of_selOf {c : Config} {t : Byte} {k : Nat} (h : selOf c t = .handler k) : c.handler t = some k := by
  cases hhandler : c.handler t with
  | some j =>
    rw [selOf_of_some hhandler] at h
    exact congrArg some (Sel.handler.inj h)
  | none =>
    rw [selOf_of_none hhandler] at h
    cases h

/-- In a build of R8 a type's handler is one of the handlers there are. -/
theorem Config.handler_lt {c : Config} {t : Byte} {k : Nat} (hwf : c.wf = true) (h : c.handler t = some k) :
    k < c.nHandlers := by
  simp only [Config.wf, Bool.and_eq_true, List.all_eq_true] at hwf
  have hmem : some k ∈ c.handlerMap.toList := by
    rw [← h]
    exact Vector.mem_toList_iff.mpr (Vector.getElem_mem t.isLt)
  simpa using hwf.2 _ hmem

/-- The event of the frame held is that of a valid frame, made of written cells (R26, R125). -/
theorem BlockInv.heldEvent {s : State} (h : BlockInv s) (hstate : s.parser.state = .readCrc) :
    let e := s.heldEvent
    [e.t, byteOf e.n] ++ e.p = s.frameRange 0 s.parser.cursor ∧ e.n = e.p.length ∧ e.n ≤ s.cfg.maxPayload ∧
      (∀ k, e.sel = .handler k → k < s.cfg.nHandlers) ∧
      ∀ i < e.n, s.parser.frameBuffer.lookup (2 + i) = e.p[i]? := by
  obtain ⟨-, -, -, -, -, hcrc⟩ := h.parserInv
  obtain ⟨hcursor, hmax, htype, hlength, hwritten⟩ := hcrc hstate
  have htype0 : s.frameAt 0 = s.parser.type := heldByte_of_lookup htype
  have hlength1 : s.frameAt 1 = s.parser.declaredLength := heldByte_of_lookup hlength
  refine ⟨?_, ?_, hmax, fun k hk => Config.handler_lt h.1 (handler_eq_of_selOf hk), fun i hi => ?_⟩
  · rw [State.frameRange, hcursor, rangeOf_two_cells, htype0, hlength1, State.heldEvent, State.frameRange, hcursor,
      byteOf_toNat_self]
  · simp only [State.heldEvent, State.frameRange, length_rangeOf, hcursor, Nat.add_sub_cancel]
  · have hi : i < s.parser.declaredLength.toNat := hi
    rw [State.lookup_eq_frameAt (hwritten _ (by omega))]
    exact (getElem?_rangeOf (by omega)).symm

/-! ### Operations that emit no event (R3, R126) -/

/-- The operations of the byte queue, of the checksum and of the encoder change nothing of what the parser reads, and
emit no event (R3). -/
theorem exec_sameParserPath {i : Instr} {s t : State} (h : exec i s = .next t)
    (hi : family i = .queue ∨ family i = .checksum ∨ family i = .encoder) : SameParserPath t s := by
  have hkept : s.unraised.withPartOf (family i) t = t :=
    (exec_withPartOf s.unraised i).fixed (by cases family i <;> rfl) h
  refine ⟨exec_cfg h, ?_⟩
  rcases hi with hi | hi | hi <;> rw [hi] at hkept <;>
    exact ⟨congrArg (·.parser) hkept.symm, congrArg (·.disp) hkept.symm⟩

theorem SameParserPath.trans {s t u : State} (h : SameParserPath s t) (g : SameParserPath t u) :
    SameParserPath s u := by
  obtain ⟨hcfg, hparser, hdisp⟩ := h
  obtain ⟨gcfg, gparser, gdisp⟩ := g
  exact ⟨hcfg.trans gcfg, hparser.trans gparser, hdisp.trans gdisp⟩

theorem execAll_sameParserPath {l : List Instr} {s t : State} (h : execAll l s = .next t)
    (hl : ∀ i ∈ l, family i = .queue ∨ family i = .checksum ∨ family i = .encoder) : SameParserPath t s :=
  execAll_keeps (P := (SameParserPath · s)) (fun i hi _ _ hu hv => (exec_sameParserPath hv (hl i hi)).trans hu)
    ⟨rfl, rfl, rfl⟩ h

/-! ### The events of a request (R126, log 18) -/

/-- The family of operations that a request's format is for (R59 to R67). -/
def requestFamily : Cmd → Family
  | .r _ => .system
  | .p _ | .c _ | .observeEmpty | .observeStatus => .queue
  | .f _ | .w _ | .wire _ => .parser
  | .e _ _ _ _ _ | .t _ => .encoder
  | .d _ _ | .invokeDispatch _ _ _ => .registry
  | .applyCrc8 _ => .checksum

/-- Bytes on the wire are rejected only as no frame, and otherwise are the bytes of the frame they decode to (R56). -/
theorem decodeWire_spec (bytes : List Byte) :
    (∃ t p ck, decodeWire bytes = .ok (.frame t p ck) ∧ frameBytes t p ck = bytes) ∨
      decodeWire bytes = .error .frameTooShort ∨ decodeWire bytes = .error .frameHeader ∨
      decodeWire bytes = .error .frameLength := by
  unfold decodeWire
  split
  · rename_i h1 h2 t l rest
    split
    · exact .inr (.inr (.inl rfl))
    · rename_i hheader
      obtain ⟨rfl, rfl⟩ : h1 = hdr1 ∧ h2 = hdr2 := by simpa using hheader
      split
      · rename_i ck hck
        refine .inl ⟨t, rest.take l.toNat, ck, rfl, ?_⟩
        have hlen : (rest.take l.toNat).length = l.toNat := by
          have := congrArg List.length hck
          simp only [List.length_drop, List.length_singleton] at this
          rw [List.length_take]
          omega
        rw [frameBytes, hlen, byteOf_toNat_self, List.append_assoc, ← hck, List.take_append_drop]
        rfl
      · exact .inr (.inr (.inr rfl))
  · exact .inr (.inl rfl)

/-- The operation of a request is one of its format's family. -/
theorem decode_family {c : Config} {w : Cmd} {i : Instr} (h : decode c w = .ok i) : family i = requestFamily w := by
  cases w with
  | observeEmpty | observeStatus | applyCrc8 _ | invokeDispatch _ _ _ => cases h; rfl
  | r _ | p _ | c _ | t _ | f _ | e _ _ _ _ _ =>
    simp only [decode, decodeR, decodeP, decodeC, decodeT, decodeF, decodeE] at h
    (repeat' split at h) <;> cases h <;> rfl
  | w word =>
    simp only [decode, decodeW] at h
    split at h <;> cases h
    cases classify c _ _ <;> rfl
  | d t p =>
    simp only [decode, decodeD] at h
    split at h <;> cases h <;> rfl
  | wire bytes =>
    rcases decodeWire_spec bytes with ⟨t, p, ck, hok, -⟩ | hrejected | hrejected | hrejected
    · cases hok.symm.trans h; rfl
    all_goals cases hrejected.symm.trans h

/-- Bytes on the wire are fed to the parser, whether they are a frame or not (R68, log 9). -/
theorem runCmd_wire {bytes : List Byte} {s : State} (hi : isInput s.cfg (.wire bytes) = true) :
    runCmd (.wire bytes) s = feedAll bytes s := by
  rcases decodeWire_spec bytes with ⟨t, p, ck, hok, rfl⟩ | hrejected | hrejected | hrejected
  · exact runCmd_decoded hi hok
  all_goals simp only [runCmd, hi, if_true, decode, hrejected, runRejected, runRejected.runWire]

/-- A classification word that is answered feeds its byte: its state is then the parser's (R65, log 8). -/
theorem runCmd_classWord {word : BitVec 11} {s t : State} (hi : isInput s.cfg (.w word) = true)
    (h : runCmd (.w word) s = .next t) : execParserFeed (word.setWidth 8) s = .next t := by
  simp only [runCmd, hi, if_true, decode, decodeW] at h
  cases hn : ParserState.ofNumber (word.extractLsb' 8 3) with
  | none => rw [hn] at h; cases h
  | some st =>
    rw [hn] at h
    have hrow : takeRow (classify s.cfg st (word.setWidth 8)) (word.setWidth 8) s = .next t :=
      (exec_instr (rowOf_names (s.goto st) _) s).symm.trans h
    exact execParserFeed_of_takeRow hrow

theorem fedBytes_of_requestFamily {w : Cmd} (hw : requestFamily w ≠ .parser) (s : State) :
    fedBytes s (.cmd w) = [] := by
  cases w with
  | f _ | w _ | wire _ => exact absurd rfl hw
  | _ => simp only [fedBytes, ite_self]

/-- `DISPATCH` is no input of any build (R126). -/
theorem requestFamily_of_isInput {c : Config} {w : Cmd} (h : isInput c w = true) : requestFamily w ≠ .registry := by
  cases w with
  | d _ _ | invokeDispatch _ _ _ => cases h
  | _ => nofun

/-- Outside the families of the parser and of `DISPATCH` no operation emits an event; the reset keeps `DISP`
(log 12). -/
theorem exec_disp_kept {i : Instr} {s t : State} (h : exec i s = .next t) (hparser : family i ≠ .parser)
    (hregistry : family i ≠ .registry) : t.disp = s.disp := by
  cases hfamily : family i with
  | system =>
    cases i with
    | reset => cases h; rfl
    | _ => cases hfamily
  | queue => exact (exec_sameParserPath h (.inl hfamily)).2.2
  | checksum => exact (exec_sameParserPath h (.inr (.inl hfamily))).2.2
  | encoder => exact (exec_sameParserPath h (.inr (.inr hfamily))).2.2
  | parser => exact absurd hfamily hparser
  | registry => exact absurd hfamily hregistry

/-- A request that is none of the parser's emits no event (R126, log 18). -/
theorem runCmd_disp_kept {w : Cmd} {s t : State} (hw : requestFamily w ≠ .parser) (h : runCmd w s = .next t) :
    t.disp = s.disp := by
  rcases runCmd_cases h with rfl | ⟨i, hinput, hdecode, h⟩ | ⟨bytes, -, rfl, -⟩
  · rfl
  · have hfamily := decode_family hdecode
    exact exec_disp_kept h (hfamily ▸ hw) (hfamily ▸ requestFamily_of_isInput hinput)
  · exact absurd rfl hw

/-- The events of a word on port F are those of the byte it feeds; an abort feeds none (R61, R121). -/
theorem runCmd_feed_disp {word : BitVec 10} {s t : State} (hi : isInput s.cfg (.f word) = true)
    (h : runCmd (.f word) s = .next t) :
    ∃ u, feedAll (fedBytes s (.cmd (.f word))) s = .next u ∧ t.disp = u.disp := by
  simp only [runCmd, hi, if_true, decode, decodeF] at h
  simp only [fedBytes, hi, if_true]
  cases habort : word.getLsbD 9 with
  | true =>
    rw [habort] at h
    cases h
    exact ⟨s, rfl, rfl⟩
  | false =>
    rw [habort] at h
    cases hfeed : word.getLsbD 8 with
    | true =>
      rw [hfeed] at h
      exact ⟨t, (andThen_pure _).trans h, rfl⟩
    | false =>
      rw [hfeed] at h
      cases h
      exact ⟨s, rfl, rfl⟩

/-- The events of a request are those of the bytes it feeds to the parser. -/
theorem runCmd_disp {w : Cmd} {s t : State} (h : runCmd w s = .next t) :
    ∃ u, feedAll (fedBytes s (.cmd w)) s = .next u ∧ t.disp = u.disp := by
  cases hinput : isInput s.cfg w with
  | false =>
    rw [runCmd_not_input hinput] at h
    cases h
    refine ⟨s, ?_, rfl⟩
    simp only [fedBytes, hinput, Bool.false_eq_true, if_false, feedAll_nil]
  | true =>
    have hother (hw : requestFamily w ≠ .parser) : ∃ u, feedAll (fedBytes s (.cmd w)) s = .next u ∧ t.disp = u.disp :=
      ⟨s, by rw [fedBytes_of_requestFamily hw, feedAll_nil], runCmd_disp_kept hw h⟩
    cases w with
    | f word => exact runCmd_feed_disp hinput h
    | w word =>
      refine ⟨t, ?_, rfl⟩
      simp only [fedBytes, hinput, if_true]
      exact (andThen_pure _).trans (runCmd_classWord hinput h)
    | wire bytes =>
      refine ⟨t, ?_, rfl⟩
      simp only [fedBytes, hinput, if_true]
      exact (runCmd_wire hinput).symm.trans h
    | _ => exact hother nofun

/-! ### The events of an edge (R121, R123) -/

theorem execAll_map_parserFeed (l : List Byte) (s : State) : execAll (l.map .parserFeed) s = feedAll l s := by
  induction l generalizing s with
  | nil => rfl
  | cons b l ih => exact congrArg (andThen (execParserFeed b s)) (funext ih)

/-- The events of the parser's operations on an edge are those of the bytes fed; an abort feeds none (R121). -/
theorem execAll_parserOps_disp {e : Edge} {s v w : State} (h : execAll (parserOps e s) v = .next w) :
    ∃ u, feedAll (fedBytes s (.edge e)) v = .next u ∧ w.disp = u.disp := by
  cases habort : edgeAborts e with
  | true =>
    rw [parserOps, if_pos habort] at h
    cases h
    refine ⟨v, ?_, rfl⟩
    simp only [fedBytes, habort, Bool.or_true, if_true, feedAll_nil]
  | false =>
    rw [parserOps, if_neg (by simp [habort]), execAll_map_parserFeed] at h
    exact ⟨w, h, rfl⟩

/-- The events of an edge are those of the byte it feeds to the parser: neither the queue nor the encoder emits any. -/
theorem runEdge_disp {e : Edge} {s t : State} (hq : QueueShape s.cfg s.queue) (h : runEdge e s = .next t) :
    ∃ u, feedAll (fedBytes s (.edge e)) s = .next u ∧ t.disp = u.disp := by
  by_cases hr : e.r = 1
  · rw [runEdge, if_pos hr] at h
    cases h
    refine ⟨s, ?_, rfl⟩
    simp only [fedBytes, hr, decide_true, Bool.true_or, if_true, feedAll_nil]
  · rw [runEdge_eq_execAll (e.r.eq_zero_or_eq_one.resolve_right hr) hq, execAll_append, execAll_append] at h
    obtain ⟨w, hw, ht⟩ := andThen_eq_next.mp h
    obtain ⟨v, hv, hw⟩ := andThen_eq_next.mp hw
    have hqueue : SameParserPath v s := execAll_sameParserPath hv fun i hi => .inl (queueOps_spec e s i hi).1
    have hencoder : SameParserPath t w := execAll_sameParserPath ht fun i hi => .inr (.inr (encoderOps_spec e s i hi).1)
    obtain ⟨u, hu, hdisp⟩ := execAll_parserOps_disp hw
    obtain ⟨u', hu', -, -, hsame⟩ := feedAll_congr hqueue hu
    exact ⟨u', hu', (hencoder.2.2.trans hdisp).trans hsame⟩

/-! ### Events come only from valid frames -/

/-- Settles O45: a fed byte emits the event of the frame held or none, and a step has the events of the bytes it
feeds. -/
theorem eventsComeOnlyFromValidFrames : Obligations.EventsComeOnlyFromValidFrames := by
  refine ⟨fun s t b hinv h => ?_, fun s t x rest hinv hschedule h => ?_, fun s t hschedule h => ?_⟩
  · refine (execParserFeed_disp h).imp_right fun ⟨hstate, hmatch, hdisp⟩ => ?_
    obtain ⟨hbytes, hlength, hmax, hhandler, hcells⟩ := hinv.heldEvent hstate
    exact ⟨s.heldEvent, hdisp, hstate, hbytes ▸ hmatch, hlength, hmax, rfl, rfl, hhandler, hcells⟩
  · have hfed : ∃ u, feedAll (fedBytes (s.fetched rest) x) (s.fetched rest) = .next u ∧ t.disp = u.disp := by
      cases x with
      | cmd w => exact runCmd_disp ((step_cmd hschedule).symm.trans h)
      | edge e => exact runEdge_disp (QueueInv.shape hinv.queueInv) ((step_edge hschedule).symm.trans h)
    obtain ⟨u, hu, hdisp⟩ := hfed
    obtain ⟨u', hu', -, -, hsame⟩ := feedAll_congr (s := s.fetched rest) (v := s) ⟨rfl, rfl, rfl⟩ hu
    exact ⟨u', hu', hdisp.trans hsame⟩
  · rw [step_nothing_scheduled hschedule] at h
    cases h
    rfl

end Sys2Proof.Machine

/-! 45_common_laws.md: the graph of the parser's control state (R177 (a)). -/

namespace Sys2Proof.Machine

/-- Outside the parser's family only the reset changes anything of the parser: the part that another family works on
holds nothing of it. -/
theorem exec_parser_kept {i : Instr} {s t : State} (h : exec i s = .next t) (hparser : family i ≠ .parser)
    (hreset : i ≠ .reset) : t.parser = s.parser := by
  have hkept : s.unraised.withPartOf (family i) t = t :=
    (exec_withPartOf s.unraised i).fixed (by cases family i <;> rfl) h
  cases hfamily : family i with
  | system =>
    cases i with
    | reset => exact absurd rfl hreset
    | _ => cases hfamily
  | parser => exact absurd hfamily hparser
  | queue | checksum | encoder | registry =>
    rw [hfamily] at hkept
    exact congrArg (·.parser) hkept.symm

/-- The row `FEED.LEN_OK` skips ReadPayload exactly for the length 0 (R112). -/
theorem lenOk_nextState_eq (b : Byte) :
    (if 0 < b.toNat then ParserState.readPayload else .readCrc) = if b = 0 then .readCrc else .readPayload := by
  by_cases hzero : b = 0
  · rw [hzero]
    rfl
  · rw [if_neg hzero, if_pos (by bv_omega)]

/-- Settles O37: each row that a fed byte takes is one edge of the graph, and outside the parser's family only the reset
changes the parser. -/
theorem parserMovesAlongTheGraph : Obligations.ParserMovesAlongTheGraph := by
  refine ⟨fun s t b h => ?_, fun _ _ _ => exec_parser_kept, fun s t h => ?_⟩
  · obtain ⟨hh1Hit, hh1Miss, hh2Hit, hh2Ab, hh2Miss, htype, hlenOk, hlenOver, hpayload, hcrc⟩ :=
      classify_spec s.cfg s.parser.state b
    rcases feedEffect_cases h with ⟨hrow | hrow, rfl⟩ | ⟨hrow | hrow, rfl⟩ | ⟨hrow, rfl⟩ | ⟨hrow, -, rfl⟩ |
      ⟨hrow, -, rfl⟩ | ⟨hrow, rfl⟩ | ⟨hrow, -, rfl⟩ | ⟨hrow, -, rfl⟩
    · obtain ⟨hstate, hb⟩ := hh1Hit.mp hrow
      rw [hstate]
      exact (if_pos hb).symm
    · obtain ⟨hstate, hb2, hb1⟩ := hh2Ab.mp hrow
      rw [hstate]
      exact ((if_neg hb2).trans (if_pos hb1)).symm
    · obtain ⟨hstate, hb⟩ := hh1Miss.mp hrow
      rw [hstate]
      exact (if_neg hb).symm
    · obtain ⟨hstate, hb2, hb1⟩ := hh2Miss.mp hrow
      rw [hstate]
      exact ((if_neg hb2).trans (if_neg hb1)).symm
    · obtain ⟨hstate, hb⟩ := hh2Hit.mp hrow
      rw [hstate]
      exact (if_pos hb).symm
    · rw [htype.mp hrow, State.withParser_parser]
    · obtain ⟨hstate, hb⟩ := hlenOk.mp hrow
      rw [hstate, State.withParser_parser]
      exact (lenOk_nextState_eq b).trans (if_neg (Nat.not_lt.mpr hb)).symm
    · obtain ⟨hstate, hb⟩ := hlenOver.mp hrow
      rw [hstate]
      exact (if_pos hb).symm
    · rw [hpayload.mp hrow, State.withParser_parser, frameEnd]
    · rw [hcrc.mp hrow, State.goto_parser]
  · rcases h with h | h <;> cases h <;> rfl

end Sys2Proof.Machine

/-! 60_exceptions.md: no fault stops the block (R140), and a frame with a wrong checksum is silent (R136). -/

namespace Sys2Proof.Machine

/-! ### A step never stops (R140, R171) -/

/-- What a request decodes to that is answered in every state of the invariant: an operation other than a row asked for by
name, or no operation because the request is idle or reserved. -/
def alwaysAnswered : Except Reject Instr → Bool
  | .ok i => !isRowByName i
  | .error x => x == .idle || x == .reservedEncRequest

/-- Of the inputs only a classification word asks for a row by name, and only it and bytes on the wire are rejected for
more than being idle or reserved. -/
theorem decode_alwaysAnswered {c : Config} {w : Cmd} (hinput : isInput c w = true) (hclass : ∀ word, w ≠ .w word)
    (hwire : ∀ bytes, w ≠ .wire bytes) : alwaysAnswered (decode c w) = true := by
  cases w with
  | r _ => simp only [decode, decodeR]; split <;> rfl
  | p _ => simp only [decode, decodeP]; split <;> rfl
  | c _ => simp only [decode, decodeC]; split <;> rfl
  | f _ => simp only [decode, decodeF]; (repeat' split) <;> rfl
  | e _ _ _ _ _ => simp only [decode, decodeE]; (repeat' split) <;> rfl
  | t _ => simp only [decode, decodeT]; split <;> rfl
  | w word => exact absurd rfl (hclass word)
  | wire bytes => exact absurd rfl (hwire bytes)
  | d _ _ | invokeDispatch _ _ _ => cases hinput
  | observeEmpty | observeStatus | applyCrc8 _ => rfl

theorem runCmd_completes_of_alwaysAnswered {w : Cmd} {s : State} (h : BlockInv s)
    (hw : alwaysAnswered (decode s.cfg w) = true) (hinput : isInput s.cfg w = true) : ∃ t, runCmd w s = .next t := by
  cases hdecode : decode s.cfg w with
  | ok i =>
    rw [hdecode] at hw
    rw [runCmd_decoded hinput hdecode]
    exact exec_completes h (by simpa [alwaysAnswered] using hw)
  | error x =>
    rw [hdecode] at hw
    obtain rfl | rfl : x = .idle ∨ x = .reservedEncRequest := by simpa [alwaysAnswered] using hw
    · exact ⟨s, runCmd_idle_or_reserved (.inl hdecode)⟩
    · exact ⟨s, runCmd_idle_or_reserved (.inr hdecode)⟩

/-- In a state of the invariant every request but a classification word completes. -/
theorem runCmd_completes {w : Cmd} {s : State} (h : BlockInv s) (hclass : ∀ word, w ≠ .w word) :
    ∃ t, runCmd w s = .next t := by
  cases hinput : isInput s.cfg w with
  | false => exact ⟨s, runCmd_not_input hinput⟩
  | true =>
    cases w with
    | wire bytes =>
      rw [runCmd_wire hinput]
      exact feedAll_completes h
    | _ => exact runCmd_completes_of_alwaysAnswered h (decode_alwaysAnswered hinput hclass nofun) hinput

/-- In a state of the invariant every edge completes: it is the reset, or the operations its ports request. -/
theorem runEdge_completes {s : State} (e : Edge) (h : BlockInv s) : ∃ t, runEdge e s = .next t := by
  rcases e.r.eq_zero_or_eq_one with hr | hr
  · obtain ⟨t, ht, -⟩ := edgeEqualsItsOperationsInAnyOrder s e h hr
    exact ⟨t, ht⟩
  · exact ⟨_, if_pos hr⟩

/-- Settles O47: a step is idle, or one request or one edge on a state with the same invariant. -/
theorem stepNeverStops : Obligations.StepNeverStops := by
  intro s h hclass
  cases hschedule : s.schedule with
  | nil => exact ⟨_, step_nothing_scheduled hschedule⟩
  | cons x rest =>
    have hfetched : BlockInv (s.fetched rest) := h
    cases x with
    | cmd w =>
      rw [step_cmd hschedule]
      refine runCmd_completes hfetched ?_
      rintro word rfl
      exact hclass word rest hschedule
    | edge e =>
      rw [step_edge hschedule]
      exact runEdge_completes e hfetched

/-! ### A wrong checksum (R136, R131) -/

/-- Settles O41: the frame is stored and not dispatched, and storing it raises and counts nothing. -/
theorem frameWithWrongChecksumIsSilent : Obligations.FrameWithWrongChecksumIsSilent := by
  intro s t p ck h hwf hmax hp hck
  obtain ⟨u, hu, hdisp, hout, hfed⟩ := execFrame_mismatch h hwf hmax hp hck.symm
  have ⟨_, _, _, _, _, _, _, _, hcounters, _, hraised, _⟩ := hfed
  exact ⟨_, hu, hdisp, hraised, hcounters, hout, rfl, hfed⟩

end Sys2Proof.Machine

/-! 70_reset_and_hazards.md: how long a payload cell keeps its value (R161), what a reset writes (R155), and an edge with
`rst` (R156). -/

namespace Sys2Proof.Machine

/-! ### The lifetime of a payload cell (R161) -/

/-- How far the parser is into a candidate frame, in bytes: once the header is read, two more than are stored. -/
def Parser.bytesTaken (p : Parser) : Nat :=
  match p.state with
  | .awaitHeader1 => 0
  | .awaitHeader2 => 1
  | .readType | .readLength | .readPayload | .readCrc => 2 + p.cursor

theorem Parser.bytesTaken_le (p : Parser) : p.bytesTaken ≤ 2 + p.cursor := by
  unfold Parser.bytesTaken
  split <;> omega

/-- What a fed byte does to the parser's progress (R106 to R115): it writes no cell of `frame_buffer` and takes the parser
at most one byte further, or it writes the cell two below the bytes taken so far (R40) and advances the cursor. -/
theorem execParserFeed_progress {b : Byte} {s t : State} (h : execParserFeed b s = .next t) :
    (t.parser.frameBuffer = s.parser.frameBuffer ∧ t.parser.bytesTaken ≤ s.parser.bytesTaken + 1) ∨
      (t.parser.frameBuffer = s.parser.frameBuffer.write s.parser.cursor b ∧
        t.parser.cursor = s.parser.cursor + 1 ∧ s.parser.bytesTaken = 2 + s.parser.cursor) := by
  obtain ⟨-, -, hh2Hit, -, -, htype, hlenOk, -, hpayload, -⟩ := classify_spec s.cfg s.parser.state b
  rcases feedEffect_cases h with ⟨-, rfl⟩ | ⟨-, rfl⟩ | ⟨hrow, rfl⟩ | ⟨hrow, -, rfl⟩ | ⟨hrow, -, rfl⟩ | ⟨-, rfl⟩ |
    ⟨hrow, -, rfl⟩ | ⟨-, -, rfl⟩
  · exact .inl ⟨rfl, Nat.le_add_left 1 _⟩
  · exact .inl ⟨rfl, Nat.zero_le _⟩
  · exact .inl ⟨rfl, by simp [Parser.bytesTaken, (hh2Hit.mp hrow).1]⟩
  · exact .inr ⟨rfl, rfl, by rw [Parser.bytesTaken, htype.mp hrow]⟩
  · exact .inr ⟨rfl, rfl, by rw [Parser.bytesTaken, (hlenOk.mp hrow).1]⟩
  · exact .inl ⟨rfl, Nat.zero_le _⟩
  · exact .inr ⟨rfl, rfl, by rw [Parser.bytesTaken, hpayload.mp hrow]⟩
  · split <;> exact .inl ⟨rfl, Nat.zero_le _⟩

/-- A fed byte takes the parser at most one byte further. -/
theorem execParserFeed_bytesTaken {b : Byte} {s t : State} (h : execParserFeed b s = .next t) :
    t.parser.bytesTaken ≤ s.parser.bytesTaken + 1 := by
  rcases execParserFeed_progress h with ⟨-, hle⟩ | ⟨-, hcursor, htaken⟩
  · exact hle
  · have := t.parser.bytesTaken_le
    omega

/-- A fed byte keeps the canonical form of `frame_buffer`. -/
theorem execParserFeed_frameBuffer_wf {b : Byte} {s t : State} (hwf : s.parser.frameBuffer.wf)
    (h : execParserFeed b s = .next t) : t.parser.frameBuffer.wf := by
  rcases execParserFeed_progress h with ⟨hkept, -⟩ | ⟨hwrite, -⟩
  · rwa [hkept]
  · rw [hwrite]
    exact Memory.wf_write hwf _ b

/-- A cell that the parser has not reached yet is not written by the next fed byte. -/
theorem execParserFeed_frameAt {b : Byte} {s t : State} {j : Nat} (hwf : s.parser.frameBuffer.wf)
    (hj : s.parser.bytesTaken < 2 + j) (h : execParserFeed b s = .next t) : t.frameAt j = s.frameAt j := by
  rcases execParserFeed_progress h with ⟨hkept, -⟩ | ⟨hwrite, -, htaken⟩
  · rw [State.frameAt, hkept, State.frameAt]
  · rw [State.frameAt, hwrite, heldByte_write _ hwf, if_neg (by omega), State.frameAt]

/-- A cell keeps its value through as many fed bytes as the parser still has to take before it reaches the cell. -/
theorem feedAll_frameAt {l : List Byte} {s t : State} {j : Nat} (hwf : s.parser.frameBuffer.wf)
    (hj : s.parser.bytesTaken + l.length ≤ 2 + j) (h : feedAll l s = .next t) : t.frameAt j = s.frameAt j := by
  induction l generalizing s with
  | nil => cases h; rfl
  | cons b l ih =>
    obtain ⟨u, hu, ht⟩ := andThen_eq_next.mp (feedAll_cons b l s ▸ h)
    rw [List.length_cons] at hj
    have hstep := execParserFeed_bytesTaken hu
    calc t.frameAt j = u.frameAt j := ih (execParserFeed_frameBuffer_wf hwf hu) (by omega) ht
      _ = s.frameAt j := execParserFeed_frameAt hwf (by omega) hu

/-- Settles O43: a fresh parser has taken no byte, so `4 + i` fed bytes do not reach cell `2 + i`; and what is outside the
parser leaves the parser as it is, but for the reset, which does not write `frame_buffer`. -/
theorem payloadCellLifetime : Obligations.PayloadCellLifetime := by
  refine ⟨fun s t l i hstate hwf hl h => feedAll_frameAt hwf ?_ h, fun s t i h hi j => ?_⟩
  · have hfresh : s.parser.bytesTaken = 0 := by rw [Parser.bytesTaken, hstate]
    omega
  · rcases hi with hfamily | rfl
    · by_cases hreset : i = .reset
      · subst hreset
        cases h
        rfl
      · rw [State.frameAt, exec_parser_kept h hfamily hreset, State.frameAt]
    · cases h
      rfl

/-! ### Reset (R155, R156) -/

/-- Settles O1: each part is initialised, and its memory and the registers without a reset value are not written. -/
theorem resetWritesAndLeavesAlone : Obligations.ResetWritesAndLeavesAlone := fun s =>
  ⟨_, rfl, ⟨rfl, rfl, rfl⟩, ⟨rfl, rfl⟩, ⟨rfl, rfl⟩, ⟨rfl, rfl⟩, fun _ => ⟨rfl, rfl, rfl⟩, ⟨rfl, rfl, rfl, rfl⟩,
    ⟨rfl, ByteQueue.count_init s.cfg s.queue, rfl, rfl, rfl, rfl⟩, rfl, rfl, rfl, rfl, rfl⟩

theorem runEdge_reset {e : Edge} (hr : e.r = 1) (s : State) : runEdge e s = exec .reset s := if_pos hr

/-- Settles O2: the edge runs the reset alone, whose result outputs are the idle ones. -/
theorem resetOverridesEveryPort : Obligations.ResetOverridesEveryPort := fun s _ rest hschedule hr =>
  ⟨_, (step_edge hschedule).trans (runEdge_reset hr (s.fetched rest)), rfl, rfl, rfl, rfl, rfl, rfl, rfl, rfl, rfl, rfl,
    rfl, rfl, rfl⟩

end Sys2Proof.Machine
